-- ==== Sys2Proof/Word.lean ====
section
/-! DEFINITION. The block's one word size: the byte (spec/00_scope.md R14, "A byte is 8 bits"). -/

namespace Sys2Proof

/-- A byte: a framebuffer byte, a payload byte, a row address (R14, R41). -/
abbrev Byte := BitVec 8

end Sys2Proof
end

