-- ==== Sys2Proof/Config.lean ====
section
/-! DEFINITION. What is fixed for the machine: the geometry of spec/00_scope.md R10, the defaults of R11 and R13,
the values of the spec's open parameters (spec/92_eei_decisions.md D3, D6, D8) and of the model's own, and the free values. -/

namespace Sys2Proof

/-- DisplayAddress: "enum {TOP, BOTTOM}; identifies one 132×64 controller memory" (R18). -/
inductive Display where
  | top
  | bottom
  deriving DecidableEq, Repr

/-- The two framebuffer instances `ENC.FB` and `DEC.FB` (R21). -/
inductive FbInst where
  | enc
  | dec
  deriving DecidableEq, Repr

/-- `COL_OVERFLOW` ∈ {wrap256 (default), refuse} (92_eei_decisions.md D3; R173). Log entry 7. -/
inductive ColOverflow where
  | wrap256
  | refuse
  deriving DecidableEq, Repr

/-- Whether the host's FBWRITE and FBMASKWR reach `DEC.FB`: `host`, as R91's operands and example and R92's operands say
(default), or `decoder`, as R43 says, "The decoder's WDATA writes `DEC.FB` and nothing else does". Log entry 12. -/
inductive DecWrites where
  | host
  | decoder
  deriving DecidableEq, Repr

/-- `BAD_HEADER` ∈ {ignore (default), refuse} (92_eei_decisions.md D6; R144). Log entry 8. -/
inductive BadHeader where
  | ignore
  | refuse
  deriving DecidableEq, Repr

namespace Config

/-- `W`: columns per display (R10). -/
abbrev columns : Nat := 132

/-- `HH`: pixel rows per display (R10). -/
abbrev halfRows : Nat := 64

/-- `H`: pixel rows of the canvas (R10). -/
abbrev canvasRows : Nat := 128

/-- `PAGES`: pages per display (R10). -/
abbrev pages : Nat := 8

/-- Bytes of one framebuffer instance, 2 × 8 × 132 (R40). -/
abbrev framebufferBytes : Nat := 2112

/-- `ADDR_TOP` (R10). -/
def addrTop : Byte := 0x3C

/-- `ADDR_BOTTOM` (R10). -/
def addrBottom : Byte := 0x3D

/-- `HDR_CTRL` (R10). -/
def hdrCtrl : Byte := 0x00

/-- `HDR_DATA` (R10). -/
def hdrData : Byte := 0x40

/-- `MAX_RUN_LEN` unless the host supplies another (R11). -/
def defaultMaxRunLen : Nat := 32

/-- `FRAME_STRIDE` unless the host supplies another (R13, R26). -/
def defaultFrameStride : Nat := 8

/-- `PAGE_ORDER` unless the host supplies another: TOP before BOTTOM, ascending page (R124 c; 92_eei_decisions.md D8). -/
def defaultPageOrder : List (Display × Fin pages) :=
  [(.top, 0), (.top, 1), (.top, 2), (.top, 3), (.top, 4), (.top, 5), (.top, 6), (.top, 7),
   (.bottom, 0), (.bottom, 1), (.bottom, 2), (.bottom, 3), (.bottom, 4), (.bottom, 5), (.bottom, 6), (.bottom, 7)]

/-- What a framebuffer byte that nothing has written since reset reads as (R21, R51). -/
def blankByte : Byte := 0

/-- Free value: whether the strobe is up after a data row when the host has set `FRAME_STRIDE` to 0, which is no
legal value (R26, "integer ≥ 1") and for which no rule states a strobe. Log entry 10 (DESIGN CHOICE). -/
opaque strobeAtStrideZero : Nat → Bool

/-- Free value: what EMIT sends for a column without storage; no rule states that byte. The argument is the number of
free values drawn so far. Log entries 19 and 22 (DESIGN CHOICE). -/
opaque freeByte : Nat → Byte

/-- Free value: the pixel that ADDR2PIX answers outside the ranges of R102. Log entries 18 and 22 (DESIGN CHOICE). -/
opaque freePixel : Nat → Nat × Nat

/-- Free value: the runs, as (first column, length), that PACK answers for a set with a column that does not exist. Log
entries 18 and 22 (DESIGN CHOICE). -/
opaque freeRuns : Nat → List (Nat × Nat)

end Config

end Sys2Proof
end

