-- ==== Sys2Proof/Syntax.lean ====
section
/-! DEFINITION. The instructions: one constructor for every row of spec/opcode_table.json (36 rows, 31 mnemonics; the
six CNOP rows are six constructors, so that each keeps exactly the bits its mask leaves free). -/

namespace Sys2Proof

/-- One entry of a segment: a canvas coordinate and the pixel's target value (R105). Coordinates are naturals so
that one off the canvas can be presented (and is then refused, R101). -/
structure Pixel where
  x : Nat
  y : Nat
  on : Bool
  deriving DecidableEq, Repr

/-- A row: "(DisplayAddress, payload bytes)" (R60); `addr` is the 8-bit bus address (R41). -/
structure Row where
  addr : Byte
  payload : List Byte
  deriving DecidableEq, Repr

/-- A position of the row protocol, the column `format` of the opcode table (R82): what the bytes at hand are. From
the row header on, the display that the row's address selected is part of the position (R141). -/
inductive Format where
  | rowAddress
  | rowHeader (a : Display)
  | ctrlBody (a : Display)
  | dataBody (a : Display)
  | emittedCtrlRow (a : Display)
  | emittedDataRow (a : Display)
  deriving DecidableEq, Repr

/-- The instructions. `a` is the display that the row selected; `n`, `p`, `l`, `h`, `x` are the bits the row's mask
leaves free; the page and the first column of RUN and EMIT have the widths `PAGEW` and `COLW` of R12; the other operands
of port operations are naturals, since the spec refuses some of them by range. -/
inductive Instr where
  /-- ADDR.TOP (R141): address byte `0x3C`, then the payload. -/
  | addrTop (payload : List Byte)
  /-- ADDR.BOTTOM (R141): address byte `0x3D`, then the payload. -/
  | addrBottom (payload : List Byte)
  /-- ADDR.OTHER (R142): any other address byte. -/
  | addrOther (addr : Byte) (payload : List Byte)
  /-- CTRL (R155): header `0x00`, then the body. -/
  | ctrl (a : Display) (body : List Byte)
  /-- DATA (R170): header `0x40`, then the body. -/
  | data (a : Display) (body : List Byte)
  /-- HDR.OTHER (R144): any other header byte. -/
  | hdrOther (a : Display) (header : Byte) (body : List Byte)
  /-- EMPTY (R143): a payload of zero bytes. -/
  | empty (a : Display)
  /-- SETCOLLO n (R157): `0000 nnnn`. -/
  | setcollo (a : Display) (n : BitVec 4)
  /-- SETCOLHI n (R158): `0001 nnnn`. -/
  | setcolhi (a : Display) (n : BitVec 4)
  /-- CNOP (R159): `001x xxxx`. -/
  | cnop20 (a : Display) (x : BitVec 5)
  /-- CNOP (R159): `01xx xxxx`. -/
  | cnop40 (a : Display) (x : BitVec 6)
  /-- CNOP (R159): `100x xxxx`. -/
  | cnop80 (a : Display) (x : BitVec 5)
  /-- CNOP (R159): `1010 xxxx`. -/
  | cnopA0 (a : Display) (x : BitVec 4)
  /-- SETPAGE p (R156): `1011 0ppp`. -/
  | setpage (a : Display) (p : BitVec 3)
  /-- CNOP (R159): `1011 1xxx`. -/
  | cnopB8 (a : Display) (x : BitVec 3)
  /-- CNOP (R159): `11xx xxxx`. -/
  | cnopC0 (a : Display) (x : BitVec 6)
  /-- WDATA d (R171): any byte of a data-row body. -/
  | wdata (a : Display) (d : Byte)
  /-- SETCURSOR (R81, R72): the four-byte control row `00 (B0|p) (00|l) (10|h)`. -/
  | setcursor (a : Display) (p : BitVec 3) (l h : BitVec 4)
  /-- WRITE (R81, R73): the data row `40 d0 .. dn-1`. -/
  | write (a : Display) (ds : List Byte)
  /-- RUN (R81): SETCURSOR then WRITE. -/
  | run (a : Display) (p : BitVec 3) (c : BitVec 8) (ds : List Byte)
  /-- ROW (R140). -/
  | row (addr : Byte) (payload : List Byte)
  /-- CTRLROW (R155). -/
  | ctrlrow (a : Display) (body : List Byte)
  /-- DATAROW (R170). -/
  | datarow (a : Display) (body : List Byte)
  /-- FBREAD (R90). -/
  | fbread (b : FbInst) (a : Display) (p c : Nat)
  /-- FBWRITE (R91). -/
  | fbwrite (b : FbInst) (a : Display) (p c : Nat) (v : Byte)
  /-- FBMASKWR (R92). -/
  | fbmaskwr (b : FbInst) (a : Display) (p c : Nat) (mask desired : Byte)
  /-- PIX2ADDR (R100). -/
  | pix2addr (x y : Nat)
  /-- ADDR2PIX (R102). -/
  | addr2pix (a : Display) (p i c : Nat)
  /-- BITMAP (R104). -/
  | bitmap (b : FbInst)
  /-- ACCUM (R106): a step of SEGUPDATE. -/
  | accum (seg : List Pixel)
  /-- SEGUPDATE (R115). -/
  | segupdate (seg : List Pixel)
  /-- APPLY (R116): a step of SEGUPDATE. -/
  | apply
  /-- PACK (R119): a step of SEGUPDATE; the set of columns as a list. -/
  | pack (cols : List Nat)
  /-- EMIT (R121, R122): a step of SEGUPDATE; the run (first column, length). -/
  | emit (a : Display) (p : BitVec 3) (c0 : BitVec 8) (n : Nat)
  /-- SAMPLE (R188). -/
  | sample
  /-- RESET (R215). -/
  | reset
  deriving DecidableEq, Repr

/-- A transaction at the block's inputs (92_eei_decisions.md D1): bytes at a position of the row protocol, or an
operation presented by its name. Log entries 1 and 4. -/
inductive Input where
  | bytes (f : Format) (bs : List Byte)
  | op (i : Instr)
  deriving DecidableEq, Repr

/-- Why bytes are no instruction at a position. -/
inductive DecodeError where
  /-- A row needs its address byte (R60). -/
  | noAddress
  /-- A control or data command is exactly one byte (R64, R71). -/
  | notOneByte
  /-- Not the four-byte template of R72. -/
  | notSetcursor
  /-- Not the template of R73: no `0x40` header. -/
  | notWrite
  deriving DecidableEq, Repr

end Sys2Proof
end

