-- ==== Sys2Proof/WellFormed.lean ====
section
/-! DEFINITION. Well-formed instructions: the conditions the spec puts on operands alone, whatever the state
(R62, R63, R81, R49, R101, R102, R105, R119). A form outside them is one the spec refuses or states no result for. -/

namespace Sys2Proof

/-- A framebuffer location exists: page ∈ [0,7], column ∈ [0,131] (R40, R49). -/
def inFramebuffer (p c : Nat) : Bool := p < Config.pages && c < Config.columns

/-- A pixel lies on the canvas: x ∈ [0,131], y ∈ [0,127] (R101). -/
def onCanvas (x y : Nat) : Bool := x < Config.columns && y < Config.canvasRows

/-- Every entry of a segment is a canvas pixel (R105). -/
def segmentOnCanvas (seg : List Pixel) : Bool := seg.all fun e => onCanvas e.x e.y

/-- "pairwise distinct coordinates" (R105). -/
def segmentDistinct (seg : List Pixel) : Bool := decide ((seg.map fun e => (e.x, e.y)).Nodup)

/-- A run lies in one page and is not empty (R119, R120 e, R81). -/
def runInPage (c0 n : Nat) : Bool := 1 ≤ n && c0 + n ≤ Config.columns

/-- Bus addresses that select a display (R62). -/
def selectsDisplay (addr : Byte) : Bool := addr == Config.addrTop || addr == Config.addrBottom

/-- Header bytes that begin a control or a data row (R63). -/
def isRowHeader (h : Byte) : Bool := h == Config.hdrCtrl || h == Config.hdrData

/-- Well-formed operands, for every constructor. -/
def Instr.wf : Instr → Bool
  | .addrTop _ => true
  | .addrBottom _ => true
  | .addrOther addr _ => !selectsDisplay addr
  | .ctrl _ _ => true
  | .data _ _ => true
  | .hdrOther _ h _ => !isRowHeader h
  | .empty _ => true
  | .setcollo _ _ => true
  | .setcolhi _ _ => true
  | .cnop20 _ _ => true
  | .cnop40 _ _ => true
  | .cnop80 _ _ => true
  | .cnopA0 _ _ => true
  | .setpage _ _ => true
  | .cnopB8 _ _ => true
  | .cnopC0 _ _ => true
  | .wdata _ _ => true
  | .setcursor _ _ _ _ => true
  | .write _ _ => true
  | .run _ _ c ds => runInPage c.toNat ds.length
  | .row _ _ => true
  | .ctrlrow _ _ => true
  | .datarow _ _ => true
  | .fbread _ _ p c => inFramebuffer p c
  | .fbwrite _ _ p c _ => inFramebuffer p c
  | .fbmaskwr _ _ p c _ _ => inFramebuffer p c
  | .pix2addr x y => onCanvas x y
  | .addr2pix _ p i c => inFramebuffer p c && i < 8
  | .bitmap _ => true
  | .accum seg => segmentOnCanvas seg && segmentDistinct seg
  | .segupdate seg => segmentOnCanvas seg && segmentDistinct seg
  | .apply => true
  | .pack cols => cols.all fun c => c < Config.columns
  | .emit _ _ c0 n => runInPage c0.toNat n
  | .sample => true
  | .reset => true

end Sys2Proof
end

