-- ==== Sys2Proof/Decode.lean ====
section
/-! DEFINITION. Decoding and encoding of the row protocol (spec/30_encoding.md). The class of a byte depends on its
position in the row (R60, R64), so `decode` takes the position. `decode` is total and rejects by name; `encode` is
written from the same tables; `decodeTableWord` reads a word of spec/opcode_table.json. -/

namespace Sys2Proof

/-! ### Control-row body bytes (R65) -/

/-- The class of a control-row body byte with the bits its mask leaves free: the nine ranges of R65. -/
inductive CtrlCmd where
  | setcollo (n : BitVec 4)
  | setcolhi (n : BitVec 4)
  | cnop20 (x : BitVec 5)
  | cnop40 (x : BitVec 6)
  | cnop80 (x : BitVec 5)
  | cnopA0 (x : BitVec 4)
  | setpage (p : BitVec 3)
  | cnopB8 (x : BitVec 3)
  | cnopC0 (x : BitVec 6)
  deriving DecidableEq, Repr

/-- One line of the table of R65: a byte `b` belongs to it when `(b & mask) == pat`. -/
structure CtrlClass where
  mask : Byte
  pat : Byte
  cmd : Byte → CtrlCmd

/-- The table of R65, in its order. -/
def ctrlClasses : List CtrlClass :=
  [⟨0xF0, 0x00, fun b => .setcollo (b.extractLsb' 0 4)⟩,
   ⟨0xF0, 0x10, fun b => .setcolhi (b.extractLsb' 0 4)⟩,
   ⟨0xE0, 0x20, fun b => .cnop20 (b.extractLsb' 0 5)⟩,
   ⟨0xC0, 0x40, fun b => .cnop40 (b.extractLsb' 0 6)⟩,
   ⟨0xE0, 0x80, fun b => .cnop80 (b.extractLsb' 0 5)⟩,
   ⟨0xF0, 0xA0, fun b => .cnopA0 (b.extractLsb' 0 4)⟩,
   ⟨0xF8, 0xB0, fun b => .setpage (b.extractLsb' 0 3)⟩,
   ⟨0xF8, 0xB8, fun b => .cnopB8 (b.extractLsb' 0 3)⟩,
   ⟨0xC0, 0xC0, fun b => .cnopC0 (b.extractLsb' 0 6)⟩]

/-- Whether a byte belongs to a line of the table. -/
def CtrlClass.holds (r : CtrlClass) (b : Byte) : Bool := b &&& r.mask == r.pat

/-- The class of a control-row body byte. The nine lines partition 0..255 (R65), so the last alternative never
arises (`Laws.ctrlClasses_partition`). -/
def classifyCtrl (b : Byte) : CtrlCmd :=
  match ctrlClasses.find? fun r => r.holds b with
  | some r => r.cmd b
  | none => .cnopC0 (b.extractLsb' 0 6)

/-- The byte of a command: the fixed bits of R65 before the free ones. -/
def CtrlCmd.byte : CtrlCmd → Byte
  | .setcollo n => 0b0000#4 ++ n
  | .setcolhi n => 0b0001#4 ++ n
  | .cnop20 x => 0b001#3 ++ x
  | .cnop40 x => 0b01#2 ++ x
  | .cnop80 x => 0b100#3 ++ x
  | .cnopA0 x => 0b1010#4 ++ x
  | .setpage p => 0b10110#5 ++ p
  | .cnopB8 x => 0b10111#5 ++ x
  | .cnopC0 x => 0b11#2 ++ x

/-- The instruction of a command on the display its row selected. -/
def CtrlCmd.instr (a : Display) : CtrlCmd → Instr
  | .setcollo n => .setcollo a n
  | .setcolhi n => .setcolhi a n
  | .cnop20 x => .cnop20 a x
  | .cnop40 x => .cnop40 a x
  | .cnop80 x => .cnop80 a x
  | .cnopA0 x => .cnopA0 a x
  | .setpage p => .setpage a p
  | .cnopB8 x => .cnopB8 a x
  | .cnopC0 x => .cnopC0 a x

/-! ### The decoder of bytes -/

/-- The payload of the emitted control row (R72): `00000000 10110ppp 0000llll 0001hhhh`. -/
def setcursorPayload (p : BitVec 3) (l h : BitVec 4) : List Byte :=
  [Config.hdrCtrl, (CtrlCmd.setpage p).byte, (CtrlCmd.setcollo l).byte, (CtrlCmd.setcolhi h).byte]

/-- A row from its address byte on (R62). -/
def decodeAddress : List Byte → Except DecodeError Instr
  | [] => .error .noAddress
  | addr :: payload =>
    if addr = Config.addrTop then .ok (.addrTop payload)
    else if addr = Config.addrBottom then .ok (.addrBottom payload)
    else .ok (.addrOther addr payload)

/-- A payload from its header byte on (R63). -/
def decodeHeader (a : Display) : List Byte → Instr
  | [] => .empty a
  | h :: body =>
    if h = Config.hdrCtrl then .ctrl a body
    else if h = Config.hdrData then .data a body
    else .hdrOther a h body

/-- The four-byte template of R72. -/
def decodeSetcursor (a : Display) : List Byte → Except DecodeError Instr
  | [h, b1, b2, b3] =>
    match h == Config.hdrCtrl, classifyCtrl b1, classifyCtrl b2, classifyCtrl b3 with
    | true, .setpage p, .setcollo l, .setcolhi hi => .ok (.setcursor a p l hi)
    | _, _, _, _ => .error .notSetcursor
  | _ => .error .notSetcursor

/-- The template of R73; R81 admits WRITE with no data byte (n ≥ 0). Log entry 21. -/
def decodeWrite (a : Display) : List Byte → Except DecodeError Instr
  | [] => .error .notWrite
  | h :: ds => if h = Config.hdrData then .ok (.write a ds) else .error .notWrite

/-- The instruction that bytes are at a position of the row protocol. Total; rejects by name. -/
def decode : Format → List Byte → Except DecodeError Instr
  | .rowAddress, bs => decodeAddress bs
  | .rowHeader a, bs => .ok (decodeHeader a bs)
  | .ctrlBody a, [b] => .ok ((classifyCtrl b).instr a)
  | .ctrlBody _, _ => .error .notOneByte
  | .dataBody a, [b] => .ok (.wdata a b)
  | .dataBody _, _ => .error .notOneByte
  | .emittedCtrlRow a, bs => decodeSetcursor a bs
  | .emittedDataRow a, bs => decodeWrite a bs

/-! ### The encoder -/

/-- The position and the bytes of an instruction; none for an operation that has no bit pattern (R82). -/
def encode : Instr → Option (Format × List Byte)
  | .addrTop payload => some (.rowAddress, Config.addrTop :: payload)
  | .addrBottom payload => some (.rowAddress, Config.addrBottom :: payload)
  | .addrOther addr payload => some (.rowAddress, addr :: payload)
  | .ctrl a body => some (.rowHeader a, Config.hdrCtrl :: body)
  | .data a body => some (.rowHeader a, Config.hdrData :: body)
  | .hdrOther a h body => some (.rowHeader a, h :: body)
  | .empty a => some (.rowHeader a, [])
  | .setcollo a n => some (.ctrlBody a, [(CtrlCmd.setcollo n).byte])
  | .setcolhi a n => some (.ctrlBody a, [(CtrlCmd.setcolhi n).byte])
  | .cnop20 a x => some (.ctrlBody a, [(CtrlCmd.cnop20 x).byte])
  | .cnop40 a x => some (.ctrlBody a, [(CtrlCmd.cnop40 x).byte])
  | .cnop80 a x => some (.ctrlBody a, [(CtrlCmd.cnop80 x).byte])
  | .cnopA0 a x => some (.ctrlBody a, [(CtrlCmd.cnopA0 x).byte])
  | .setpage a p => some (.ctrlBody a, [(CtrlCmd.setpage p).byte])
  | .cnopB8 a x => some (.ctrlBody a, [(CtrlCmd.cnopB8 x).byte])
  | .cnopC0 a x => some (.ctrlBody a, [(CtrlCmd.cnopC0 x).byte])
  | .wdata a d => some (.dataBody a, [d])
  | .setcursor a p l h => some (.emittedCtrlRow a, setcursorPayload p l h)
  | .write a ds => some (.emittedDataRow a, Config.hdrData :: ds)
  | .run _ _ _ _ => none
  | .row _ _ => none
  | .ctrlrow _ _ => none
  | .datarow _ _ => none
  | .fbread _ _ _ _ => none
  | .fbwrite _ _ _ _ _ => none
  | .fbmaskwr _ _ _ _ _ _ => none
  | .pix2addr _ _ => none
  | .addr2pix _ _ _ _ => none
  | .bitmap _ => none
  | .accum _ => none
  | .segupdate _ => none
  | .apply => none
  | .pack _ => none
  | .emit _ _ _ _ => none
  | .sample => none
  | .reset => none

/-! ### Words of spec/opcode_table.json -/

/-- The low `8·k` bits of a number as `k` bytes, most significant byte first: the table numbers the bits of its
multi-byte pattern as ONE number whose first byte stands highest (SETCURSOR: `hdr` at 31..24, `p` at 18..16). Log
entry 5. -/
def tableBytes : Nat → Nat → List Byte
  | 0, _ => []
  | k + 1, w => BitVec.ofNat 8 (w / 256 ^ k) :: tableBytes k w

/-- The position at which a table word is read. One byte alone belongs to several rows of the table (`0x00` is CTRL,
SETCOLLO and WDATA): the row with the longest fixed pattern at the outermost position wins. Log entry 4. -/
def tableFormat : List Byte → Format
  | [b] =>
    if selectsDisplay b then .rowAddress
    else if isRowHeader b then .rowHeader .top
    else .ctrlBody .top
  | b :: _ => if b = Config.hdrData then .emittedDataRow .top else .emittedCtrlRow .top
  | [] => .rowAddress

/-- The transaction that carries a table word. -/
def tableInput (nbits w : Nat) : Input :=
  .bytes (tableFormat (tableBytes (nbits / 8) w)) (tableBytes (nbits / 8) w)

/-- The instruction the decoder reads from a word of the opcode table. -/
def decodeTableWord (nbits w : Nat) : Option Instr :=
  (decode (tableFormat (tableBytes (nbits / 8) w)) (tableBytes (nbits / 8) w)).toOption

/-- Steps of SEGUPDATE, which the ports do not accept: they "cannot be invoked alone" (spec/42_update_sequencer.md, second
paragraph; R28 for ACCUM; log entry 11). Every other operation is a host operation, and those are "always permitted" (R205). -/
def Instr.isInternalStep : Instr → Bool
  | .accum _ => true
  | .apply => true
  | .pack _ => true
  | .emit _ _ _ _ => true
  | .addrTop _ => false
  | .addrBottom _ => false
  | .addrOther _ _ => false
  | .ctrl _ _ => false
  | .data _ _ => false
  | .hdrOther _ _ _ => false
  | .empty _ => false
  | .setcollo _ _ => false
  | .setcolhi _ _ => false
  | .cnop20 _ _ => false
  | .cnop40 _ _ => false
  | .cnop80 _ _ => false
  | .cnopA0 _ _ => false
  | .setpage _ _ => false
  | .cnopB8 _ _ => false
  | .cnopC0 _ _ => false
  | .wdata _ _ => false
  | .setcursor _ _ _ _ => false
  | .write _ _ => false
  | .run _ _ _ _ => false
  | .row _ _ => false
  | .ctrlrow _ _ => false
  | .datarow _ _ => false
  | .fbread _ _ _ _ => false
  | .fbwrite _ _ _ _ _ => false
  | .fbmaskwr _ _ _ _ _ _ => false
  | .pix2addr _ _ => false
  | .addr2pix _ _ _ _ => false
  | .bitmap _ => false
  | .segupdate _ => false
  | .sample => false
  | .reset => false

/-- The framebuffer writes of R91 and R92 on `DEC`. -/
def Instr.isDecWrite : Instr → Bool
  | .accum _ => false
  | .apply => false
  | .pack _ => false
  | .emit _ _ _ _ => false
  | .addrTop _ => false
  | .addrBottom _ => false
  | .addrOther _ _ => false
  | .ctrl _ _ => false
  | .data _ _ => false
  | .hdrOther _ _ _ => false
  | .empty _ => false
  | .setcollo _ _ => false
  | .setcolhi _ _ => false
  | .cnop20 _ _ => false
  | .cnop40 _ _ => false
  | .cnop80 _ _ => false
  | .cnopA0 _ _ => false
  | .setpage _ _ => false
  | .cnopB8 _ _ => false
  | .cnopC0 _ _ => false
  | .wdata _ _ => false
  | .setcursor _ _ _ _ => false
  | .write _ _ => false
  | .run _ _ _ _ => false
  | .row _ _ => false
  | .ctrlrow _ _ => false
  | .datarow _ _ => false
  | .fbread _ _ _ _ => false
  | .fbwrite b _ _ _ _ => b == .dec
  | .fbmaskwr b _ _ _ _ _ => b == .dec
  | .pix2addr _ _ => false
  | .addr2pix _ _ _ _ => false
  | .bitmap _ => false
  | .segupdate _ => false
  | .sample => false
  | .reset => false

end Sys2Proof
end

