-- ==== Sys2Proof/Machine/State.lean ====
section
/-! DEFINITION. The state of the block (spec/10_state.md R20: "The complete state of the block is the following, and
nothing else"), its configuration inputs, its ports, the reasons a step can stop, and the state after reset. -/

namespace Sys2Proof.Machine

/-- One framebuffer instance: the bytes that differ from `0x00`, as (location, byte) pairs with strictly rising
locations (R21, R40). Canonical form: `Memory.wf`. The numbering of locations is `fbAddr` (log entry 6). -/
abbrev Memory := List Host.Cell

/-- DisplayCursorState: the (page, column) pointer of one display (R22); page 3 bits (R23), column 8 bits (R24). -/
structure Cursor where
  page : BitVec 3
  col : BitVec 8
  deriving DecidableEq, Repr

/-- Byte key: "the triple (address, page, column) that names one framebuffer byte" (R18). -/
structure ByteKey where
  disp : Display
  page : Fin Config.pages
  col : Fin Config.columns
  deriving DecidableEq, Repr

/-- One entry of `ACC`: "a bit-mask of touched bits and a bit-pattern of desired values" (R28). -/
structure AccEntry where
  key : ByteKey
  mask : Byte
  desired : Byte
  deriving DecidableEq, Repr

/-- One entry of `CHG`: the changed columns of one (address, page), ascending (R29). -/
structure ChgEntry where
  disp : Display
  page : Fin Config.pages
  cols : List Nat
  deriving DecidableEq, Repr

/-- A run of consecutive columns: first column and length (R119). -/
structure Run where
  first : Nat
  len : Nat
  deriving DecidableEq, Repr

/-- The decoder's state (R20). -/
structure Decoder where
  /-- `DEC.FB` (R21). -/
  fb : Memory
  /-- `CUR[TOP]` (R22). -/
  curTop : Cursor
  /-- `CUR[BOTTOM]` (R22). -/
  curBottom : Cursor
  /-- `DROWS`, an unbounded natural (R30). -/
  drows : Nat
  deriving DecidableEq, Repr

/-- The sequencer's state (R20). -/
structure Sequencer where
  /-- `ENC.FB`, the mirror (R21). -/
  fb : Memory
  /-- `ACC` (R28). -/
  acc : List AccEntry
  /-- `CHG` (R29). -/
  chg : List ChgEntry
  /-- `OUT`, oldest row first (R31). -/
  out : List Row
  deriving DecidableEq, Repr

/-- The host's configuration inputs (R26), the spec's open parameters of the block (92_eei_decisions.md D3, D6, D8), and one
parameter of the model's own, for a point on which R43 and R91 differ (log entry 12). "Neither is changed by
reset: they are inputs, not registers" (R26). -/
structure Settings where
  /-- `MAX_RUN_LEN` (R26). -/
  maxRunLen : Nat
  /-- `FRAME_STRIDE` (R26). -/
  frameStride : Nat
  /-- `COL_OVERFLOW` (D3). -/
  colOverflow : ColOverflow
  /-- `BAD_HEADER` (D6). -/
  badHeader : BadHeader
  /-- `PAGE_ORDER` (D8). -/
  pageOrder : List (Display × Fin Config.pages)
  /-- Whether the host's port writes reach `DEC.FB` (R91 and R92, or R43; log entry 12). -/
  decWrites : DecWrites
  deriving DecidableEq, Repr

/-- What a transaction answers on a host port (92_eei_decisions.md D1). Log entry 2. -/
inductive Result where
  /-- Nothing was asked. -/
  | none
  /-- FBREAD's byte (R90). -/
  | byte (v : Byte)
  /-- FBMASKWR's pair (old, new) (R92). -/
  | masked (old new : Byte)
  /-- PIX2ADDR's (a, p, i, c) (R100). -/
  | address (a : Display) (p i c : Nat)
  /-- ADDR2PIX's (x, y) (R102). -/
  | pixel (x y : Nat)
  /-- BITMAP's picture, `B[x][y]` (R104). -/
  | picture (b : List (List Bool))
  /-- PACK's runs (R119). -/
  | runs (rs : List Run)
  /-- The SAMPLE strobe (R188). -/
  | strobe (up : Bool)
  deriving DecidableEq, Repr

/-- The block's ports (92_eei_decisions.md D1); the model's own fields (log entries 1, 2, 3, 22). -/
structure Ports where
  /-- Transactions presented and not yet taken, oldest first. -/
  input : List Input
  /-- The answer of the last transaction. -/
  result : Result
  /-- The last row-protocol transaction completed a DATAROW (R188). -/
  dataRowDone : Bool
  /-- How many free values have been drawn: the argument of the next one (log entry 22). -/
  draws : Nat
  deriving DecidableEq, Repr

/-- The machine. -/
structure State where
  dec : Decoder
  enc : Sequencer
  cfg : Settings
  ports : Ports
  deriving DecidableEq, Repr

/-- The block has no fault: "The block raises no exception" (R195), "A model of the block has no constructor for
them" (R197). No step ever answers a fault. -/
inductive Fault where
  deriving DecidableEq, Repr

/-- Why a step gives no result: the spec's `refuse` (R15, "the input is outside what this spec gives a meaning to").
Every refusal is safe: nothing is claimed of the hardware where the model stops. -/
inductive Refusal where
  /-- Raised by exec for an instruction without a meaning (none is left); safe. -/
  | notModelled (mnemonic : String)
  /-- Raised by the fetch: the presented bytes are no instruction at their position; safe. -/
  | undecodable (e : DecodeError)
  /-- Raised by the fetch: ACCUM, APPLY, PACK and EMIT "cannot be invoked alone" (42_update_sequencer.md; log entry 11 for
  ACCUM); safe. -/
  | internalStepAlone
  /-- Raised by the fetch where only the decoder writes `DEC.FB` (R43): the host's FBWRITE or FBMASKWR on it; safe. -/
  | decIsTheDecoders
  /-- Raised by FBREAD, FBWRITE, FBMASKWR: no storage exists there (R49, U15); safe. -/
  | noSuchByte
  /-- Raised by PIX2ADDR, ACCUM, SEGUPDATE: a pixel off the canvas (R101); safe. -/
  | offCanvas
  /-- Raised by ACCUM, SEGUPDATE: a segment that repeats a coordinate (R105); safe. -/
  | repeatedPixel
  /-- Raised by PACK, SEGUPDATE: `MAX_RUN_LEN` is 0 (R127); safe. -/
  | maxRunLenZero
  /-- Raised by SEGUPDATE: `PAGE_ORDER` is no order on the 16 pairs (D8); safe. -/
  | badPageOrder
  /-- Raised by the decoder under `BAD_HEADER` = refuse only (R144, U3); safe. -/
  | badHeader
  /-- Raised by the decoder under `COL_OVERFLOW` = refuse only (R173, U1); safe. -/
  | colOverflow
  deriving DecidableEq, Repr

/-- The decoder after reset (R25, R36). -/
def Decoder.reset : Decoder := { fb := [], curTop := ⟨0, 0⟩, curBottom := ⟨0, 0⟩, drows := 0 }

/-- The sequencer after reset (R36). -/
def Sequencer.reset : Sequencer := { fb := [], acc := [], chg := [], out := [] }

/-- The configuration when the host supplies no other (R26; 92_eei_decisions.md D3, D6, D8; log
entry 12). -/
def Settings.default : Settings :=
  { maxRunLen := Config.defaultMaxRunLen, frameStride := Config.defaultFrameStride, colOverflow := .wrap256,
    badHeader := .ignore, pageOrder := Config.defaultPageOrder, decWrites := .host }

/-- Ports with nothing presented and nothing answered (log entries 1, 2, 3, 22). -/
def Ports.idle : Ports := { input := [], result := .none, dataRowDone := false, draws := 0 }

/-- The machine right after reset (R36), with the default configuration and nothing presented. -/
def State.reset : State :=
  { dec := Decoder.reset, enc := Sequencer.reset, cfg := Settings.default, ports := Ports.idle }

end Sys2Proof.Machine
end

