-- ==== Sys2Proof/Machine/Operands.lean ====
section
/-! DEFINITION. Every operand form and every computation on values: display select, framebuffer locations, the one
addressing mode of the protocol (the cursor), the pixel address decode and its inverse, the split of a column, the
masked byte (spec/20_memory.md R59 is the closed list). -/

namespace Sys2Proof.Machine

/-! ### Displays -/

/-- The display that a bus address selects, if any: equality with the whole 8-bit value (R62, R141). -/
def selectDisplay (addr : Byte) : Option Display :=
  if addr = Config.addrTop then some .top
  else if addr = Config.addrBottom then some .bottom
  else none

/-- The bus address of a display (R18, R121). -/
def busAddr : Display → Byte
  | .top => Config.addrTop
  | .bottom => Config.addrBottom

/-- The place of a display in the numbering of framebuffer locations. -/
def Display.index : Display → Nat
  | .top => 0
  | .bottom => 1

/-! ### Framebuffer locations (R40) -/

/-- The number of the location (a, p, c); the spec itself numbers none (log entry 6). -/
def fbAddr (a : Display) (p c : Nat) : Nat := Display.index a * 1056 + p * 132 + c

/-- The number of a byte key. -/
def ByteKey.addr (k : ByteKey) : Nat := fbAddr k.disp k.page.val k.col.val

/-- The location (a, p, c) if storage exists there: p ∈ [0,7], c ∈ [0,131] (R21, R49). -/
def byteAt? (a : Display) (p c : Nat) : Option ByteKey :=
  if hp : p < Config.pages then
    if hc : c < Config.columns then some ⟨a, ⟨p, hp⟩, ⟨c, hc⟩⟩ else none
  else none

/-! ### The cursor (R22 to R24): loads, effective address, post-increment -/

/-- SETPAGE's load (R156). -/
def Cursor.setPage (c : Cursor) (p : BitVec 3) : Cursor := { c with page := p }

/-- SETCOLLO's load: `(col & 0xF0) | n` (R157). -/
def Cursor.setColLo (c : Cursor) (n : BitVec 4) : Cursor :=
  { c with col := (c.col &&& 0xF0) ||| n.setWidth 8 }

/-- SETCOLHI's load: `(n << 4) | (col & 0x0F)` (R158). -/
def Cursor.setColHi (c : Cursor) (n : BitVec 4) : Cursor :=
  { c with col := (n.setWidth 8 <<< 4) ||| (c.col &&& 0x0F) }

/-- WDATA's increment: `(col + 1) mod 256`, the page unchanged (R172, R173). -/
def Cursor.advance (c : Cursor) : Cursor := { c with col := c.col + 1 }

/-- The effective address of a data byte: the location at the cursor, if the page is in [0,7] and the column in
[0,131] (R171). -/
def Cursor.target? (c : Cursor) (a : Display) : Option ByteKey := byteAt? a c.page.toNat c.col.toNat

/-! ### Pixel address decode (R100 to R103) -/

/-- A framebuffer bit: the byte and the bit in it. -/
structure PixelAddr where
  key : ByteKey
  bit : Nat
  deriving DecidableEq, Repr

/-- The half that a canvas row lies in (R47). -/
def pixelHalf (y : Nat) : Display := if y < Config.halfRows then .top else .bottom

/-- The row within the half (R47). -/
def pixelRow (y : Nat) : Nat := if y < Config.halfRows then y else y - Config.halfRows

/-- PIX2ADDR: page = row div 8, bit = row mod 8, column = x; nothing off the canvas (R100, R101). -/
def pixelAddr? (x y : Nat) : Option PixelAddr :=
  if onCanvas x y then
    match byteAt? (pixelHalf y) (pixelRow y / 8) x with
    | some k => some ⟨k, pixelRow y % 8⟩
    | none => none
  else none

/-- ADDR2PIX: x = c; y = p·8 + i in TOP, 64 + p·8 + i in BOTTOM (R102). -/
def addrPixel (a : Display) (p i c : Nat) : Nat × Nat :=
  match a with
  | .top => (c, p * 8 + i)
  | .bottom => (c, Config.halfRows + p * 8 + i)

/-! ### Bytes -/

/-- The masked write: `new = (old & ~mask) | (desired & mask)` (R92). -/
def maskedByte (old mask desired : Byte) : Byte := (old &&& ~~~mask) ||| (desired &&& mask)

/-- The byte with bit `i` set: `1 << i` (R59, R106). -/
def bitMask (i : Nat) : Byte := (1 : Byte) <<< i

/-- `v << i` for v ∈ {0,1} (R106). -/
def bitValue (on : Bool) (i : Nat) : Byte := (if on then 1 else 0 : Byte) <<< i

/-- The payload of the control row of a run: `[0x00, 0xB0|p, c & 0x0F, 0x10 | ((c >> 4) & 0x0F)]` (R121). -/
def ctrlRowPayload (p c : Nat) : List Byte :=
  [Config.hdrCtrl, 0xB0 ||| BitVec.ofNat 8 p, BitVec.ofNat 8 c &&& 0x0F,
   0x10 ||| ((BitVec.ofNat 8 c >>> 4) &&& 0x0F)]

/-- The payload of a data row (R122, R73). -/
def dataRowPayload (ds : List Byte) : List Byte := Config.hdrData :: ds

end Sys2Proof.Machine
end

