-- ==== Sys2Proof/Machine/Flags.lean ====
section
/-! DEFINITION. The block has no flags, condition codes or predicates (spec/10_state.md R32). What stands here are the
conditions that its operations test and the one output that is computed from the state, the SAMPLE strobe. -/

namespace Sys2Proof.Machine

/-- Change detection on the whole byte: `new != old` (R116). -/
def byteChanged (old new : Byte) : Bool := new != old

/-- `DROWS mod FRAME_STRIDE == 0` (R188); for the stride 0, which is not legal, the free value of log entry 10. -/
def strideHit (stride drows : Nat) : Bool :=
  if stride = 0 then Config.strobeAtStrideZero drows else drows % stride == 0

/-- The SAMPLE output: up after a completed DATAROW exactly when `DROWS mod FRAME_STRIDE == 0`, until the next row
(R188; log entry 3). -/
def State.sampleStrobe (s : State) : Bool := s.ports.dataRowDone && strideHit s.cfg.frameStride s.dec.drows

/-- A `PAGE_ORDER` is an order on the 16 (display, page) pairs: 16 entries that name them all (D8). -/
def pageOrderLegal (o : List (Display × Fin Config.pages)) : Bool :=
  o.length == 16 && Config.defaultPageOrder.all fun q => o.contains q

end Sys2Proof.Machine
end

