-- ==== Sys2Proof/Machine/Ops.lean ====
section
/-! DEFINITION. The shared operations over framebuffers, cursors, the decoder's rows and the sequencer's working state,
and what surrounds an instruction: taking the next transaction, finishing a row, answering on a port. The block has no
exception, trap, return or interrupt (spec/60_exceptions.md R195, R198, R202, R203), so there is no operation for them. -/

namespace Sys2Proof.Machine

/-! ### Framebuffer instances -/

/-- One byte: the last value written, or `0x00` if none since reset (R51). -/
def Memory.read : Memory → Nat → Byte
  | [], _ => Config.blankByte
  | (k, v) :: m, n => if n = k then v else Memory.read m n

/-- Overwrite one byte (R91), keeping the canonical form: writing `0x00` removes the entry. -/
def Memory.write : Memory → Nat → Byte → Memory
  | [], n, w => if w = Config.blankByte then [] else [(n, w)]
  | (k, v) :: m, n, w =>
    if n < k then (if w = Config.blankByte then (k, v) :: m else (n, w) :: (k, v) :: m)
    else if n = k then (if w = Config.blankByte then m else (n, w) :: m)
    else (k, v) :: Memory.write m n w

/-- Canonical from location `lo` on: locations strictly rising from `lo`, inside the 2112 bytes, no `0x00` listed. -/
def Memory.wfFrom : Nat → Memory → Bool
  | _, [] => true
  | lo, (k, v) :: m => lo ≤ k && k < Config.framebufferBytes && v != Config.blankByte && Memory.wfFrom (k + 1) m

/-- The canonical form of an instance. -/
def Memory.wf (m : Memory) : Bool := Memory.wfFrom 0 m

/-- FBMASKWR on an instance: the new contents and the pair (old, new) (R92). -/
def Memory.maskWrite (m : Memory) (n : Nat) (mask desired : Byte) : Memory × Byte × Byte :=
  let old := m.read n
  let new := maskedByte old mask desired
  (m.write n new, old, new)

/-- One pixel of the picture: bit i of the byte that PIX2ADDR names (R104). -/
def Memory.pixel (m : Memory) (x y : Nat) : Bool :=
  match pixelAddr? x y with
  | some q => (m.read q.key.addr).getLsbD q.bit
  | none => false

/-- BITMAP: `B[x][y]` for every canvas pixel (R104). -/
def Memory.bitmap (m : Memory) : List (List Bool) :=
  (List.range Config.columns).map fun x => (List.range Config.canvasRows).map fun y => m.pixel x y

/-- The instance `I` of a port operation (R90). -/
def State.fb (s : State) : FbInst → Memory
  | .enc => s.enc.fb
  | .dec => s.dec.fb

/-- The state with other contents of an instance; everything else stays. -/
def State.setFb (s : State) (m : Memory) : FbInst → State
  | .enc => { s with enc := { s.enc with fb := m } }
  | .dec => { s with dec := { s.dec with fb := m } }

/-! ### The decoder -/

/-- `CUR[a]` (R22). -/
def Decoder.cursor (d : Decoder) : Display → Cursor
  | .top => d.curTop
  | .bottom => d.curBottom

/-- `CUR[a] <- c`; the other display's cursor stays (R22). -/
def Decoder.setCursor (d : Decoder) (c : Cursor) : Display → Decoder
  | .top => { d with curTop := c }
  | .bottom => { d with curBottom := c }

/-- One control-body command on the display's cursor (R155 to R159). -/
def Decoder.ctrlCmd (d : Decoder) (a : Display) : CtrlCmd → Decoder
  | .setcollo n => d.setCursor ((d.cursor a).setColLo n) a
  | .setcolhi n => d.setCursor ((d.cursor a).setColHi n) a
  | .setpage p => d.setCursor ((d.cursor a).setPage p) a
  | .cnop20 _ => d
  | .cnop40 _ => d
  | .cnop80 _ => d
  | .cnopA0 _ => d
  | .cnopB8 _ => d
  | .cnopC0 _ => d

/-- CTRLROW: every body byte in ascending index, classified by its own value (R155). -/
def Decoder.ctrlRow (d : Decoder) (a : Display) : List Byte → Decoder
  | [] => d
  | b :: body => Decoder.ctrlRow (d.ctrlCmd a (classifyCtrl b)) a body

/-- The write half of WDATA: all 8 bits at the cursor's location if it exists, else nothing (R171). -/
def Decoder.storeAtCursor (d : Decoder) (a : Display) (v : Byte) : Decoder :=
  match (d.cursor a).target? a with
  | some k => { d with fb := d.fb.write k.addr v }
  | none => d

/-- WDATA without the overflow parameter: write, then increment (R171 to R173). -/
def Decoder.dataByte (d : Decoder) (a : Display) (v : Byte) : Decoder :=
  (d.storeAtCursor a v).setCursor (d.cursor a).advance a

/-- WDATA (R171). Under `COL_OVERFLOW` = refuse "a data byte arriving at column 255 has no meaning" (D3). -/
def Decoder.wdata (cfg : Settings) (d : Decoder) (a : Display) (v : Byte) : Except Refusal Decoder :=
  if cfg.colOverflow = .refuse ∧ (d.cursor a).col = 255 then .error .colOverflow else .ok (d.dataByte a v)

/-- The bytes of a data-row body in ascending index (R170). -/
def Decoder.dataBytes (cfg : Settings) (d : Decoder) (a : Display) : List Byte → Except Refusal Decoder
  | [] => .ok d
  | v :: vs =>
    match d.wdata cfg a v with
    | .ok d' => Decoder.dataBytes cfg d' a vs
    | .error r => .error r

/-- DATAROW: the body, then `DROWS <- DROWS + 1` (R170, R186). -/
def Decoder.dataRow (cfg : Settings) (d : Decoder) (a : Display) (body : List Byte) : Except Refusal Decoder :=
  match d.dataBytes cfg a body with
  | .ok d' => .ok { d' with drows := d'.drows + 1 }
  | .error r => .error r

/-- A row whose header is neither `0x00` nor `0x40`: ignored (R144), or without meaning under `BAD_HEADER` = refuse
(D6). -/
def Decoder.otherHeader (cfg : Settings) (d : Decoder) : Except Refusal Decoder :=
  match cfg.badHeader with
  | .ignore => .ok d
  | .refuse => .error .badHeader

/-- The payload of a row on the selected display: the empty test, then the header dispatch (R140). -/
def Decoder.payload (cfg : Settings) (d : Decoder) (a : Display) : List Byte → Except Refusal Decoder
  | [] => .ok d
  | h :: body =>
    if h = Config.hdrCtrl then .ok (d.ctrlRow a body)
    else if h = Config.hdrData then d.dataRow cfg a body
    else d.otherHeader cfg

/-- ROW (R140): the address test, then the payload. -/
def Decoder.row (cfg : Settings) (d : Decoder) (r : Row) : Except Refusal Decoder :=
  match selectDisplay r.addr with
  | some a => d.payload cfg a r.payload
  | none => .ok d

/-- Replaying a stream: a left fold of ROW over the list (R148). -/
def Decoder.rows (cfg : Settings) (d : Decoder) : List Row → Except Refusal Decoder
  | [] => .ok d
  | r :: rs =>
    match d.row cfg r with
    | .ok d' => Decoder.rows cfg d' rs
    | .error e => .error e

/-- The state after a row-protocol transaction that left the decoder as `d`. The strobe's condition "a DATAROW has
completed" is exactly that `DROWS` moved (R186, R188; log entry 3). -/
def State.afterRow (s : State) (d : Decoder) : State :=
  { s with dec := d, ports := { s.ports with dataRowDone := d.drows != s.dec.drows } }

/-- The outcome of a decoder operation. -/
def State.decoderOutcome (s : State) : Except Refusal Decoder → Host.Outcome State Fault Refusal
  | .ok d => .next (s.afterRow d)
  | .error r => .refused r

/-! ### The sequencer -/

/-- `ACC[k] <- (mask | m, desired | d)`, entries kept in rising order of location (R106, R28). -/
def accTouch (k : ByteKey) (m d : Byte) : List AccEntry → List AccEntry
  | [] => [⟨k, m, d⟩]
  | e :: es =>
    if k = e.key then ⟨k, e.mask ||| m, e.desired ||| d⟩ :: es
    else if k.addr < e.key.addr then ⟨k, m, d⟩ :: e :: es
    else e :: accTouch k m d es

/-- One entry of a segment accumulated (R106). A pixel off the canvas has been refused before. -/
def accPixel (acc : List AccEntry) (e : Pixel) : List AccEntry :=
  match pixelAddr? e.x e.y with
  | some q => accTouch q.key (bitMask q.bit) (bitValue e.on q.bit) acc
  | none => acc

/-- ACCUM's grouping, from the empty map, in list order (R106). -/
def accumulate (seg : List Pixel) : List AccEntry := seg.foldl accPixel []

/-- Whether the sequencer admits a segment: on the canvas (R101), coordinates pairwise distinct (R105). -/
def admitSegment (seg : List Pixel) : Except Refusal Unit :=
  if segmentOnCanvas seg then
    if segmentDistinct seg then .ok () else .error .repeatedPixel
  else .error .offCanvas

/-- A column added to an ascending set of columns (R29: "it is a set"). -/
def insertCol (c : Nat) : List Nat → List Nat
  | [] => [c]
  | d :: ds => if c < d then c :: d :: ds else if c = d then d :: ds else d :: insertCol c ds

/-- `CHG[(a,p)] <- CHG[(a,p)] ∪ {c}` (R115), entries kept in rising order of (display, page). -/
def chgAdd (k : ByteKey) : List ChgEntry → List ChgEntry
  | [] => [⟨k.disp, k.page, [k.col.val]⟩]
  | e :: es =>
    if e.disp = k.disp ∧ e.page = k.page then { e with cols := insertCol k.col.val e.cols } :: es
    else if fbAddr k.disp k.page.val 0 < fbAddr e.disp e.page.val 0 then ⟨k.disp, k.page, [k.col.val]⟩ :: e :: es
    else e :: chgAdd k es

/-- `CHG[(a,p)]`, empty when there is no entry (R115). -/
def chgCols (chg : List ChgEntry) (a : Display) (p : Fin Config.pages) : List Nat :=
  match chg.find? fun e => e.disp = a ∧ e.page = p with
  | some e => e.cols
  | none => []

/-- APPLY on one key: one FBMASKWR on `ENC.FB`; a byte that changed enters `CHG` (R116). -/
def Sequencer.applyEntry (q : Sequencer) (e : AccEntry) : Sequencer :=
  let w := q.fb.maskWrite e.key.addr e.mask e.desired
  { q with fb := w.1, chg := if byteChanged w.2.1 w.2.2 then chgAdd e.key q.chg else q.chg }

/-- APPLY: every accumulated byte (R115, R116); in rising order of location, which R117 leaves free. -/
def Sequencer.applyAll (q : Sequencer) : Sequencer := q.acc.foldl Sequencer.applyEntry q

/-- The columns in ascending order, each once (R119). -/
def sortCols (cols : List Nat) : List Nat := cols.foldr insertCol []

/-- The greedy packing of ascending columns, with the run (c0, n) open (R119). -/
def packFrom (cap : Nat) (c0 n : Nat) : List Nat → List Run
  | [] => [⟨c0, n⟩]
  | c :: cs => if c = c0 + n ∧ n < cap then packFrom cap c0 (n + 1) cs else ⟨c0, n⟩ :: packFrom cap c 1 cs

/-- PACK of ascending columns (R119). -/
def packSorted (cap : Nat) : List Nat → List Run
  | [] => []
  | c :: cs => packFrom cap c 1 cs

/-- PACK: "sort changed columns ascending, then greedily pack maximal consecutive runs" (R119). -/
def packCols (cap : Nat) (cols : List Nat) : List Run := packSorted cap (sortCols cols)

/-- The bytes of columns c0 .. c0+n−1 of one page (R122). -/
def Memory.readRun (m : Memory) (a : Display) (p c0 : Nat) : Nat → List Byte
  | 0 => []
  | n + 1 => m.read (fbAddr a p c0) :: Memory.readRun m a p (c0 + 1) n

/-- The bytes that EMIT sends for columns c0 .. c0+n−1 of one page, and the number of free values drawn after it: the
mirror's byte where the column has storage, a free value elsewhere (log entry 19). -/
def Memory.sendRun (m : Memory) (a : Display) (p : Nat) : Nat → Nat → Nat → List Byte × Nat
  | _, 0, k => ([], k)
  | c0, n + 1, k =>
    match byteAt? a p c0 with
    | some q => let r := Memory.sendRun m a p (c0 + 1) n k; (m.read q.addr :: r.1, r.2)
    | none => let r := Memory.sendRun m a p (c0 + 1) n (k + 1); (Config.freeByte k :: r.1, r.2)

/-- The control row that sets the cursor to (p, c) and the data row of some bytes, adjacent, same address (R121 to R123;
R81's expansion of RUN). -/
def runRows (a : Display) (p c : Nat) (ds : List Byte) : List Row :=
  [⟨busAddr a, ctrlRowPayload p c⟩, ⟨busAddr a, dataRowPayload ds⟩]

/-- EMIT of a run inside its page: the two rows with the mirror's bytes (R121 to R123). -/
def emitRows (m : Memory) (a : Display) (p : Nat) (r : Run) : List Row :=
  runRows a p r.first (m.readRun a p r.first r.len)

/-- The rows of one (display, page): runs in ascending column order (R124 b). -/
def Sequencer.pageRows (q : Sequencer) (cap : Nat) (ap : Display × Fin Config.pages) : List Row :=
  (packCols cap (chgCols q.chg ap.1 ap.2)).flatMap fun r => emitRows q.fb ap.1 ap.2.val r

/-- PACK and EMIT for every (display, page) with changed columns, in `PAGE_ORDER` (R115, R124 c). -/
def Sequencer.allRows (q : Sequencer) (cfg : Settings) : List Row :=
  cfg.pageOrder.flatMap fun ap => q.pageRows cfg.maxRunLen ap

/-- ACCUM and APPLY: the sequencer "After the segment is fully applied" (R115). -/
def Sequencer.applied (q : Sequencer) (seg : List Pixel) : Sequencer :=
  Sequencer.applyAll { q with acc := accumulate seg, chg := [] }

/-- SEGUPDATE on an admitted segment (R115). -/
def Sequencer.segUpdate (cfg : Settings) (q : Sequencer) (seg : List Pixel) : Sequencer :=
  let q' := q.applied seg
  { q' with out := q'.out ++ q'.allRows cfg, acc := [], chg := [] }

/-- Whether the configuration lets a segment be packed and emitted (R127, D8). -/
def Settings.ready (cfg : Settings) : Except Refusal Unit :=
  if cfg.maxRunLen = 0 then .error .maxRunLenZero
  else if pageOrderLegal cfg.pageOrder then .ok () else .error .badPageOrder

/-! ### Ports -/

/-- An answer on the host's port; nothing else changes (R90: "State written: none"). -/
def State.answer (s : State) (r : Result) : State := { s with ports := { s.ports with result := r } }

/-- An answer that no rule states: the next free value (log entry 22). -/
def State.answerFree (s : State) (f : Nat → Result) : State :=
  { s with ports := { s.ports with result := f s.ports.draws, draws := s.ports.draws + 1 } }

/-- The state in which a taken transaction runs: the rest stays presented, the last answer is gone. -/
def State.accept (s : State) (rest : List Input) : State :=
  { s with ports := { s.ports with input := rest, result := .none } }

/-- The instruction of a transaction. A step of SEGUPDATE is no transaction; a write on `DEC` is one where the configuration
lets the host write `DEC.FB` (log entry 12). -/
def fetch (cfg : Settings) : Input → Except Refusal Instr
  | .bytes f bs =>
    match decode f bs with
    | .ok i => .ok i
    | .error e => .error (.undecodable e)
  | .op i =>
    if i.isInternalStep then .error .internalStepAlone
    else if i.isDecWrite && cfg.decWrites == .decoder then .error .decIsTheDecoders
    else .ok i

/-- One transaction presented before all others. -/
def State.present (s : State) (x : Input) : State :=
  { s with ports := { s.ports with input := x :: s.ports.input } }

end Sys2Proof.Machine
end

