-- ==== Sys2Proof/Machine/ControlRow.lean ====
section
/-! DEFINITION. The meanings of the control-row commands (spec/44_control_row.md): SETCOLLO, SETCOLHI, SETPAGE and the six
ranges of CNOP. -/

namespace Sys2Proof.Machine

/-- SETCOLLO n: `CUR[a].col <- (CUR[a].col & 0xF0) | n` (R157). -/
def execSetcollo (a : Display) (n : BitVec 4) (s : State) : Host.Outcome State Fault Refusal :=
  .next (s.afterRow (s.dec.ctrlCmd a (.setcollo n)))

/-- SETCOLHI n: `CUR[a].col <- (n << 4) | (CUR[a].col & 0x0F)` (R158). -/
def execSetcolhi (a : Display) (n : BitVec 4) (s : State) : Host.Outcome State Fault Refusal :=
  .next (s.afterRow (s.dec.ctrlCmd a (.setcolhi n)))

/-- SETPAGE p: `CUR[a].page <- p` (R156). -/
def execSetpage (a : Display) (p : BitVec 3) (s : State) : Host.Outcome State Fault Refusal :=
  .next (s.afterRow (s.dec.ctrlCmd a (.setpage p)))

/-- CNOP `0x20`..`0x3F`: "No state changes; the scan goes on with the next byte" (R159). -/
def execCnop20 (a : Display) (x : BitVec 5) (s : State) : Host.Outcome State Fault Refusal :=
  .next (s.afterRow (s.dec.ctrlCmd a (.cnop20 x)))

/-- CNOP `0x40`..`0x7F` (R159). -/
def execCnop40 (a : Display) (x : BitVec 6) (s : State) : Host.Outcome State Fault Refusal :=
  .next (s.afterRow (s.dec.ctrlCmd a (.cnop40 x)))

/-- CNOP `0x80`..`0x9F` (R159). -/
def execCnop80 (a : Display) (x : BitVec 5) (s : State) : Host.Outcome State Fault Refusal :=
  .next (s.afterRow (s.dec.ctrlCmd a (.cnop80 x)))

/-- CNOP `0xA0`..`0xAF` (R159). -/
def execCnopA0 (a : Display) (x : BitVec 4) (s : State) : Host.Outcome State Fault Refusal :=
  .next (s.afterRow (s.dec.ctrlCmd a (.cnopA0 x)))

/-- CNOP `0xB8`..`0xBF`, "not SETPAGE" (R156, R159). -/
def execCnopB8 (a : Display) (x : BitVec 3) (s : State) : Host.Outcome State Fault Refusal :=
  .next (s.afterRow (s.dec.ctrlCmd a (.cnopB8 x)))

/-- CNOP `0xC0`..`0xFF` (R159). -/
def execCnopC0 (a : Display) (x : BitVec 6) (s : State) : Host.Outcome State Fault Refusal :=
  .next (s.afterRow (s.dec.ctrlCmd a (.cnopC0 x)))


end Sys2Proof.Machine
end

