-- ==== Sys2Proof/Machine/DataRow.lean ====
section
/-! DEFINITION. The meaning of the data-row command (spec/45_data_row.md): WDATA. -/

namespace Sys2Proof.Machine

/-- WDATA d: write at the cursor if the location exists, then increment the column (R171 to R173). It counts no row:
`DROWS` is DATAROW's (R186). -/
def execWdata (a : Display) (d : Byte) (s : State) : Host.Outcome State Fault Refusal :=
  s.decoderOutcome (s.dec.wdata s.cfg a d)


end Sys2Proof.Machine
end

