-- ==== Sys2Proof/Machine/Framebuffer.lean ====
section
/-! DEFINITION. The meanings of the framebuffer ports (spec/40_framebuffer_access.md): FBREAD, FBWRITE, FBMASKWR. -/

namespace Sys2Proof.Machine

/-- FBREAD: answers the byte `I.FB[a][p][c]`; "Operands outside the ranges: `refuse`" (R90). -/
def execFbread (b : FbInst) (a : Display) (p c : Nat) (s : State) : Host.Outcome State Fault Refusal :=
  match byteAt? a p c with
  | some k => .next (s.answer (.byte ((s.fb b).read k.addr)))
  | none => .refused .noSuchByte

/-- FBWRITE: `I.FB[a][p][c] <- v` (R91). -/
def execFbwrite (b : FbInst) (a : Display) (p c : Nat) (v : Byte) (s : State) : Host.Outcome State Fault Refusal :=
  match byteAt? a p c with
  | some k => .next (s.setFb ((s.fb b).write k.addr v) b)
  | none => .refused .noSuchByte

/-- FBMASKWR: `new = (old & ~mask) | (desired & mask)`; answers the pair (old, new) (R92). -/
def execFbmaskwr (b : FbInst) (a : Display) (p c : Nat) (mask desired : Byte) (s : State) :
    Host.Outcome State Fault Refusal :=
  match byteAt? a p c with
  | some k =>
    let w := (s.fb b).maskWrite k.addr mask desired
    .next ((s.setFb w.1 b).answer (.masked w.2.1 w.2.2))
  | none => .refused .noSuchByte


end Sys2Proof.Machine
end

