-- ==== Sys2Proof/Machine/PixelDecode.lean ====
section
/-! DEFINITION. The meanings of the pixel address decode (spec/41_pixel_address_decode.md): PIX2ADDR, ADDR2PIX, BITMAP, ACCUM. -/

namespace Sys2Proof.Machine

/-- PIX2ADDR: answers (a, p, i, c); a coordinate off the canvas is refused (R100, R101). -/
def execPix2addr (x y : Nat) (s : State) : Host.Outcome State Fault Refusal :=
  match pixelAddr? x y with
  | some q => .next (s.answer (.address q.key.disp q.key.page.val q.bit q.key.col.val))
  | none => .refused .offCanvas

/-- ADDR2PIX: answers (x, y), the inverse of PIX2ADDR on the framebuffer's bits (R102). Outside R102's ranges no rule states
the pixel: it is a free value (log entry 18). -/
def execAddr2pix (a : Display) (p i c : Nat) (s : State) : Host.Outcome State Fault Refusal :=
  if inFramebuffer p c = true ∧ i < 8 then
    .next (s.answer (.pixel (addrPixel a p i c).1 (addrPixel a p i c).2))
  else .next (s.answerFree fun k => .pixel (Config.freePixel k).1 (Config.freePixel k).2)

/-- BITMAP: answers the 132×128 picture of an instance (R104). -/
def execBitmap (b : FbInst) (s : State) : Host.Outcome State Fault Refusal :=
  .next (s.answer (.picture (s.fb b).bitmap))

/-- ACCUM: `ACC` becomes the segment's grouping; "no framebuffer byte is read or written" (R106). -/
def execAccum (seg : List Pixel) (s : State) : Host.Outcome State Fault Refusal :=
  match admitSegment seg with
  | .ok () => .next { s with enc := { s.enc with acc := accumulate seg } }
  | .error r => .refused r


end Sys2Proof.Machine
end

