-- ==== Sys2Proof/Machine/Pseudo.lean ====
section
/-! DEFINITION. The meanings of the emitted templates and the pseudo-instruction (spec/30_encoding.md R72, R73, R81): SETCURSOR,
WRITE, RUN, each its fixed expansion into rows. -/

namespace Sys2Proof.Machine

/-- SETCURSOR a, p, c: the row `a: 00 (B0|p) (c & 0F) (10 | (c>>4))` (R81), with c = `hhhhllll`. -/
def execSetcursor (a : Display) (p : BitVec 3) (l h : BitVec 4) (s : State) : Host.Outcome State Fault Refusal :=
  s.decoderOutcome (s.dec.row s.cfg ⟨busAddr a, setcursorPayload p l h⟩)

/-- WRITE a, [d0..dn-1]: the row `a: 40 d0 .. dn-1` (R81). -/
def execWrite (a : Display) (ds : List Byte) (s : State) : Host.Outcome State Fault Refusal :=
  s.decoderOutcome (s.dec.row s.cfg ⟨busAddr a, dataRowPayload ds⟩)

/-- RUN a, p, c, [d0..dn-1]: SETCURSOR then WRITE, "a fixed expansion into rows" (R81). Outside R81's condition on n and
c the rows are the same and do what they do (log entry 13). -/
def execRun (a : Display) (p : BitVec 3) (c : BitVec 8) (ds : List Byte) (s : State) :
    Host.Outcome State Fault Refusal :=
  s.decoderOutcome (s.dec.rows s.cfg (runRows a p.toNat c.toNat ds))


end Sys2Proof.Machine
end

