-- ==== Sys2Proof/Machine/RowDispatch.lean ====
section
/-! DEFINITION. The meanings of the row address and row header classes and of the decoder's row operations
(spec/43_row_dispatch.md): ADDR.*, CTRL, DATA, HDR.OTHER, EMPTY, ROW, CTRLROW, DATAROW. -/

namespace Sys2Proof.Machine

/-- ADDR.TOP: the row's payload on display TOP (R140, R141). -/
def execAddrTop (payload : List Byte) (s : State) : Host.Outcome State Fault Refusal :=
  s.decoderOutcome (s.dec.payload s.cfg .top payload)

/-- ADDR.BOTTOM: the row's payload on display BOTTOM (R140, R141). -/
def execAddrBottom (payload : List Byte) (s : State) : Host.Outcome State Fault Refusal :=
  s.decoderOutcome (s.dec.payload s.cfg .bottom payload)

/-- ADDR.OTHER: "The row changes no state at all"; "its payload is not examined" (R142). The test is ROW's own. -/
def execAddrOther (addr : Byte) (payload : List Byte) (s : State) : Host.Outcome State Fault Refusal :=
  s.decoderOutcome (s.dec.row s.cfg ⟨addr, payload⟩)

/-- CTRL: a control row; its body is scanned byte by byte (R140, R155). -/
def execCtrl (a : Display) (body : List Byte) (s : State) : Host.Outcome State Fault Refusal :=
  .next (s.afterRow (s.dec.ctrlRow a body))

/-- DATA: a data row; its body is written byte by byte and the row is counted (R140, R170). -/
def execData (a : Display) (body : List Byte) (s : State) : Host.Outcome State Fault Refusal :=
  s.decoderOutcome (s.dec.dataRow s.cfg a body)

/-- HDR.OTHER: the whole row is ignored (R144); without meaning under `BAD_HEADER` = refuse. The test is the header
dispatch's own. -/
def execHdrOther (a : Display) (header : Byte) (body : List Byte) (s : State) : Host.Outcome State Fault Refusal :=
  s.decoderOutcome (s.dec.payload s.cfg a (header :: body))

/-- EMPTY: a row with no payload "changes no state" (R143). -/
def execEmpty (a : Display) (s : State) : Host.Outcome State Fault Refusal :=
  s.decoderOutcome (s.dec.payload s.cfg a [])

/-- ROW: process one row (R140). -/
def execRow (addr : Byte) (payload : List Byte) (s : State) : Host.Outcome State Fault Refusal :=
  s.decoderOutcome (s.dec.row s.cfg ⟨addr, payload⟩)

/-- CTRLROW: the body of a control row (R155). -/
def execCtrlrow (a : Display) (body : List Byte) (s : State) : Host.Outcome State Fault Refusal :=
  .next (s.afterRow (s.dec.ctrlRow a body))

/-- DATAROW: the body of a data row, then `DROWS` (R170). -/
def execDatarow (a : Display) (body : List Byte) (s : State) : Host.Outcome State Fault Refusal :=
  s.decoderOutcome (s.dec.dataRow s.cfg a body)


end Sys2Proof.Machine
end

