-- ==== Sys2Proof/Machine/SampleReset.lean ====
section
/-! DEFINITION. The meanings of the sample port (spec/46_sample_port.md) and of reset (spec/70_reset_and_hazards.md): SAMPLE, RESET. -/

namespace Sys2Proof.Machine

/-- SAMPLE: answers the strobe, up after a completed data row exactly when `DROWS mod FRAME_STRIDE == 0` (R188); "The
sample port observes and never acts" (R190; log entry 16). -/
def execSample (s : State) : Host.Outcome State Fault Refusal :=
  .next (s.answer (.strobe s.sampleStrobe))

/-- RESET: every piece of state of both agents at its initial value; "The configuration inputs `MAX_RUN_LEN` and
`FRAME_STRIDE` are not touched" (R215). What the host has presented after it stays presented (log entry 17). -/
def execReset (s : State) : Host.Outcome State Fault Refusal :=
  .next { s with dec := Decoder.reset, enc := Sequencer.reset, ports := { Ports.idle with input := s.ports.input, draws := s.ports.draws } }


end Sys2Proof.Machine
end

