-- ==== Sys2Proof/Machine/UpdateSequencer.lean ====
section
/-! DEFINITION. The meanings of the byte-update sequencer (spec/42_update_sequencer.md): SEGUPDATE and its steps APPLY, PACK, EMIT. -/

namespace Sys2Proof.Machine

/-- SEGUPDATE: ACCUM, then APPLY to every accumulated byte, then PACK and EMIT; `ACC` and `CHG` end empty (R115). A
segment outside the admitted shape, or `MAX_RUN_LEN` = 0, is refused whole (R101, R105, R127). -/
def execSegupdate (seg : List Pixel) (s : State) : Host.Outcome State Fault Refusal :=
  match admitSegment seg with
  | .ok () =>
    match s.cfg.ready with
    | .ok () => .next { s with enc := s.enc.segUpdate s.cfg seg }
    | .error r => .refused r
  | .error r => .refused r

/-- APPLY: one FBMASKWR for each key of `ACC`; changed bytes enter `CHG` (R116). -/
def execApply (s : State) : Host.Outcome State Fault Refusal :=
  .next { s with enc := s.enc.applyAll }

/-- PACK: answers the runs of a set of columns under `MAX_RUN_LEN` (R119); "the value 0 is `refuse`" (R127). For a set
with a column above 131 no rule states the runs: they are a free value (log entry 18). -/
def execPack (cols : List Nat) (s : State) : Host.Outcome State Fault Refusal :=
  if s.cfg.maxRunLen = 0 then .refused .maxRunLenZero
  else if (cols.all fun c => c < Config.columns) = true then .next (s.answer (.runs (packCols s.cfg.maxRunLen cols)))
  else .next (s.answerFree fun k => .runs ((Config.freeRuns k).map fun r => ⟨r.1, r.2⟩))

/-- EMIT: appends the control row and the data row of the run (c0, n) of (a, p) to `OUT` (R121, R122). A byte of a column
that does not exist is a free value (log entry 19). -/
def execEmit (a : Display) (p : BitVec 3) (c0 : BitVec 8) (n : Nat) (s : State) : Host.Outcome State Fault Refusal :=
  let w := s.enc.fb.sendRun a p.toNat c0.toNat n s.ports.draws
  .next { s with
    enc := { s.enc with out := s.enc.out ++ runRows a p.toNat c0.toNat w.1 }
    ports := { s.ports with draws := w.2 } }


end Sys2Proof.Machine
end

