-- ==== Sys2Proof/Machine/Dispatch.lean ====
section
/-! DEFINITION. One arm for every constructor of Instr: the instruction's meaning. -/

namespace Sys2Proof.Machine

def exec (i : Instr) (s : State) : Host.Outcome State Fault Refusal :=
  match i with
  -- spec/43_row_dispatch.md
  | .addrTop payload => Sys2Proof.Machine.execAddrTop payload s
  | .addrBottom payload => Sys2Proof.Machine.execAddrBottom payload s
  | .addrOther addr payload => Sys2Proof.Machine.execAddrOther addr payload s
  | .ctrl a body => Sys2Proof.Machine.execCtrl a body s
  | .data a body => Sys2Proof.Machine.execData a body s
  | .hdrOther a header body => Sys2Proof.Machine.execHdrOther a header body s
  | .empty a => Sys2Proof.Machine.execEmpty a s
  -- spec/44_control_row.md
  | .setcollo a n => Sys2Proof.Machine.execSetcollo a n s
  | .setcolhi a n => Sys2Proof.Machine.execSetcolhi a n s
  | .cnop20 a x => Sys2Proof.Machine.execCnop20 a x s
  | .cnop40 a x => Sys2Proof.Machine.execCnop40 a x s
  | .cnop80 a x => Sys2Proof.Machine.execCnop80 a x s
  | .cnopA0 a x => Sys2Proof.Machine.execCnopA0 a x s
  | .setpage a p => Sys2Proof.Machine.execSetpage a p s
  | .cnopB8 a x => Sys2Proof.Machine.execCnopB8 a x s
  | .cnopC0 a x => Sys2Proof.Machine.execCnopC0 a x s
  -- spec/45_data_row.md
  | .wdata a d => Sys2Proof.Machine.execWdata a d s
  -- spec/30_encoding.md R72, R73, R81
  | .setcursor a p l h => Sys2Proof.Machine.execSetcursor a p l h s
  | .write a ds => Sys2Proof.Machine.execWrite a ds s
  | .run a p c ds => Sys2Proof.Machine.execRun a p c ds s
  -- spec/43_row_dispatch.md, spec/44_control_row.md, spec/45_data_row.md
  | .row addr payload => Sys2Proof.Machine.execRow addr payload s
  | .ctrlrow a body => Sys2Proof.Machine.execCtrlrow a body s
  | .datarow a body => Sys2Proof.Machine.execDatarow a body s
  -- spec/40_framebuffer_access.md
  | .fbread b a p c => Sys2Proof.Machine.execFbread b a p c s
  | .fbwrite b a p c v => Sys2Proof.Machine.execFbwrite b a p c v s
  | .fbmaskwr b a p c mask desired => Sys2Proof.Machine.execFbmaskwr b a p c mask desired s
  -- spec/41_pixel_address_decode.md
  | .pix2addr x y => Sys2Proof.Machine.execPix2addr x y s
  | .addr2pix a p j c => Sys2Proof.Machine.execAddr2pix a p j c s
  | .bitmap b => Sys2Proof.Machine.execBitmap b s
  | .accum seg => Sys2Proof.Machine.execAccum seg s
  -- spec/42_update_sequencer.md
  | .segupdate seg => Sys2Proof.Machine.execSegupdate seg s
  | .apply => Sys2Proof.Machine.execApply s
  | .pack cols => Sys2Proof.Machine.execPack cols s
  | .emit a p c0 n => Sys2Proof.Machine.execEmit a p c0 n s
  -- spec/46_sample_port.md, spec/70_reset_and_hazards.md
  | .sample => Sys2Proof.Machine.execSample s
  | .reset => Sys2Proof.Machine.execReset s

end Sys2Proof.Machine
end

