-- ==== Sys2Proof/Machine/Step.lean ====
section
/-! DEFINITION. One step of the machine: take the oldest transaction the host has presented and run it to completion
(spec/70_reset_and_hazards.md R231: "one ROW, one SEGUPDATE and one host read are each one atomic step"). -/

namespace Sys2Proof.Machine

/-- One step. With nothing presented the machine waits: "neither does anything by itself" (R217). -/
def step (s : State) : Host.Outcome State Fault Refusal :=
  match s.ports.input with
  | [] => .next s
  | x :: rest =>
    match fetch s.cfg x with
    | .ok i => exec i (s.accept rest)
    | .error r => .refused r

/-- The state with a word of the opcode table presented as the next transaction (log entries 1, 4, 5). -/
def State.withFetchWord (s : State) (nbits w : Nat) : State := s.present (tableInput nbits w)

end Sys2Proof.Machine
end

