-- ==== Sys2Proof/Safety.lean ====
section
/-! DEFINITION. What holds in every state between operations (spec/10_state.md R35), as one named predicate, and the
conditions on the host's configuration under which the sequencer runs. -/

namespace Sys2Proof.Machine

/-- One emitted pair: "a control row of exactly 4 bytes immediately followed by a data row of 2 to `MAX_RUN_LEN`+1
bytes with the same address", the address `0x3C` or `0x3D` (R35 e). -/
def emittedPair (cap : Nat) (r1 r2 : Row) : Bool :=
  selectsDisplay r1.addr && r2.addr == r1.addr && r1.payload.length == 4 && r1.payload.head? == some Config.hdrCtrl &&
    r2.payload.head? == some Config.hdrData && 2 ≤ r2.payload.length && r2.payload.length ≤ cap + 1

/-- `OUT` consists of emitted pairs (R35 e). -/
def outInPairs (cap : Nat) : List Row → Bool
  | [] => true
  | [_] => false
  | r1 :: r2 :: rs => emittedPair cap r1 r2 && outInPairs cap rs

/-- The decoder's part of the invariant: its framebuffer is canonical; the cursors' ranges (R35 b, c) are their
types. -/
def Decoder.Inv (d : Decoder) : Prop := d.fb.wf = true

/-- The sequencer's part: its framebuffer is canonical, `ACC` and `CHG` are empty between operations (R35 d), `OUT` is
in pairs (R35 e). -/
structure Sequencer.Inv (cap : Nat) (q : Sequencer) : Prop where
  fb_wf : q.fb.wf = true
  acc_empty : q.acc = []
  chg_empty : q.chg = []
  out_pairs : outInPairs cap q.out = true

/-- R35, for the whole machine, between operations. -/
structure State.Inv (s : State) : Prop where
  dec_inv : s.dec.Inv
  enc_inv : s.enc.Inv s.cfg.maxRunLen

/-- The configuration is one the sequencer runs under: `MAX_RUN_LEN` ≥ 1 (R127), `PAGE_ORDER` an order (D8). -/
def Settings.legal (cfg : Settings) : Bool := 1 ≤ cfg.maxRunLen && pageOrderLegal cfg.pageOrder

/-- The sequencer admits the segment (R101, R105). -/
def segmentAdmitted (seg : List Pixel) : Bool := segmentOnCanvas seg && segmentDistinct seg

/-- The sequencer after a list of segments, each applied whole (R124 a). -/
def Sequencer.segUpdates (cfg : Settings) (q : Sequencer) (segs : List (List Pixel)) : Sequencer :=
  segs.foldl (Sequencer.segUpdate cfg) q

/-- A run of one page of one display. -/
structure PageRun where
  disp : Display
  page : Fin Config.pages
  run : Run
  deriving DecidableEq, Repr

/-- The run lies in its page and is not empty (R119, R120 e). -/
def PageRun.inPage (x : PageRun) : Prop := 1 ≤ x.run.len ∧ x.run.first + x.run.len ≤ 132

/-- The run covers a location. -/
def PageRun.covers (x : PageRun) (n : Nat) : Prop :=
  ∃ i, i < x.run.len ∧ n = fbAddr x.disp x.page.val (x.run.first + i)

end Sys2Proof.Machine
end

