-- ==== Sys2Proof/Certificates/Slice0/Obligations.lean ====
section
/-! DEFINITION. The statements for the provers. Each formalises rules of spec/; its docstring names them. Where a clause
is the spec's own marked decision or the model's choice, the docstring says so and names the log entry. -/

namespace Sys2Proof.Claims

open Sys2Proof Sys2Proof.Machine

/-- The byte (a, p, c) of an instance. -/
def byteOf (m : Memory) (a : Display) (p c : Nat) : Byte := m.read (fbAddr a p c)

/-- Every byte of an instance reads as before. -/
def SameBytes (m m' : Memory) : Prop := ∀ a p c, p < 8 → c < 132 → byteOf m' a p c = byteOf m a p c

/-- Every byte but (a, p, c) reads as before. -/
def SameBytesBut (m m' : Memory) (a : Display) (p c : Nat) : Prop :=
  ∀ a' p' c', p' < 8 → c' < 132 → (a', p', c') ≠ (a, p, c) → byteOf m' a' p' c' = byteOf m a' p' c'

/-- Nothing outside the decoder changed, but for the port's note that a data row completed. -/
def OnlyDecoder (s t : State) : Prop :=
  t.enc = s.enc ∧ t.cfg = s.cfg ∧ t.ports.input = s.ports.input ∧ t.ports.result = s.ports.result ∧
    t.ports.draws = s.ports.draws

/-- Nothing but the cursor of display `a` changed. -/
def OnlyCursor (a : Display) (s t : State) : Prop :=
  OnlyDecoder s t ∧ t.dec.fb = s.dec.fb ∧ t.dec.drows = s.dec.drows ∧ ∀ b, b ≠ a → t.dec.cursor b = s.dec.cursor b

/-- Neither agent's state, nor the configuration, nor what is presented changed: only the answer on the port. -/
def OnlyAnswer (s t : State) : Prop :=
  t.dec = s.dec ∧ t.enc = s.enc ∧ t.cfg = s.cfg ∧ t.ports.input = s.ports.input ∧
    t.ports.dataRowDone = s.ports.dataRowDone ∧ t.ports.draws = s.ports.draws

/-- As `OnlyAnswer`, and a free value has been drawn (log entry 22). -/
def OnlyFreeAnswer (s t : State) : Prop :=
  t.dec = s.dec ∧ t.enc = s.enc ∧ t.cfg = s.cfg ∧ t.ports.input = s.ports.input ∧
    t.ports.dataRowDone = s.ports.dataRowDone

/-- Nothing outside the sequencer changed. -/
def OnlySequencer (s t : State) : Prop := t.dec = s.dec ∧ t.cfg = s.cfg ∧ t.ports = s.ports

/-- The commands and rows of the row protocol. -/
def isRowProtocol : Instr → Bool
  | .addrTop _ => true
  | .addrBottom _ => true
  | .addrOther _ _ => true
  | .ctrl _ _ => true
  | .data _ _ => true
  | .hdrOther _ _ _ => true
  | .empty _ => true
  | .setcollo _ _ => true
  | .setcolhi _ _ => true
  | .cnop20 _ _ => true
  | .cnop40 _ _ => true
  | .cnop80 _ _ => true
  | .cnopA0 _ _ => true
  | .setpage _ _ => true
  | .cnopB8 _ _ => true
  | .cnopC0 _ _ => true
  | .wdata _ _ => true
  | .setcursor _ _ _ _ => true
  | .write _ _ => true
  | .run _ _ _ _ => true
  | .row _ _ => true
  | .ctrlrow _ _ => true
  | .datarow _ _ => true
  | .fbread _ _ _ _ => false
  | .fbwrite _ _ _ _ _ => false
  | .fbmaskwr _ _ _ _ _ _ => false
  | .pix2addr _ _ => false
  | .addr2pix _ _ _ _ => false
  | .bitmap _ => false
  | .accum _ => false
  | .segupdate _ => false
  | .apply => false
  | .pack _ => false
  | .emit _ _ _ _ => false
  | .sample => false
  | .reset => false

/-- The row-protocol instructions that complete a DATAROW: a row whose address selects a display and whose header is
`0x40`, or the data row itself under another name. A data byte by itself completes none. -/
def completesDataRow : Instr → Bool
  | .addrTop payload => payload.head? == some 0x40
  | .addrBottom payload => payload.head? == some 0x40
  | .addrOther addr payload => (addr == 0x3C || addr == 0x3D) && payload.head? == some 0x40
  | .data _ _ => true
  | .hdrOther _ h _ => h == 0x40
  | .write _ _ => true
  | .run _ _ _ _ => true
  | .row addr payload => (addr == 0x3C || addr == 0x3D) && payload.head? == some 0x40
  | .datarow _ _ => true
  | .ctrl _ _ => false
  | .empty _ => false
  | .setcollo _ _ => false
  | .setcolhi _ _ => false
  | .cnop20 _ _ => false
  | .cnop40 _ _ => false
  | .cnop80 _ _ => false
  | .cnopA0 _ _ => false
  | .setpage _ _ => false
  | .cnopB8 _ _ => false
  | .cnopC0 _ _ => false
  | .wdata _ _ => false
  | .setcursor _ _ _ _ => false
  | .ctrlrow _ _ => false
  | .fbread _ _ _ _ => false
  | .fbwrite _ _ _ _ _ => false
  | .fbmaskwr _ _ _ _ _ _ => false
  | .pix2addr _ _ => false
  | .addr2pix _ _ _ _ => false
  | .bitmap _ => false
  | .accum _ => false
  | .segupdate _ => false
  | .apply => false
  | .pack _ => false
  | .emit _ _ _ _ => false
  | .sample => false
  | .reset => false

/-- The operations of the sequencer. -/
def isSequencerOp : Instr → Bool
  | .accum _ => true
  | .segupdate _ => true
  | .apply => true
  | .emit _ _ _ _ => true
  | .addrTop _ => false
  | .addrBottom _ => false
  | .addrOther _ _ => false
  | .ctrl _ _ => false
  | .data _ _ => false
  | .hdrOther _ _ _ => false
  | .empty _ => false
  | .setcollo _ _ => false
  | .setcolhi _ _ => false
  | .cnop20 _ _ => false
  | .cnop40 _ _ => false
  | .cnop80 _ _ => false
  | .cnopA0 _ _ => false
  | .setpage _ _ => false
  | .cnopB8 _ _ => false
  | .cnopC0 _ _ => false
  | .wdata _ _ => false
  | .setcursor _ _ _ _ => false
  | .write _ _ => false
  | .run _ _ _ _ => false
  | .row _ _ => false
  | .ctrlrow _ _ => false
  | .datarow _ _ => false
  | .fbread _ _ _ _ => false
  | .fbwrite _ _ _ _ _ => false
  | .fbmaskwr _ _ _ _ _ _ => false
  | .pix2addr _ _ => false
  | .addr2pix _ _ _ _ => false
  | .bitmap _ => false
  | .pack _ => false
  | .sample => false
  | .reset => false

/-- What a data-row body leaves, said byte by byte (R170 to R173): the column is one per byte further modulo 256, the
page stays; data byte `i` was aimed at column (c + i) mod 256 and stands there if that is at most 131, unless a byte of
the same body 256 places later was aimed there too; a byte nothing was aimed at reads as before. -/
def DataBodyEffect (a : Display) (body : List Byte) (d d' : Decoder) : Prop :=
  (d'.cursor a).page = (d.cursor a).page ∧
  (d'.cursor a).col.toNat = ((d.cursor a).col.toNat + body.length) % 256 ∧
  (∀ b, b ≠ a → d'.cursor b = d.cursor b) ∧
  (∀ i (h : i < body.length), body.length ≤ i + 256 → ((d.cursor a).col.toNat + i) % 256 ≤ 131 →
    byteOf d'.fb a (d.cursor a).page.toNat (((d.cursor a).col.toNat + i) % 256) = body[i]) ∧
  (∀ b p c, p < 8 → c < 132 →
    (∀ i, i < body.length → (b, p, c) ≠ (a, (d.cursor a).page.toNat, ((d.cursor a).col.toNat + i) % 256)) →
    byteOf d'.fb b p c = byteOf d.fb b p c)

/-- The last byte of a body in a range, if any. -/
def lastIn (lo hi : Nat) (body : List Byte) : Option Byte :=
  (body.filter fun b => lo ≤ b.toNat && b.toNat ≤ hi).getLast?

/-- Two decoders agree on one display: its cursor and its bytes. -/
def AgreeOn (a : Display) (d d' : Decoder) : Prop :=
  d'.cursor a = d.cursor a ∧ ∀ p c, p < 8 → c < 132 → byteOf d'.fb a p c = byteOf d.fb a p c

end Sys2Proof.Claims

open Sys2Proof Sys2Proof.Machine Sys2Proof.Claims

/-! ### Reset, the step, decoding -/

/-- R25, and the values of 10_state.md section 10: the state after reset. -/
def Obligations.ResetStateIsAllZero : Prop :=
  (∀ a, (State.reset.dec.cursor a).page = 0 ∧ (State.reset.dec.cursor a).col = 0) ∧
  (∀ b a p c, p < 8 → c < 132 → byteOf (State.reset.fb b) a p c = 0x00) ∧
  State.reset.dec.drows = 0 ∧ State.reset.enc.acc = [] ∧ State.reset.enc.chg = [] ∧ State.reset.enc.out = [] ∧
  State.reset.cfg.maxRunLen = 32 ∧ State.reset.cfg.frameStride = 8

/-- RESET (R215, the spec's decision D12): every piece of state of both agents is restored, the configuration is not
touched. That presented transactions stay and the port's answer is dropped is the model's choice (log entry 17). -/
def Obligations.ResetRestoresBothAgents : Prop :=
  ∀ s, ∃ t, exec .reset s = .next t ∧
    (∀ a, (t.dec.cursor a).page = 0 ∧ (t.dec.cursor a).col = 0) ∧
    (∀ b a p c, p < 8 → c < 132 → byteOf (t.fb b) a p c = 0x00) ∧
    t.dec.drows = 0 ∧ t.enc.acc = [] ∧ t.enc.chg = [] ∧ t.enc.out = [] ∧
    t.cfg = s.cfg ∧ t.ports.input = s.ports.input ∧ t.ports.result = .none ∧ t.sampleStrobe = false

/-- A step takes the oldest presented transaction and runs the instruction it is (R231; the list of transactions, and bytes
that are no instruction at their position being refused, are the model's choice, log entries 1 and 4), in the state from which
that transaction is taken and the last answer cleared (`State.accept`; the model's choice, log entry 2); a write on `DEC` where
the configuration lets the host make it (log entry 12). With nothing presented a step changes nothing (R217). -/
def Obligations.StepRunsPresentedInstruction : Prop :=
  (∀ s f bs rest i, s.ports.input = .bytes f bs :: rest → decode f bs = .ok i →
    step s = exec i (s.accept rest)) ∧
  (∀ s f bs rest e, s.ports.input = .bytes f bs :: rest → decode f bs = .error e →
    step s = .refused (.undecodable e)) ∧
  (∀ s i rest, s.ports.input = .op i :: rest → i.isInternalStep = false →
    (i.isDecWrite = true → s.cfg.decWrites = .host) → step s = exec i (s.accept rest)) ∧
  (∀ s, s.ports.input = [] → step s = .next s)

/-- Decoding the encoding of any well-formed instruction gives it back, every operand at every value (R60 to R73). -/
def Obligations.DecodeOfEncodeIsTheInstruction : Prop :=
  ∀ i f bs, i.wf = true → encode i = some (f, bs) → decode f bs = .ok i

/-- What the decoder reads is well-formed and encodes to exactly the bytes read: no byte has two meanings at one
position (R60 to R73). -/
def Obligations.EncodeOfDecodeIsTheBytes : Prop :=
  ∀ f bs i, decode f bs = .ok i → i.wf = true ∧ encode i = some (f, bs)

/-- A few rows of the protocol written out from R62 to R73, read by the decoder. -/
def Obligations.WrittenOutBytesDecode : Prop :=
  decode .rowAddress [0x3C, 0x00, 0xB0, 0x05, 0x10] = .ok (.addrTop [0x00, 0xB0, 0x05, 0x10]) ∧
  decode .rowAddress [0x3D, 0x40, 0xA5] = .ok (.addrBottom [0x40, 0xA5]) ∧
  decode .rowAddress [0x78, 0x40, 0xFF] = .ok (.addrOther 0x78 [0x40, 0xFF]) ∧
  decode (.rowHeader .top) [0x00, 0xB3] = .ok (.ctrl .top [0xB3]) ∧
  decode (.rowHeader .top) [0x40, 0x01] = .ok (.data .top [0x01]) ∧
  decode (.rowHeader .bottom) [0x80, 0xB1] = .ok (.hdrOther .bottom 0x80 [0xB1]) ∧
  decode (.ctrlBody .top) [0b10110101] = .ok (.setpage .top 5) ∧
  decode (.ctrlBody .top) [0b00001010] = .ok (.setcollo .top 10) ∧
  decode (.ctrlBody .top) [0b00011000] = .ok (.setcolhi .top 8) ∧
  decode (.ctrlBody .top) [0b10111000] = .ok (.cnopB8 .top 0) ∧
  decode (.dataBody .bottom) [0x40] = .ok (.wdata .bottom 0x40) ∧
  decode (.emittedCtrlRow .top) [0x00, 0xB2, 0x02, 0x13] = .ok (.setcursor .top 2 2 3) ∧
  decode (.emittedDataRow .top) [0x40, 0x80, 0x80] = .ok (.write .top [0x80, 0x80])

/-! ### Control-row commands -/

/-- R65 and R155: every byte of a control-row body is one command, chosen by its own value, and acts as its range
says; that the other nibble is kept is decision D5. -/
def Obligations.ControlByteActsByItsRange : Prop :=
  ∀ (a : Display) (b : Byte) (s : State), ∃ i t, decode (.ctrlBody a) [b] = .ok i ∧ exec i s = .next t ∧
    OnlyCursor a s t ∧
    (0xB0 ≤ b.toNat ∧ b.toNat ≤ 0xB7 →
      (t.dec.cursor a).page.toNat = b.toNat % 16 ∧ (t.dec.cursor a).col = (s.dec.cursor a).col) ∧
    (b.toNat ≤ 0x0F →
      (t.dec.cursor a).page = (s.dec.cursor a).page ∧
      (t.dec.cursor a).col.toNat = (s.dec.cursor a).col.toNat / 16 * 16 + b.toNat) ∧
    (0x10 ≤ b.toNat ∧ b.toNat ≤ 0x1F →
      (t.dec.cursor a).page = (s.dec.cursor a).page ∧
      (t.dec.cursor a).col.toNat = (b.toNat % 16) * 16 + (s.dec.cursor a).col.toNat % 16) ∧
    ((0x20 ≤ b.toNat ∧ b.toNat ≤ 0xAF) ∨ 0xB8 ≤ b.toNat → t.dec = s.dec)

/-- SETPAGE p (R156): it is the byte `0xB0`+p, `CUR[a].page <- p`, and nothing else changes; `0xB8`..`0xBF` are CNOP. -/
def Obligations.SetpageLoadsThePage : Prop :=
  ∀ (a : Display) (p : BitVec 3) (s : State),
    decode (.ctrlBody a) [BitVec.ofNat 8 (0xB0 + p.toNat)] = .ok (.setpage a p) ∧
    decode (.ctrlBody a) [BitVec.ofNat 8 (0xB8 + p.toNat)] = .ok (.cnopB8 a p) ∧
    ∃ t, exec (.setpage a p) s = .next t ∧ OnlyCursor a s t ∧
      (t.dec.cursor a).page = p ∧ (t.dec.cursor a).col = (s.dec.cursor a).col

/-- SETCOLLO n and SETCOLHI n (R157, R158; that the other nibble is kept is decision D5): one nibble of the column is
loaded, and nothing else changes. -/
def Obligations.ColumnNibbleLoads : Prop :=
  ∀ (a : Display) (n : BitVec 4) (s : State),
    (∃ t, exec (.setcollo a n) s = .next t ∧ OnlyCursor a s t ∧
      (t.dec.cursor a).page = (s.dec.cursor a).page ∧
      (t.dec.cursor a).col = ((s.dec.cursor a).col &&& 0xF0) ||| n.setWidth 8) ∧
    (∃ t, exec (.setcolhi a n) s = .next t ∧ OnlyCursor a s t ∧
      (t.dec.cursor a).page = (s.dec.cursor a).page ∧
      (t.dec.cursor a).col = (n.setWidth 8 <<< 4) ||| ((s.dec.cursor a).col &&& 0x0F))

/-- CNOP (R159): the bytes `0x20`..`0xAF` and `0xB8`..`0xFF` are the six CNOP forms, and "No state changes; the scan goes
on with the next byte". -/
def Obligations.CnopChangesNothing : Prop :=
  ∀ (a : Display) (x : BitVec 5) (y : BitVec 6) (z : BitVec 4) (w : BitVec 3) (s : State),
    (∀ i ∈ [Instr.cnop20 a x, Instr.cnop40 a y, Instr.cnop80 a x, Instr.cnopA0 a z, Instr.cnopB8 a w,
        Instr.cnopC0 a y],
      ∃ t, exec i s = .next t ∧ t.dec = s.dec ∧ OnlyDecoder s t) ∧
    ∀ b : Byte, (0x20 ≤ b.toNat ∧ b.toNat ≤ 0xAF) ∨ 0xB8 ≤ b.toNat →
      (∃ x y x' z w y', decode (.ctrlBody a) [b] = .ok (.cnop20 a x) ∨ decode (.ctrlBody a) [b] = .ok (.cnop40 a y) ∨
        decode (.ctrlBody a) [b] = .ok (.cnop80 a x') ∨ decode (.ctrlBody a) [b] = .ok (.cnopA0 a z) ∨
        decode (.ctrlBody a) [b] = .ok (.cnopB8 a w) ∨ decode (.ctrlBody a) [b] = .ok (.cnopC0 a y')) ∧
      ∀ before after, exec (.ctrl a (before ++ b :: after)) s = exec (.ctrl a (before ++ after)) s

/-- A control row (CTRL, CTRLROW; R155, R161): of each kind of load the last one of the body stands, a part that the body
does not load stays, and nothing but the display's cursor changes (the kept nibble is decision D5). -/
def Obligations.ControlRowKeepsTheLastLoads : Prop :=
  ∀ (a : Display) (body : List Byte) (s : State),
    ∀ i ∈ [Instr.ctrl a body, Instr.ctrlrow a body], ∃ t, exec i s = .next t ∧ OnlyCursor a s t ∧
      (t.dec.cursor a).page.toNat =
        (match lastIn 0xB0 0xB7 body with
          | some b => b.toNat % 16
          | none => (s.dec.cursor a).page.toNat) ∧
      (t.dec.cursor a).col.toNat % 16 =
        (match lastIn 0x00 0x0F body with
          | some b => b.toNat % 16
          | none => (s.dec.cursor a).col.toNat % 16) ∧
      (t.dec.cursor a).col.toNat / 16 =
        (match lastIn 0x10 0x1F body with
          | some b => b.toNat % 16
          | none => (s.dec.cursor a).col.toNat / 16)

/-- SETCURSOR (R81, R68): the four-byte control row sets the cursor to exactly (p, hhhhllll) whatever it held, and nothing
else changes; the columns 132..255 among these are log entry 15. The control row of R72 and R121 for column c ∈ [0,131],
sent as a row, sets it to (p, c) (R74). -/
def Obligations.SetcursorSetsTheWholeCursor : Prop :=
  (∀ (a : Display) (p : BitVec 3) (l h : BitVec 4) (s : State),
    ∃ t, exec (.setcursor a p l h) s = .next t ∧ OnlyCursor a s t ∧
      (t.dec.cursor a).page = p ∧ (t.dec.cursor a).col.toNat = h.toNat * 16 + l.toNat) ∧
  (∀ (a : Display) (p c : Nat) (s : State), p < 8 → c < 132 →
    ∃ t, exec (.row (busAddr a) [0x00, BitVec.ofNat 8 (0xB0 + p), BitVec.ofNat 8 (c % 16),
        BitVec.ofNat 8 (0x10 + c / 16)]) s = .next t ∧ OnlyCursor a s t ∧
      (t.dec.cursor a).page.toNat = p ∧ (t.dec.cursor a).col.toNat = c)

/-! ### Data rows -/

/-- WDATA d (R171, R172; the wrap at 255 is decision D3): the byte is written at the cursor when the column is at most
131 and dropped otherwise; the column goes up by one either way; nothing else changes. -/
def Obligations.WdataWritesThenAdvances : Prop :=
  ∀ (a : Display) (v : Byte) (s : State), s.dec.fb.wf = true →
    s.cfg.colOverflow = .wrap256 ∨ (s.dec.cursor a).col.toNat ≠ 255 →
    ∃ t, exec (.wdata a v) s = .next t ∧ OnlyDecoder s t ∧ t.dec.drows = s.dec.drows ∧
      (t.dec.cursor a).page = (s.dec.cursor a).page ∧
      (t.dec.cursor a).col.toNat = ((s.dec.cursor a).col.toNat + 1) % 256 ∧
      (∀ b, b ≠ a → t.dec.cursor b = s.dec.cursor b) ∧
      ((s.dec.cursor a).col.toNat ≤ 131 →
        byteOf t.dec.fb a (s.dec.cursor a).page.toNat (s.dec.cursor a).col.toNat = v ∧
        SameBytesBut s.dec.fb t.dec.fb a (s.dec.cursor a).page.toNat (s.dec.cursor a).col.toNat) ∧
      (131 < (s.dec.cursor a).col.toNat → SameBytes s.dec.fb t.dec.fb)

/-- The alternative `COL_OVERFLOW` = refuse (decision D3; log entry 7): a data byte arriving at column 255 has no meaning,
and the whole transaction that carries it stops: WDATA at column 255, and DATA, DATAROW, WRITE and ROW with header `0x40`
whose body carries a byte to column 255. -/
def Obligations.DataAtColumn255UnderRefuse : Prop :=
  ∀ (a : Display) (s : State), s.cfg.colOverflow = .refuse →
    (∀ v, (s.dec.cursor a).col.toNat = 255 → exec (.wdata a v) s = .refused .colOverflow) ∧
    (∀ body, 256 ≤ (s.dec.cursor a).col.toNat + body.length →
      ∀ i ∈ [Instr.data a body, Instr.datarow a body, Instr.write a body, Instr.row (busAddr a) (0x40 :: body)],
        exec i s = .refused .colOverflow)

/-- A data row (DATA, DATAROW, WRITE, and ROW with header `0x40`; R170 to R174, with decisions D3 and D11): each byte at
the cursor in ascending columns, dropped beyond 131, wrapping at 256, one row counted, nothing else changed. -/
def Obligations.DataRowWritesItsBytes : Prop :=
  ∀ (a : Display) (body : List Byte) (s : State), s.dec.fb.wf = true →
    s.cfg.colOverflow = .wrap256 ∨ (s.dec.cursor a).col.toNat + body.length ≤ 255 →
    ∀ i ∈ [Instr.data a body, Instr.datarow a body, Instr.write a body, Instr.row (busAddr a) (0x40 :: body)],
      ∃ t, exec i s = .next t ∧ OnlyDecoder s t ∧ t.dec.drows = s.dec.drows + 1 ∧
        DataBodyEffect a body s.dec t.dec

/-- RUN (R81): under the stated condition the run's bytes are written, the cursor stands one past them, one row is counted,
nothing else changes, whatever `COL_OVERFLOW`. For every other page, column and length RUN is the same expansion, the cursor
set and then the data row (log entry 13); only under `COL_OVERFLOW` = refuse, with a byte carried to column 255, it has no
meaning (decision D3; log entry 7). -/
def Obligations.RunWritesItsBytes : Prop :=
  ∀ (a : Display) (p : BitVec 3) (c : BitVec 8) (ds : List Byte) (s : State), s.dec.fb.wf = true →
    (1 ≤ ds.length ∧ ds.length ≤ s.cfg.maxRunLen ∧ c.toNat + ds.length ≤ 132 →
      ∃ t, exec (.run a p c ds) s = .next t ∧ OnlyDecoder s t ∧ t.dec.drows = s.dec.drows + 1 ∧
        (t.dec.cursor a).page = p ∧ (t.dec.cursor a).col.toNat = c.toNat + ds.length ∧
        (∀ b, b ≠ a → t.dec.cursor b = s.dec.cursor b) ∧
        (∀ i (h : i < ds.length), byteOf t.dec.fb a p.toNat (c.toNat + i) = ds[i]) ∧
        (∀ b p' c', p' < 8 → c' < 132 → (∀ i, i < ds.length → (b, p', c') ≠ (a, p.toNat, c.toNat + i)) →
          byteOf t.dec.fb b p' c' = byteOf s.dec.fb b p' c')) ∧
    (s.cfg.colOverflow = .wrap256 ∨ c.toNat + ds.length ≤ 255 →
      ∃ t, exec (.run a p c ds) s = .next t ∧ OnlyDecoder s t ∧ t.dec.drows = s.dec.drows + 1 ∧
        DataBodyEffect a ds (s.dec.setCursor ⟨p, c⟩ a) t.dec) ∧
    (s.cfg.colOverflow = .refuse → 256 ≤ c.toNat + ds.length → exec (.run a p c ds) s = .refused .colOverflow)

/-- Data rows chain (R176): two data rows to one display have the same effect on the cursors and the framebuffer as one
row with both bodies; they differ only in `DROWS`. -/
def Obligations.DataRowsChain : Prop :=
  ∀ (a : Display) (x y : List Byte) (s : State), s.cfg.colOverflow = .wrap256 →
    ∃ t u w, exec (.datarow a x) s = .next t ∧ exec (.datarow a y) t = .next u ∧
      exec (.datarow a (x ++ y)) s = .next w ∧
      u.dec.fb = w.dec.fb ∧ (∀ b, u.dec.cursor b = w.dec.cursor b) ∧ u.dec.drows = w.dec.drows + 1

/-! ### Row dispatch -/

/-- Unrecognised address (R142): "The row changes no state at all", under every configuration. -/
def Obligations.UnrecognisedAddressChangesNothing : Prop :=
  ∀ (addr : Byte) (payload : List Byte) (s : State), addr ≠ 0x3C → addr ≠ 0x3D →
    ∀ i ∈ [Instr.row addr payload, Instr.addrOther addr payload],
      ∃ t, exec i s = .next t ∧ t.dec = s.dec ∧ OnlyDecoder s t

/-- Empty payload (R143): a row with no bytes "changes no state", under every configuration. -/
def Obligations.EmptyPayloadChangesNothing : Prop :=
  ∀ (a : Display) (s : State),
    ∀ i ∈ [Instr.row 0x3C [], Instr.row 0x3D [], Instr.addrTop [], Instr.addrBottom [], Instr.empty a],
      ∃ t, exec i s = .next t ∧ t.dec = s.dec ∧ OnlyDecoder s t

/-- Header neither `0x00` nor `0x40` (R144, the spec's decision D6; the parameter is log entry 8): the whole row is
ignored under `BAD_HEADER` = ignore, and has no meaning under refuse. -/
def Obligations.OtherHeaderIsIgnored : Prop :=
  ∀ (a : Display) (h : Byte) (body : List Byte) (s : State), h ≠ 0x00 → h ≠ 0x40 →
    ∀ i ∈ [Instr.hdrOther a h body, Instr.row (busAddr a) (h :: body), Instr.addrTop (h :: body),
        Instr.addrBottom (h :: body)],
      (s.cfg.badHeader = .ignore → ∃ t, exec i s = .next t ∧ t.dec = s.dec ∧ OnlyDecoder s t) ∧
      (s.cfg.badHeader = .refuse → exec i s = .refused .badHeader)

/-- Dispatch (R140, R141): address `0x3C` is display TOP, `0x3D` display BOTTOM; header `0x00` is a control row, `0x40` a
data row. -/
def Obligations.RowDispatchesOnAddressAndHeader : Prop :=
  ∀ (payload body : List Byte) (s : State),
    exec (.addrTop payload) s = exec (.row 0x3C payload) s ∧
    exec (.addrBottom payload) s = exec (.row 0x3D payload) s ∧
    exec (.row 0x3C (0x00 :: body)) s = exec (.ctrlrow .top body) s ∧
    exec (.row 0x3D (0x00 :: body)) s = exec (.ctrlrow .bottom body) s ∧
    exec (.row 0x3C (0x40 :: body)) s = exec (.datarow .top body) s ∧
    exec (.row 0x3D (0x40 :: body)) s = exec (.datarow .bottom body) s

/-- ROW is total (R140: "Exceptions: none, for any addr and any payload"), under the spec's default parameters (D3, D6):
every row completes, and leaves the sequencer and the configuration alone. -/
def Obligations.EveryRowCompletes : Prop :=
  ∀ (addr : Byte) (payload : List Byte) (s : State), s.cfg.colOverflow = .wrap256 → s.cfg.badHeader = .ignore →
    ∀ i ∈ [Instr.row addr payload, Instr.addrTop payload, Instr.addrBottom payload],
      ∃ t, exec i s = .next t ∧ OnlyDecoder s t

/-- A row addressed to one display neither changes nor reads the other's cursor and bytes (R22, R141): on the other
display nothing changes, and two states that agree on the row's display still do after it. -/
def Obligations.RowTouchesOneDisplayOnly : Prop :=
  ∀ (a : Display) (payload : List Byte) (s s' t t' : State), s.dec.fb.wf = true → s'.dec.fb.wf = true →
    exec (.row (busAddr a) payload) s = .next t → exec (.row (busAddr a) payload) s' = .next t' →
    (∀ b, b ≠ a → AgreeOn b s.dec t.dec) ∧ (AgreeOn a s.dec s'.dec → AgreeOn a t.dec t'.dec)

/-- Two rows to different displays leave the same decoder in either order (R54). -/
def Obligations.RowsToDifferentDisplaysCommute : Prop :=
  ∀ (a b : Display) (x y : List Byte) (s t u t' u' : State), a ≠ b → s.dec.fb.wf = true →
    exec (.row (busAddr a) x) s = .next t → exec (.row (busAddr b) y) t = .next u →
    exec (.row (busAddr b) y) s = .next t' → exec (.row (busAddr a) x) t' = .next u' →
    u.dec = u'.dec

/-- A row is its bytes in turn (R53, R155, R170): a control row is its first command and then the row without it; a data
row is its first data byte and then the row without it. That a single command can be presented by itself is the model's
choice (log entry 4). -/
def Obligations.RowIsItsBytesInTurn : Prop :=
  ∀ (a : Display) (b : Byte) (body : List Byte) (s : State),
    (∃ i t, decode (.ctrlBody a) [b] = .ok i ∧ exec i s = .next t ∧
      exec (.ctrl a (b :: body)) s = exec (.ctrl a body) t) ∧
    (∀ t, exec (.wdata a b) s = .next t → ∀ u, exec (.data a body) t = .next u →
      ∃ u', exec (.data a (b :: body)) s = .next u' ∧ u'.dec = u.dec)

/-! ### Framebuffer ports -/

/-- FBREAD (R90): the byte at (a, p, c) is answered and no state is written; "Operands outside the ranges: `refuse`". -/
def Obligations.FbreadAnswersTheByte : Prop :=
  ∀ (b : FbInst) (a : Display) (p c : Nat) (s : State),
    (p ≤ 7 ∧ c ≤ 131 → ∃ t, exec (.fbread b a p c) s = .next t ∧
      t.ports.result = .byte (byteOf (s.fb b) a p c) ∧ OnlyAnswer s t) ∧
    (¬ (p ≤ 7 ∧ c ≤ 131) → exec (.fbread b a p c) s = .refused .noSuchByte)

/-- FBWRITE (R91): that one byte of that instance is `v`, every other byte and all other state as before; out of range:
refused. Whether the host reaches `DEC` by it, as R91's operands and example say beside R43, is a parameter of the ports (log
entry 12). -/
def Obligations.FbwriteOverwritesOneByte : Prop :=
  ∀ (b : FbInst) (a : Display) (p c : Nat) (v : Byte) (s : State), (s.fb b).wf = true →
    (p ≤ 7 ∧ c ≤ 131 → ∃ t, exec (.fbwrite b a p c v) s = .next t ∧
      byteOf (t.fb b) a p c = v ∧ SameBytesBut (s.fb b) (t.fb b) a p c ∧
      (∀ b', b' ≠ b → t.fb b' = s.fb b') ∧ (∀ d, t.dec.cursor d = s.dec.cursor d) ∧ t.dec.drows = s.dec.drows ∧
      t.enc.acc = s.enc.acc ∧ t.enc.chg = s.enc.chg ∧ t.enc.out = s.enc.out ∧ t.cfg = s.cfg ∧ t.ports = s.ports ∧
      (v = byteOf (s.fb b) a p c → t = s) ∧
      exec (.fbwrite b a p c v) s = exec (.fbwrite b a p c v) t) ∧
    (¬ (p ≤ 7 ∧ c ≤ 131) → exec (.fbwrite b a p c v) s = .refused .noSuchByte)

/-- FBMASKWR (R92): `new = (old & ~mask) | (desired & mask)` at that one byte, the pair (old, new) answered, every other
byte and all other state as before; out of range: refused. Whether the host reaches `DEC` by it, as R92's operands say
beside R43, is a parameter of the ports (log entry 12). -/
def Obligations.FbmaskwrUpdatesUnderTheMask : Prop :=
  ∀ (b : FbInst) (a : Display) (p c : Nat) (mask desired : Byte) (s : State), (s.fb b).wf = true →
    (p ≤ 7 ∧ c ≤ 131 → ∃ t, exec (.fbmaskwr b a p c mask desired) s = .next t ∧
      byteOf (t.fb b) a p c = (byteOf (s.fb b) a p c &&& ~~~mask) ||| (desired &&& mask) ∧
      t.ports.result = .masked (byteOf (s.fb b) a p c) (byteOf (t.fb b) a p c) ∧
      SameBytesBut (s.fb b) (t.fb b) a p c ∧
      (∀ b', b' ≠ b → t.fb b' = s.fb b') ∧ (∀ d, t.dec.cursor d = s.dec.cursor d) ∧ t.dec.drows = s.dec.drows ∧
      t.enc.acc = s.enc.acc ∧ t.enc.chg = s.enc.chg ∧ t.enc.out = s.enc.out ∧ t.cfg = s.cfg ∧
      t.ports.input = s.ports.input ∧ t.ports.dataRowDone = s.ports.dataRowDone ∧
      t.ports.draws = s.ports.draws) ∧
    (¬ (p ≤ 7 ∧ c ≤ 131) → exec (.fbmaskwr b a p c mask desired) s = .refused .noSuchByte)

/-- The host's framebuffer ports run on either instance, as R90 to R92 give it for an operand (R205, "every host operation is
always permitted"): a write presented to the block is taken by one step, and a read presented next answers the byte written;
this is R91's example, for every instance, location and value. For `DEC` it is so under the model's parameter `decWrites` =
host, the default; under decoder, which is R43's "nothing else does", the write is refused (log entry 12). -/
def Obligations.HostPortsReachEitherInstance : Prop :=
  ∀ (b : FbInst) (a : Display) (p c : Nat) (mask v : Byte) (s : State) (rest : List Input),
    (s.fb b).wf = true → p ≤ 7 → c ≤ 131 → (b = .dec → s.cfg.decWrites = .host) →
    (s.ports.input = .op (.fbwrite b a p c v) :: .op (.fbread b a p c) :: rest →
      ∃ t u, step s = .next t ∧ step t = .next u ∧ u.ports.input = rest ∧ u.ports.result = .byte v) ∧
    (s.ports.input = .op (.fbmaskwr b a p c mask v) :: .op (.fbread b a p c) :: rest →
      ∃ t u, step s = .next t ∧ step t = .next u ∧ u.ports.input = rest ∧
        u.ports.result = .byte ((byteOf (s.fb b) a p c &&& ~~~mask) ||| (v &&& mask)))

/-- Only the decoder writes `DEC.FB` (R43, "The decoder's WDATA writes `DEC.FB` and nothing else does"; R20), under the model's
parameter `decWrites` = decoder (log entry 12): the host's writes on `DEC` are refused, and a step after which `DEC.FB` differs
took an instruction with data bytes, in a row or alone, or RESET. -/
def Obligations.OnlyDataBytesWriteDecFb : Prop :=
  ∀ (s t : State) (rest : List Input), s.cfg.decWrites = .decoder →
    (∀ (a : Display) (p c : Nat) (mask v : Byte),
      ∀ i ∈ [Instr.fbwrite .dec a p c v, Instr.fbmaskwr .dec a p c mask v],
        s.ports.input = .op i :: rest → step s = .refused .decIsTheDecoders) ∧
    (step s = .next t → t.dec.fb ≠ s.dec.fb →
      ∃ x rest i, s.ports.input = x :: rest ∧ fetch s.cfg x = .ok i ∧
        (i = .reset ∨ completesDataRow i = true ∨ ∃ a v, i = .wdata a v))

/-- The laws of the masked byte (R93 a to d, and the inferences R91 and R92 mark as derived): bits outside the mask are
preserved, bits inside take the desired value, the write is idempotent, writes under disjoint masks commute, the full mask
overwrites, and the byte stays exactly when every touched bit already has its desired value. -/
def Obligations.MaskedByteLaws : Prop :=
  ∀ old m d m' d' : Byte,
    maskedByte old m d &&& ~~~m = old &&& ~~~m ∧
    maskedByte old m d &&& m = d &&& m ∧
    maskedByte (maskedByte old m d) m d = maskedByte old m d ∧
    (m &&& m' = 0 → maskedByte (maskedByte old m d) m' d' = maskedByte (maskedByte old m' d') m d) ∧
    maskedByte old 0xFF d = d ∧
    (maskedByte old m d = old ↔ old &&& m = d &&& m)

/-! ### Pixel address decode -/

/-- PIX2ADDR (R100): "if y < 64, address=TOP and row=y; else address=BOTTOM and row=y−64; page = row div 8, bit = row
mod 8, column = x"; no state is written. -/
def Obligations.Pix2addrNamesTheBit : Prop :=
  ∀ (x y : Nat) (s : State),
    (x ≤ 131 ∧ y < 64 → ∃ t, exec (.pix2addr x y) s = .next t ∧
      t.ports.result = .address .top (y / 8) (y % 8) x ∧ OnlyAnswer s t) ∧
    (x ≤ 131 ∧ 64 ≤ y ∧ y ≤ 127 → ∃ t, exec (.pix2addr x y) s = .next t ∧
      t.ports.result = .address .bottom ((y - 64) / 8) ((y - 64) % 8) x ∧ OnlyAnswer s t)

/-- Operands that have no meaning are refused: PIX2ADDR off the canvas and ACCUM of a segment that leaves the canvas or
repeats a coordinate (R101, R105, the spec's decision D9). -/
def Obligations.OperandsWithoutMeaningAreRefused : Prop :=
  (∀ (x y : Nat) (s : State), ¬ (x ≤ 131 ∧ y ≤ 127) → exec (.pix2addr x y) s = .refused .offCanvas) ∧
  (∀ (seg : List Pixel) (s : State), (∃ e ∈ seg, ¬ (e.x ≤ 131 ∧ e.y ≤ 127)) →
    exec (.accum seg) s = .refused .offCanvas) ∧
  (∀ (seg : List Pixel) (s : State), (∀ e ∈ seg, e.x ≤ 131 ∧ e.y ≤ 127) → ¬ (seg.map fun e => (e.x, e.y)).Nodup →
    exec (.accum seg) s = .refused .repeatedPixel)

/-- ADDR2PIX is the inverse of PIX2ADDR (R102), a bijection between canvas pixels and framebuffer bits; no state is
written. Outside the ranges it completes all the same and answers a pixel that nothing is said of (log entry 18). -/
def Obligations.Addr2pixInvertsPix2addr : Prop :=
  (∀ (a : Display) (p i c : Nat) (s : State), p ≤ 7 ∧ i ≤ 7 ∧ c ≤ 131 →
    ∃ x y t u, exec (.addr2pix a p i c) s = .next t ∧ OnlyAnswer s t ∧ t.ports.result = .pixel x y ∧
      x = c ∧ (a = .top → y = p * 8 + i) ∧ (a = .bottom → y = 64 + p * 8 + i) ∧ x ≤ 131 ∧ y ≤ 127 ∧
      exec (.pix2addr x y) s = .next u ∧ u.ports.result = .address a p i c) ∧
  (∀ (x y : Nat) (s : State), x ≤ 131 ∧ y ≤ 127 →
    ∃ a p i c t u, exec (.pix2addr x y) s = .next t ∧ t.ports.result = .address a p i c ∧
      p ≤ 7 ∧ i ≤ 7 ∧ c ≤ 131 ∧ exec (.addr2pix a p i c) s = .next u ∧ u.ports.result = .pixel x y) ∧
  (∀ (a : Display) (p i c : Nat) (s : State), ¬ (p ≤ 7 ∧ i ≤ 7 ∧ c ≤ 131) →
    ∃ x y t, exec (.addr2pix a p i c) s = .next t ∧ t.ports.result = .pixel x y ∧ OnlyFreeAnswer s t)

/-- BITMAP (R104): `B[x][y]` is bit i of the byte that PIX2ADDR names for (x, y), for every canvas pixel; no state is
written. -/
def Obligations.BitmapComposesThePicture : Prop :=
  ∀ (b : FbInst) (s : State), ∃ t B, exec (.bitmap b) s = .next t ∧ t.ports.result = .picture B ∧ OnlyAnswer s t ∧
    B.length = 132 ∧ (∀ col ∈ B, col.length = 128) ∧
    (∀ x y, x ≤ 131 → y < 64 →
      ((B[x]?).bind fun col => col[y]?) = some ((byteOf (s.fb b) .top (y / 8) x).getLsbD (y % 8))) ∧
    (∀ x y, x ≤ 131 → y < 64 →
      ((B[x]?).bind fun col => col[64 + y]?) = some ((byteOf (s.fb b) .bottom (y / 8) x).getLsbD (y % 8)))

/-! ### The sequencer -/

/-- ACCUM (R106): one entry for each byte key that a pixel of the segment lies in; a mask bit for each pixel, a desired
bit for each pixel that is on; only `ACC` is written. -/
def Obligations.AccumGroupsPixelsByByte : Prop :=
  ∀ (seg : List Pixel) (s : State),
    segmentAdmitted seg = true → ∃ t, exec (.accum seg) s = .next t ∧
      OnlySequencer s t ∧ t.enc.fb = s.enc.fb ∧ t.enc.chg = s.enc.chg ∧ t.enc.out = s.enc.out ∧
      (t.enc.acc.map AccEntry.key).Nodup ∧
      (∀ k : ByteKey, (∃ e ∈ t.enc.acc, e.key = k) ↔
        ∃ e ∈ seg, ∃ i, (e.x, e.y) = addrPixel k.disp k.page.val i k.col.val ∧ i < 8) ∧
      (∀ e ∈ t.enc.acc, e.mask ≠ 0 ∧ e.desired &&& ~~~e.mask = 0 ∧ ∀ i, i < 8 →
        (e.mask.getLsbD i = true ↔
          ∃ px ∈ seg, (px.x, px.y) = addrPixel e.key.disp e.key.page.val i e.key.col.val) ∧
        (e.desired.getLsbD i = true ↔
          ∃ px ∈ seg, (px.x, px.y) = addrPixel e.key.disp e.key.page.val i e.key.col.val ∧ px.on = true))

/-- The result of ACCUM and of SEGUPDATE "does not depend on the order of the entries" (R106, marked there as the spec's
own inference). -/
def Obligations.EntryOrderOfASegmentIsIrrelevant : Prop :=
  ∀ (seg seg' : List Pixel) (s : State), seg'.Perm seg → segmentAdmitted seg = true → s.cfg.legal = true →
    (∃ t, exec (.accum seg) s = .next t ∧ exec (.accum seg') s = .next t) ∧
    (∃ t, exec (.segupdate seg) s = .next t ∧ exec (.segupdate seg') s = .next t)

/-- APPLY (R116): for each key of `ACC` one masked write with that key's mask and desired byte; a byte that differs from
its prior value enters the changed-set of its (address, page); every other byte, `ACC` and `OUT` stay. `ACC` holds a key
once, and `CHG` starts empty (R28, R29). -/
def Obligations.ApplyUpdatesAndRecordsChanges : Prop :=
  ∀ s : State, ∃ t, exec .apply s = .next t ∧ OnlySequencer s t ∧ t.enc.acc = s.enc.acc ∧ t.enc.out = s.enc.out ∧
    (s.enc.fb.wf = true → (s.enc.acc.map AccEntry.key).Nodup → s.enc.chg = [] →
      (∀ e ∈ s.enc.acc, byteOf t.enc.fb e.key.disp e.key.page.val e.key.col.val =
        (byteOf s.enc.fb e.key.disp e.key.page.val e.key.col.val &&& ~~~e.mask) ||| (e.desired &&& e.mask)) ∧
      (∀ k : ByteKey, (∀ e ∈ s.enc.acc, e.key ≠ k) →
        byteOf t.enc.fb k.disp k.page.val k.col.val = byteOf s.enc.fb k.disp k.page.val k.col.val) ∧
      (∀ k : ByteKey, k.col.val ∈ chgCols t.enc.chg k.disp k.page ↔
        byteOf t.enc.fb k.disp k.page.val k.col.val ≠ byteOf s.enc.fb k.disp k.page.val k.col.val))

/-- PACK (R119, R120): the runs cover exactly the set, are ascending and disjoint, hold 1 to `MAX_RUN_LEN` columns, lie
inside the page, and a run ends only at a gap or at the cap; no state is written. `MAX_RUN_LEN` = 0 is refused (R127,
decision D10); with a column beyond 131 it completes and answers runs that nothing is said of (log entry 18). -/
def Obligations.PackGivesMaximalRuns : Prop :=
  ∀ (cols : List Nat) (s : State),
    (1 ≤ s.cfg.maxRunLen → (∀ c ∈ cols, c ≤ 131) → ∃ t rs, exec (.pack cols) s = .next t ∧
      t.ports.result = .runs rs ∧ OnlyAnswer s t ∧
      (∀ c, (∃ r ∈ rs, r.first ≤ c ∧ c < r.first + r.len) ↔ c ∈ cols) ∧
      (∀ r ∈ rs, 1 ≤ r.len ∧ r.len ≤ s.cfg.maxRunLen ∧ r.first + r.len - 1 ≤ 131) ∧
      rs.Pairwise (fun r r' => r.first + r.len ≤ r'.first) ∧
      (∀ r ∈ rs, r.first + r.len ∈ cols → r.len = s.cfg.maxRunLen)) ∧
    (s.cfg.maxRunLen = 0 → exec (.pack cols) s = .refused .maxRunLenZero) ∧
    (1 ≤ s.cfg.maxRunLen → (∃ c ∈ cols, 131 < c) →
      ∃ t rs, exec (.pack cols) s = .next t ∧ t.ports.result = .runs rs ∧ OnlyFreeAnswer s t)

/-- "Any value ≥ 132 behaves as 132" (R127, decision D10): the runs of columns of one page are the same under every cap
from 132 on. -/
def Obligations.CapsFrom132AreOne : Prop :=
  ∀ (cap : Nat) (cols : List Nat), 132 ≤ cap → (∀ c ∈ cols, c ≤ 131) → packCols cap cols = packCols 132 cols

/-- EMIT (R121, R122) of a run of PACK: the control row `[0x00, 0xB0|p, c0 & 0x0F, 0x10 | ((c0 >> 4) & 0x0F)]` and directly
after it the data row of the mirror's bytes of the run, both to the display's address, are appended to `OUT`; nothing else
changes. -/
def Obligations.EmitAppendsThePair : Prop :=
  ∀ (a : Display) (p : BitVec 3) (c0 : BitVec 8) (n : Nat) (s : State),
    1 ≤ n ∧ n ≤ s.cfg.maxRunLen ∧ c0.toNat + n ≤ 132 → ∃ t ds, exec (.emit a p c0 n) s = .next t ∧
      OnlySequencer s t ∧ t.enc.fb = s.enc.fb ∧ t.enc.acc = s.enc.acc ∧ t.enc.chg = s.enc.chg ∧
      t.enc.out = s.enc.out ++
        [⟨if a = .top then 0x3C else 0x3D, [0x00, 0xB0 ||| p.setWidth 8, c0 &&& 0x0F,
          0x10 ||| ((c0 >>> 4) &&& 0x0F)]⟩,
         ⟨if a = .top then 0x3C else 0x3D, 0x40 :: ds⟩] ∧
      ds.length = n ∧ ∀ i (h : i < ds.length), ds[i] = byteOf s.enc.fb a p.toNat (c0.toNat + i)

/-- EMIT of any page, first column and length, a run of PACK or not (log entry 19: the empty run, a run longer than the cap,
a run past column 131): it completes and appends the pair of R121 and R122, with n data bytes, the mirror's byte for every
column that exists and a byte that nothing is said of for every other; nothing else changes but that those were drawn. -/
def Obligations.EmitCompletesOnEveryOperand : Prop :=
  ∀ (a : Display) (p : BitVec 3) (c0 : BitVec 8) (n : Nat) (s : State), ∃ t ds, exec (.emit a p c0 n) s = .next t ∧
    t.dec = s.dec ∧ t.cfg = s.cfg ∧ t.ports.input = s.ports.input ∧ t.ports.result = s.ports.result ∧
    t.ports.dataRowDone = s.ports.dataRowDone ∧ (c0.toNat + n ≤ 132 → t.ports = s.ports) ∧
    t.enc.fb = s.enc.fb ∧ t.enc.acc = s.enc.acc ∧ t.enc.chg = s.enc.chg ∧
    t.enc.out = s.enc.out ++
      [⟨busAddr a, [0x00, 0xB0 ||| p.setWidth 8, c0 &&& 0x0F, 0x10 ||| ((c0 >>> 4) &&& 0x0F)]⟩,
       ⟨busAddr a, 0x40 :: ds⟩] ∧
    ds.length = n ∧
    ∀ i (h : i < ds.length), c0.toNat + i ≤ 131 → ds[i] = byteOf s.enc.fb a p.toNat (c0.toNat + i)

/-- SEGUPDATE (R115, R116, R129): an admitted segment gives each named pixel its target and leaves every other pixel of
the mirror; rows are only appended to `OUT`; `ACC` and `CHG` end empty; the decoder, the configuration and the ports stay.
A segment outside the admitted shape, or a configuration the sequencer cannot run under, is refused (decisions D8, D9,
D10; log entry 9). -/
def Obligations.SegupdateAppliesTheTargets : Prop :=
  ∀ (seg : List Pixel) (s : State), s.enc.fb.wf = true →
    (segmentAdmitted seg = true → s.cfg.legal = true → ∃ t rows, exec (.segupdate seg) s = .next t ∧
      OnlySequencer s t ∧ t.enc.acc = [] ∧ t.enc.chg = [] ∧ t.enc.out = s.enc.out ++ rows ∧
      (∀ e ∈ seg, t.enc.fb.pixel e.x e.y = e.on) ∧
      (∀ x y, x ≤ 131 → y ≤ 127 → (∀ e ∈ seg, (e.x, e.y) ≠ (x, y)) →
        t.enc.fb.pixel x y = s.enc.fb.pixel x y) ∧
      (∀ k : ByteKey, (∀ e ∈ seg, ∀ i, i < 8 → (e.x, e.y) ≠ addrPixel k.disp k.page.val i k.col.val) →
        byteOf t.enc.fb k.disp k.page.val k.col.val = byteOf s.enc.fb k.disp k.page.val k.col.val)) ∧
    (segmentOnCanvas seg = false → exec (.segupdate seg) s = .refused .offCanvas) ∧
    (segmentOnCanvas seg = true → segmentDistinct seg = false → exec (.segupdate seg) s = .refused .repeatedPixel) ∧
    (segmentAdmitted seg = true → s.cfg.maxRunLen = 0 → exec (.segupdate seg) s = .refused .maxRunLenZero) ∧
    (segmentAdmitted seg = true → 1 ≤ s.cfg.maxRunLen → pageOrderLegal s.cfg.pageOrder = false →
      exec (.segupdate seg) s = .refused .badPageOrder)

/-- What a SEGUPDATE sends (R115, R118 to R120, R123, R124; the order across pages is decision D8): the rows appended to
`OUT` are the pairs of runs that lie in their pages, hold at most `MAX_RUN_LEN` bytes, stand in the order TOP before
BOTTOM, ascending page, ascending column, and cover exactly the bytes that the segment changed, each once; the runs are
maximal: where the byte after a run in its page changed too, the run has exactly `MAX_RUN_LEN` columns. -/
def Obligations.SegupdateSendsExactlyTheChangedBytes : Prop :=
  ∀ (seg : List Pixel) (s : State), s.enc.fb.wf = true → segmentAdmitted seg = true → 1 ≤ s.cfg.maxRunLen →
    s.cfg.pageOrder = Config.defaultPageOrder →
    ∃ (t : State) (runs : List PageRun), exec (.segupdate seg) s = .next t ∧
      t.enc.out = s.enc.out ++ runs.flatMap (fun x => emitRows t.enc.fb x.disp x.page.val x.run) ∧
      (∀ x ∈ runs, x.inPage ∧ x.run.len ≤ s.cfg.maxRunLen) ∧
      runs.Pairwise (fun x y => fbAddr x.disp x.page.val (x.run.first + x.run.len) ≤
        fbAddr y.disp y.page.val y.run.first) ∧
      (∀ x ∈ runs, x.run.first + x.run.len ≤ 131 →
        byteOf t.enc.fb x.disp x.page.val (x.run.first + x.run.len) ≠
          byteOf s.enc.fb x.disp x.page.val (x.run.first + x.run.len) → x.run.len = s.cfg.maxRunLen) ∧
      (∀ a p c, p < 8 → c < 132 → ((∃ x ∈ runs, x.covers (fbAddr a p c)) ↔
        byteOf t.enc.fb a p c ≠ byteOf s.enc.fb a p c))

/-- No change, no output (R126): if every pixel of an admitted segment already has its target, SEGUPDATE changes nothing
and emits nothing; so the same segment a second time does nothing. -/
def Obligations.UnchangedSegmentEmitsNothing : Prop :=
  ∀ (seg : List Pixel) (s : State), s.Inv → segmentAdmitted seg = true → s.cfg.legal = true →
    ((∀ e ∈ seg, s.enc.fb.pixel e.x e.y = e.on) → exec (.segupdate seg) s = .next s) ∧
    (∃ t, exec (.segupdate seg) s = .next t ∧ exec (.segupdate seg) t = .next t)

/-- Replay equality (R130): from reset of both agents, after any admitted segments under any legal configuration, replaying
`OUT` gives `DEC.FB = ENC.FB`, byte for byte. -/
def Obligations.ReplayOfOutEqualsTheMirror : Prop :=
  ∀ (cfg : Settings) (segs : List (List Pixel)), cfg.legal = true → (∀ seg ∈ segs, segmentAdmitted seg = true) →
    ∃ d, Decoder.rows cfg Decoder.reset (Sequencer.reset.segUpdates cfg segs).out = .ok d ∧
      d.fb = (Sequencer.reset.segUpdates cfg segs).fb ∧
      ∀ a p c, p < 8 → c < 132 → byteOf d.fb a p c = byteOf (Sequencer.reset.segUpdates cfg segs).fb a p c

/-- Phase completion (R131): if the segments name every canvas pixel exactly once, each with the target bitmap's value,
then the mirror shows the target bitmap afterwards, in whatever order the segments came and whatever it showed before. -/
def Obligations.PhaseShowsTheTargetBitmap : Prop :=
  ∀ (cfg : Settings) (q : Sequencer) (segs : List (List Pixel)) (target : Nat → Nat → Bool),
    q.fb.wf = true → (segs.flatten.map fun e => (e.x, e.y)).Nodup →
    (∀ e ∈ segs.flatten, onCanvas e.x e.y = true ∧ e.on = target e.x e.y) →
    (∀ x y, x ≤ 131 → y ≤ 127 → ∃ e ∈ segs.flatten, (e.x, e.y) = (x, y)) →
    ∀ x y, x ≤ 131 → y ≤ 127 → (q.segUpdates cfg segs).fb.pixel x y = target x y

/-! ### Sample port -/

/-- The strobe (R188, R186, with decision D11): after any instruction of the row protocol, a row or a single command, that
completes, it is up exactly when the instruction completed a data row and `DROWS mod FRAME_STRIDE == 0`, and down otherwise;
that it stays up until the next row is log entry 3. That SAMPLE is an instruction, which answers the strobe and changes
nothing else, is log entry 16. -/
def Obligations.StrobeAfterEveryNthDataRow : Prop :=
  (∀ s, ∃ t, exec .sample s = .next t ∧ t.ports.result = .strobe s.sampleStrobe ∧ OnlyAnswer s t) ∧
  (∀ (i : Instr) (s t : State), isRowProtocol i = true → exec i s = .next t → 1 ≤ s.cfg.frameStride →
    (t.sampleStrobe = true ↔ completesDataRow i = true ∧ t.dec.drows % s.cfg.frameStride = 0))

/-- `DROWS` (R186, decision D11): a row counts exactly when it passed the address test and its header is `0x40`, whatever
the length of its body and whether or not any byte was written; a row under another name (CTRL, DATA, SETCURSOR, WRITE, RUN)
counts as the row it is, and a single command counts nothing (log entry 4). -/
def Obligations.DrowsCountsDataRows : Prop :=
  (∀ (addr : Byte) (payload : List Byte) (s t : State), exec (.row addr payload) s = .next t →
    t.dec.drows = s.dec.drows + if (addr = 0x3C ∨ addr = 0x3D) ∧ payload.head? = some 0x40 then 1 else 0) ∧
  (∀ (i : Instr) (s t : State), isRowProtocol i = true → exec i s = .next t →
    t.dec.drows = s.dec.drows + if completesDataRow i = true then 1 else 0)

/-! ### The whole machine -/

/-- The invariant of R35 holds at reset. -/
def Obligations.ResetMeetsTheInvariant : Prop := State.reset.Inv

/-- Every step keeps the invariant of R35, from every state that meets it: both framebuffers canonical, `ACC` and `CHG`
empty between operations, `OUT` in pairs of a 4-byte control row and a data row of 2 to `MAX_RUN_LEN`+1 bytes with one
valid address. -/
def Obligations.StepKeepsTheInvariant : Prop :=
  ∀ s t, s.Inv → step s = .next t → t.Inv

/-- "The block raises no exception" (R195): no step answers a fault; and under a legal configuration with the spec's
default parameters every well-formed instruction completes. -/
def Obligations.NothingFaultsAndWellFormedCompletes : Prop :=
  (∀ s f, step s ≠ .fault f) ∧
  (∀ (i : Instr) (s : State), i.wf = true → s.cfg.legal = true → s.cfg.colOverflow = .wrap256 →
    s.cfg.badHeader = .ignore →
    ∃ t, exec i s = .next t)

/-- The configuration is constant for a run (R26, R219): no step changes it, RESET included. R215 says so of `MAX_RUN_LEN` and
`FRAME_STRIDE`; that RESET leaves the open parameters too is log entry 17. -/
def Obligations.NoStepChangesTheConfiguration : Prop :=
  ∀ s t, step s = .next t → t.cfg = s.cfg

/-- The agents share no mutable state (R8; R43, "Neither agent touches the other's instance"). Writes: a row-protocol
instruction leaves the sequencer as it is, a sequencer operation leaves the decoder as it is. Reads: what a row-protocol
instruction leaves of the decoder is the same whatever the sequencer holds, and what a sequencer operation leaves of the
sequencer is the same whatever the decoder holds (with as many free values drawn before, log entry 22). -/
def Obligations.AgentsShareNoState : Prop :=
  (∀ (i : Instr) (s t : State), exec i s = .next t →
    (isRowProtocol i = true → t.enc = s.enc) ∧ (isSequencerOp i = true → t.dec = s.dec)) ∧
  (∀ (i : Instr) (s s' t : State), isRowProtocol i = true → s'.dec = s.dec → s'.cfg = s.cfg → exec i s = .next t →
    ∃ t', exec i s' = .next t' ∧ t'.dec = t.dec) ∧
  (∀ (i : Instr) (s s' t : State), isSequencerOp i = true → s'.enc = s.enc → s'.cfg = s.cfg →
    s'.ports.draws = s.ports.draws → exec i s = .next t → ∃ t', exec i s' = .next t' ∧ t'.enc = t.enc)

/-- Which operations write which framebuffer (R43, R20). A step after which `DEC.FB` differs took an instruction with data
bytes, in a row or alone (WDATA), RESET, or, where the model's parameter `decWrites` = host lets it (log entry 12), the host's own
FBWRITE or FBMASKWR on `DEC`; no other transaction of the decoder and none of the sequencer does it. A step after which `ENC.FB`
differs took SEGUPDATE, RESET, or FBWRITE or FBMASKWR on `ENC`. -/
def Obligations.FramebuffersHaveTheirWriters : Prop :=
  (∀ (s t : State), step s = .next t → t.dec.fb ≠ s.dec.fb →
    ∃ x rest i, s.ports.input = x :: rest ∧ fetch s.cfg x = .ok i ∧
      (completesDataRow i = true ∨ i = .reset ∨ (∃ a v, i = .wdata a v) ∨
        (s.cfg.decWrites = .host ∧
          ((∃ a p c v, i = .fbwrite .dec a p c v) ∨ ∃ a p c mask v, i = .fbmaskwr .dec a p c mask v)))) ∧
  (∀ (s t : State), step s = .next t → t.enc.fb ≠ s.enc.fb →
    ∃ x rest i, s.ports.input = x :: rest ∧ fetch s.cfg x = .ok i ∧
      ((∃ seg, i = .segupdate seg) ∨ i = .reset ∨
        (∃ a p c v, i = .fbwrite .enc a p c v) ∨ ∃ a p c mask v, i = .fbmaskwr .enc a p c mask v))

/-- `OUT` is append-only (R31): every instruction but RESET keeps the rows already in it, at its front. -/
def Obligations.OutIsAppendOnly : Prop :=
  ∀ (i : Instr) (s t : State), exec i s = .next t → i ≠ .reset → s.enc.out <+: t.enc.out

/-- Steps of SEGUPDATE "cannot be invoked alone" (42_update_sequencer.md; for ACCUM the model's reading, log entry 11):
presented by themselves they are refused. -/
def Obligations.InternalStepsAreRefusedAlone : Prop :=
  ∀ (s : State) (rest : List Input) (seg : List Pixel) (cols : List Nat) (a : Display) (p : BitVec 3) (c0 : BitVec 8)
    (n : Nat),
    ∀ i ∈ [Instr.accum seg, Instr.apply, Instr.pack cols, Instr.emit a p c0 n],
      s.ports.input = .op i :: rest → step s = .refused .internalStepAlone
end

