-- ==== Sys2Proof/Laws/Columns.lean ====
section
/-! SUPPORT. The laws of column sets and of PACK: sorting gives the ascending set, and the greedy runs cover exactly the
set, in order, within the cap (spec/42_update_sequencer.md R119, R120). -/

namespace Sys2Proof.Machine

/-- Strictly ascending columns. -/
abbrev Ascending (cols : List Nat) : Prop := cols.Pairwise (· < ·)

@[simp] theorem mem_insertCol {c x : Nat} {cols : List Nat} : x ∈ insertCol c cols ↔ x = c ∨ x ∈ cols := by
  induction cols with
  | nil => simp [insertCol]
  | cons d ds ih =>
    simp only [insertCol]
    split
    · simp
    · split
      · rename_i h; subst h; simp
      · simp only [List.mem_cons, ih]; tauto

theorem insertCol_ascending {c : Nat} {cols : List Nat} (h : Ascending cols) : Ascending (insertCol c cols) := by
  induction cols with
  | nil => simp [insertCol]
  | cons d ds ih =>
    simp only [insertCol]
    rw [Ascending, List.pairwise_cons] at h
    split
    · rename_i hlt
      refine List.pairwise_cons.2 ⟨?_, List.pairwise_cons.2 h⟩
      intro x hx
      rcases List.mem_cons.1 hx with rfl | hx
      · exact hlt
      · exact lt_trans hlt (h.1 x hx)
    · split
      · exact List.pairwise_cons.2 h
      · refine List.pairwise_cons.2 ⟨?_, ih h.2⟩
        intro x hx
        rcases mem_insertCol.1 hx with rfl | hx
        · omega
        · exact h.1 x hx

@[simp] theorem mem_sortCols {x : Nat} {cols : List Nat} : x ∈ sortCols cols ↔ x ∈ cols := by
  induction cols with
  | nil => simp [sortCols]
  | cons c cs ih => rw [sortCols, List.foldr_cons, mem_insertCol, List.mem_cons, ← ih]; rfl

theorem sortCols_ascending (cols : List Nat) : Ascending (sortCols cols) := by
  induction cols with
  | nil => exact List.Pairwise.nil
  | cons c cs ih => exact insertCol_ascending ih

/-! ### Runs -/

/-- The columns that a run stands for: c0, c0+1, ..., c0+n−1 (R119). -/
def Run.covers (r : Run) (c : Nat) : Prop := r.first ≤ c ∧ c < r.first + r.len

/-- What the greedy packing gives, with the run (c0, n) open and every further column beyond it: the runs cover exactly
the open run and the further columns. -/
theorem packFrom_covers {cap c0 n : Nat} {cols : List Nat} (h : Ascending cols) (hlo : ∀ x ∈ cols, c0 + n ≤ x)
    (c : Nat) : (∃ r ∈ packFrom cap c0 n cols, r.covers c) ↔ (c0 ≤ c ∧ c < c0 + n) ∨ c ∈ cols := by
  induction cols generalizing c0 n with
  | nil => simp [packFrom, Run.covers]
  | cons d ds ih =>
    rw [Ascending, List.pairwise_cons] at h
    have hd := hlo d (List.mem_cons_self ..)
    simp only [packFrom]
    split
    · rename_i hc
      rw [ih h.2 (fun x hx => by have := h.1 x hx; omega), List.mem_cons, hc.1]
      constructor
      · rintro (h | h)
        · by_cases he : c = c0 + n
          · exact Or.inr (Or.inl he)
          · left; omega
        · exact Or.inr (Or.inr h)
      · rintro (h | h | h)
        · left; omega
        · left; omega
        · exact Or.inr h
    · have := ih (c0 := d) (n := 1) h.2 (fun x hx => by have := h.1 x hx; omega)
      simp only [List.mem_cons, exists_eq_or_imp, this]
      simp only [Run.covers]
      constructor
      · rintro (h | h | h)
        · left; exact h
        · right; left; omega
        · right; right; exact h
      · rintro (h | h | h)
        · left; exact h
        · right; left; omega
        · right; right; exact h

/-- The shape of the greedy runs: each between 1 and the cap, each beginning at or beyond the open run's first column,
ascending and disjoint. -/
theorem packFrom_shape {cap c0 n : Nat} {cols : List Nat} (h : Ascending cols) (hlo : ∀ x ∈ cols, c0 + n ≤ x)
    (hn : 1 ≤ n) (hcap : n ≤ cap) :
    (∀ r ∈ packFrom cap c0 n cols, 1 ≤ r.len ∧ r.len ≤ cap ∧ c0 ≤ r.first) ∧
      (packFrom cap c0 n cols).Pairwise fun r r' => r.first + r.len ≤ r'.first := by
  induction cols generalizing c0 n with
  | nil => simp [packFrom, hn, hcap]
  | cons d ds ih =>
    rw [Ascending, List.pairwise_cons] at h
    have hd := hlo d (List.mem_cons_self ..)
    simp only [packFrom]
    split
    · rename_i hc
      exact ih h.2 (fun x hx => by have := h.1 x hx; omega) (by omega) (by omega)
    · have := ih (c0 := d) (n := 1) h.2 (fun x hx => by have := h.1 x hx; omega) (by omega) (by omega)
      refine ⟨?_, ?_⟩
      · intro r hr
        rcases List.mem_cons.1 hr with rfl | hr
        · exact ⟨hn, hcap, Nat.le_refl _⟩
        · have := this.1 r hr; omega
      · refine List.pairwise_cons.2 ⟨?_, this.2⟩
        intro r hr
        have := this.1 r hr
        simp only
        omega

/-- Every run of the greedy packing ends at or beyond the open run's end so far. -/
theorem packFrom_end {cap c0 n : Nat} {cols : List Nat} (h : Ascending cols) (hlo : ∀ x ∈ cols, c0 + n ≤ x) :
    ∀ r ∈ packFrom cap c0 n cols, c0 + n ≤ r.first + r.len := by
  induction cols generalizing c0 n with
  | nil => simp [packFrom]
  | cons d ds ih =>
    rw [Ascending, List.pairwise_cons] at h
    have hd := hlo d (List.mem_cons_self ..)
    simp only [packFrom]
    split
    · intro r hr
      have := ih (c0 := c0) (n := n + 1) h.2 (fun x hx => by have := h.1 x hx; omega) r hr
      omega
    · intro r hr
      rcases List.mem_cons.1 hr with rfl | hr
      · exact Nat.le_refl _
      · have := ih (c0 := d) (n := 1) h.2 (fun x hx => by have := h.1 x hx; omega) r hr
        omega

/-- The greedy runs are maximal: a run whose next column is in the set too is at the cap (R120 d). -/
theorem packFrom_maximal {cap c0 n : Nat} {cols : List Nat} (h : Ascending cols) (hlo : ∀ x ∈ cols, c0 + n ≤ x)
    (hcap : n ≤ cap) (hone : 1 ≤ cap) : ∀ r ∈ packFrom cap c0 n cols, r.first + r.len ∈ cols → r.len = cap := by
  induction cols generalizing c0 n with
  | nil => intro r _ hm; simp at hm
  | cons d ds ih =>
    rw [Ascending, List.pairwise_cons] at h
    have hd := hlo d (List.mem_cons_self ..)
    simp only [packFrom]
    split
    · rename_i hc
      have hlo' : ∀ x ∈ ds, c0 + (n + 1) ≤ x := fun x hx => by have := h.1 x hx; omega
      intro r hr hm
      have hend := packFrom_end h.2 hlo' r hr
      rcases List.mem_cons.1 hm with hm | hm
      · omega
      · exact ih h.2 hlo' (by omega) r hr hm
    · rename_i hc
      have hlo' : ∀ x ∈ ds, d + 1 ≤ x := fun x hx => h.1 x hx
      intro r hr hm
      rcases List.mem_cons.1 hr with rfl | hr
      · rcases List.mem_cons.1 hm with hm | hm
        · simp only at hm ⊢; omega
        · have := h.1 _ hm; simp only at this; omega
      · have hend := packFrom_end h.2 hlo' r hr
        rcases List.mem_cons.1 hm with hm | hm
        · omega
        · exact ih h.2 hlo' hone r hr hm

/-- The union of the runs is exactly the set (R120 a). -/
theorem packCols_covers (cap : Nat) (cols : List Nat) (c : Nat) :
    (∃ r ∈ packCols cap cols, r.covers c) ↔ c ∈ cols := by
  rw [← mem_sortCols, packCols]
  have hs := sortCols_ascending cols
  cases hsc : sortCols cols with
  | nil => simp [packSorted]
  | cons d ds =>
    rw [hsc, Ascending, List.pairwise_cons] at hs
    rw [packSorted, packFrom_covers hs.2 (fun x hx => by have := hs.1 x hx; omega), List.mem_cons]
    constructor
    · rintro (h | h)
      · left; omega
      · exact Or.inr h
    · rintro (h | h)
      · left; omega
      · exact Or.inr h

/-- Runs are disjoint, ascending, not empty and within the cap (R120 a, b, c). -/
theorem packCols_shape {cap : Nat} (hcap : 1 ≤ cap) (cols : List Nat) :
    (∀ r ∈ packCols cap cols, 1 ≤ r.len ∧ r.len ≤ cap) ∧
      (packCols cap cols).Pairwise fun r r' => r.first + r.len ≤ r'.first := by
  have hs := sortCols_ascending cols
  rw [packCols]
  cases hsc : sortCols cols with
  | nil => simp [packSorted]
  | cons d ds =>
    rw [hsc, Ascending, List.pairwise_cons] at hs
    have := packFrom_shape (cap := cap) (c0 := d) (n := 1) hs.2 (fun x hx => by have := hs.1 x hx; omega) (Nat.le_refl 1) hcap
    exact ⟨fun r hr => ⟨(this.1 r hr).1, (this.1 r hr).2.1⟩, this.2⟩

/-- A run ends only at a gap, at the cap, or at the end of the set (R120 d). -/
theorem packCols_maximal {cap : Nat} (hcap : 1 ≤ cap) (cols : List Nat) :
    ∀ r ∈ packCols cap cols, r.first + r.len ∈ cols → r.len = cap := by
  intro r hr
  rw [← mem_sortCols]
  have hs := sortCols_ascending cols
  rw [packCols] at hr
  cases hsc : sortCols cols with
  | nil => rw [hsc] at hr; simp [packSorted] at hr
  | cons d ds =>
    rw [hsc, Ascending, List.pairwise_cons] at hs
    rw [hsc] at hr
    have hlo : ∀ x ∈ ds, d + 1 ≤ x := fun x hx => hs.1 x hx
    intro hm
    have hend := packFrom_end hs.2 hlo r hr
    rcases List.mem_cons.1 hm with hm | hm
    · omega
    · exact packFrom_maximal hs.2 hlo hcap hcap r hr hm

/-- Every run lies inside the page when the set does (R120 e). -/
theorem packCols_inPage {cap : Nat} (hcap : 1 ≤ cap) {cols : List Nat} {w : Nat} (hw : ∀ c ∈ cols, c < w) :
    ∀ r ∈ packCols cap cols, r.first + r.len ≤ w := by
  intro r hr
  have hlen := ((packCols_shape hcap cols).1 r hr).1
  have : r.first + r.len - 1 ∈ cols :=
    (packCols_covers cap cols _).1 ⟨r, hr, by simp only [Run.covers]; omega⟩
  have := hw _ this
  omega

@[simp] theorem packCols_nil (cap : Nat) : packCols cap [] = [] := rfl

end Sys2Proof.Machine
end

