-- ==== Sys2Proof/Laws/Decode.lean ====
section
/-! SUPPORT. The laws of the control-byte table (R65): its nine lines partition the bytes, and classifying the byte of
a command gives the command back. -/

namespace Sys2Proof.Laws

/-- The nine lines of R65 partition 0..255: each byte belongs to exactly one of them. -/
theorem ctrlClasses_partition : ∀ b : BitVec 8, (ctrlClasses.filter fun r => r.holds b).length = 1 := by decide

theorem classifyCtrl_setcollo : ∀ n, classifyCtrl (CtrlCmd.setcollo n).byte = .setcollo n := by decide
theorem classifyCtrl_setcolhi : ∀ n, classifyCtrl (CtrlCmd.setcolhi n).byte = .setcolhi n := by decide
theorem classifyCtrl_cnop20 : ∀ x, classifyCtrl (CtrlCmd.cnop20 x).byte = .cnop20 x := by decide
theorem classifyCtrl_cnop40 : ∀ x, classifyCtrl (CtrlCmd.cnop40 x).byte = .cnop40 x := by decide
theorem classifyCtrl_cnop80 : ∀ x, classifyCtrl (CtrlCmd.cnop80 x).byte = .cnop80 x := by decide
theorem classifyCtrl_cnopA0 : ∀ x, classifyCtrl (CtrlCmd.cnopA0 x).byte = .cnopA0 x := by decide
theorem classifyCtrl_setpage : ∀ p, classifyCtrl (CtrlCmd.setpage p).byte = .setpage p := by decide
theorem classifyCtrl_cnopB8 : ∀ x, classifyCtrl (CtrlCmd.cnopB8 x).byte = .cnopB8 x := by decide
theorem classifyCtrl_cnopC0 : ∀ x, classifyCtrl (CtrlCmd.cnopC0 x).byte = .cnopC0 x := by decide

/-- Classifying a command's byte gives the command. -/
@[simp] theorem classifyCtrl_byte (k : CtrlCmd) : classifyCtrl k.byte = k := by
  cases k with
  | setcollo n => exact classifyCtrl_setcollo n
  | setcolhi n => exact classifyCtrl_setcolhi n
  | cnop20 x => exact classifyCtrl_cnop20 x
  | cnop40 x => exact classifyCtrl_cnop40 x
  | cnop80 x => exact classifyCtrl_cnop80 x
  | cnopA0 x => exact classifyCtrl_cnopA0 x
  | setpage p => exact classifyCtrl_setpage p
  | cnopB8 x => exact classifyCtrl_cnopB8 x
  | cnopC0 x => exact classifyCtrl_cnopC0 x

/-- Encoding the class of a byte gives the byte: no bit of it is dropped. -/
@[simp] theorem byte_classifyCtrl : ∀ b : BitVec 8, (classifyCtrl b).byte = b := by decide

end Sys2Proof.Laws
end

