-- ==== Sys2Proof/Laws/Memory.lean ====
section
/-! SUPPORT. The laws of a framebuffer instance: read after write, the canonical form kept by every write, and that two
canonical instances with the same bytes are the same data. -/

namespace Sys2Proof.Machine

@[simp] theorem Memory.read_nil (n : Nat) : Memory.read [] n = Config.blankByte := rfl

theorem Memory.read_cons (k : Nat) (v : Byte) (m : Memory) (n : Nat) :
    Memory.read ((k, v) :: m) n = if n = k then v else Memory.read m n := rfl

theorem Memory.wfFrom_cons (lo k : Nat) (v : Byte) (m : Memory) :
    Memory.wfFrom lo ((k, v) :: m) = true ↔
      lo ≤ k ∧ k < Config.framebufferBytes ∧ v ≠ Config.blankByte ∧ Memory.wfFrom (k + 1) m = true := by
  simp [Memory.wfFrom, and_assoc]

theorem Memory.wfFrom_mono {lo lo' : Nat} {m : Memory} (h : Memory.wfFrom lo m = true) (hl : lo' ≤ lo) :
    Memory.wfFrom lo' m = true := by
  cases m with
  | nil => rfl
  | cons e m =>
    obtain ⟨k, v⟩ := e
    rw [Memory.wfFrom_cons] at h ⊢
    exact ⟨by omega, h.2⟩

/-- Below the first listed location a canonical instance is blank. -/
theorem Memory.read_below {lo n : Nat} {m : Memory} (h : Memory.wfFrom lo m = true) (hn : n < lo) :
    m.read n = Config.blankByte := by
  induction m generalizing lo with
  | nil => rfl
  | cons e m ih =>
    obtain ⟨k, v⟩ := e
    rw [Memory.wfFrom_cons] at h
    rw [Memory.read_cons, if_neg (by omega)]
    exact ih h.2.2.2 (by omega)

/-- A read after a write, on canonical instances: the written byte there, every other byte as before (R51). -/
theorem Memory.read_write {lo : Nat} {m : Memory} (h : Memory.wfFrom lo m = true) (n : Nat) (w : Byte) (n' : Nat) :
    (m.write n w).read n' = if n' = n then w else m.read n' := by
  induction m generalizing lo with
  | nil =>
    rw [Memory.write]
    split
    · by_cases hn : n' = n <;> simp_all
    · rw [Memory.read_cons]
  | cons e m ih =>
    obtain ⟨k, v⟩ := e
    rw [Memory.wfFrom_cons] at h
    obtain ⟨-, -, -, hm⟩ := h
    simp only [Memory.write]
    split
    · rename_i hlt
      have hb : Memory.read ((k, v) :: m) n = Config.blankByte := by
        rw [Memory.read_cons, if_neg (by omega)]
        exact Memory.read_below hm (by omega)
      split
      · rename_i hw
        by_cases hn : n' = n
        · rw [if_pos hn, hn, hb, hw]
        · rw [if_neg hn]
      · rw [Memory.read_cons]
    · split
      · rename_i heq
        subst heq
        split
        · rename_i hw
          by_cases hn : n' = n
          · rw [if_pos hn, hn, Memory.read_below hm (by omega), hw]
          · rw [if_neg hn, Memory.read_cons, if_neg hn]
        · rw [Memory.read_cons, Memory.read_cons]
          by_cases hn : n' = n <;> simp [hn]
      · rename_i hlt hne
        rw [Memory.read_cons, Memory.read_cons, ih hm]
        by_cases hk : n' = k
        · rw [if_pos hk, if_neg (by omega), if_pos hk]
        · rw [if_neg hk, if_neg hk]

theorem Memory.wfFrom_write {lo n : Nat} {m : Memory} (h : Memory.wfFrom lo m = true) (hl : lo ≤ n)
    (hn : n < Config.framebufferBytes) (w : Byte) : Memory.wfFrom lo (m.write n w) = true := by
  induction m generalizing lo with
  | nil =>
    by_cases hw : w = Config.blankByte
    · simp [Memory.write, hw, Memory.wfFrom]
    · simp only [Memory.write, if_neg hw]
      exact (Memory.wfFrom_cons ..).2 ⟨hl, hn, hw, rfl⟩
  | cons e m ih =>
    obtain ⟨k, v⟩ := e
    have hcons := h
    rw [Memory.wfFrom_cons] at h
    simp only [Memory.write]
    split
    · split
      · exact hcons
      · rename_i hlt hw
        exact (Memory.wfFrom_cons ..).2 ⟨hl, hn, hw, (Memory.wfFrom_cons ..).2 ⟨by omega, h.2⟩⟩
    · split
      · rename_i heq
        subst heq
        split
        · exact Memory.wfFrom_mono h.2.2.2 (by omega)
        · rename_i hw
          exact (Memory.wfFrom_cons ..).2 ⟨hl, hn, hw, h.2.2.2⟩
      · exact (Memory.wfFrom_cons ..).2 ⟨h.1, h.2.1, h.2.2.1, ih h.2.2.2 (by omega)⟩

/-- Every write keeps the canonical form. -/
theorem Memory.wf_write {m : Memory} (h : m.wf = true) {n : Nat} (hn : n < Config.framebufferBytes) (w : Byte) :
    (m.write n w).wf = true := Memory.wfFrom_write h (Nat.zero_le _) hn w

theorem Memory.read_write_wf {m : Memory} (h : m.wf = true) (n : Nat) (w : Byte) (n' : Nat) :
    (m.write n w).read n' = if n' = n then w else m.read n' := Memory.read_write h n w n'

theorem Memory.ext_from {lo : Nat} {m m' : Memory} (h : Memory.wfFrom lo m = true) (h' : Memory.wfFrom lo m' = true)
    (he : ∀ n, n < Config.framebufferBytes → m.read n = m'.read n) : m = m' := by
  induction m generalizing lo m' with
  | nil =>
    cases m' with
    | nil => rfl
    | cons e m' =>
      obtain ⟨k, v⟩ := e
      rw [Memory.wfFrom_cons] at h'
      have := he k h'.2.1
      rw [Memory.read_nil, Memory.read_cons, if_pos rfl] at this
      exact absurd this.symm h'.2.2.1
  | cons e m ih =>
    obtain ⟨k, v⟩ := e
    rw [Memory.wfFrom_cons] at h
    cases m' with
    | nil =>
      have := he k h.2.1
      rw [Memory.read_nil, Memory.read_cons, if_pos rfl] at this
      exact absurd this h.2.2.1
    | cons e' m' =>
      obtain ⟨k', v'⟩ := e'
      rw [Memory.wfFrom_cons] at h'
      have hk : k = k' := by
        by_contra hne
        rcases Nat.lt_or_gt_of_ne hne with hlt | hlt
        · have := he k h.2.1
          rw [Memory.read_cons, if_pos rfl, Memory.read_cons, if_neg hne,
            Memory.read_below h'.2.2.2 (by omega)] at this
          exact h.2.2.1 this
        · have := he k' h'.2.1
          rw [Memory.read_cons, if_neg (Ne.symm hne), Memory.read_cons, if_pos rfl,
            Memory.read_below h.2.2.2 (by omega)] at this
          exact h'.2.2.1 this.symm
      subst hk
      have hv : v = v' := by simpa [Memory.read_cons] using he k h.2.1
      subst hv
      have : m = m' := ih h.2.2.2 h'.2.2.2 fun n hn => by
        by_cases hnk : n = k
        · rw [hnk, Memory.read_below h.2.2.2 (by omega), Memory.read_below h'.2.2.2 (by omega)]
        · simpa [Memory.read_cons, hnk] using he n hn
      rw [this]

/-- Equal memories are equal data: two canonical instances with the same 2112 bytes are the same list. -/
theorem Memory.ext {m m' : Memory} (h : m.wf = true) (h' : m'.wf = true)
    (he : ∀ n, n < Config.framebufferBytes → m.read n = m'.read n) : m = m' := Memory.ext_from h h' he

/-- Writing the byte that is already there changes nothing (R91). -/
theorem Memory.write_read {m : Memory} (h : m.wf = true) {n : Nat} (hn : n < Config.framebufferBytes) :
    m.write n (m.read n) = m :=
  Memory.ext (Memory.wf_write h hn _) h fun n' _ => by
    rw [Memory.read_write_wf h]; split <;> simp_all

/-- Writes to different locations commute. -/
theorem Memory.write_comm {m : Memory} (h : m.wf = true) {n n' : Nat} (hn : n < Config.framebufferBytes)
    (hn' : n' < Config.framebufferBytes) (hne : n ≠ n') (w w' : Byte) :
    (m.write n w).write n' w' = (m.write n' w').write n w :=
  Memory.ext (Memory.wf_write (Memory.wf_write h hn _) hn' _) (Memory.wf_write (Memory.wf_write h hn' _) hn _)
    fun k _ => by
      rw [Memory.read_write_wf (Memory.wf_write h hn _), Memory.read_write_wf (Memory.wf_write h hn' _),
        Memory.read_write_wf h, Memory.read_write_wf h]
      split <;> split <;> first | rfl | (exfalso; omega)

theorem Memory.maskWrite_fst (m : Memory) (n : Nat) (mask desired : Byte) :
    (m.maskWrite n mask desired).1 = m.write n (maskedByte (m.read n) mask desired) := rfl

/-- The masked write keeps the canonical form. -/
theorem Memory.wf_maskWrite {m : Memory} (h : m.wf = true) {n : Nat} (hn : n < Config.framebufferBytes)
    (mask desired : Byte) : (m.maskWrite n mask desired).1.wf = true := Memory.wf_write h hn _

theorem Memory.wf_nil : Memory.wf [] = true := rfl

/-- The instances after reset are canonical. -/
theorem State.reset_fb_wf (b : FbInst) : (State.reset.fb b).wf = true := by cases b <;> rfl

end Sys2Proof.Machine
end

