-- ==== Sys2Proof/Laws/State.lean ====
section
/-! SUPPORT. The small lemmas of the state's accessors and updates: one for each field of each update, so that no
later proof unfolds a record update. -/

namespace Sys2Proof.Machine

/-! ### Displays and instances -/

/-- The other display. -/
def otherDisplay : Display → Display
  | .top => .bottom
  | .bottom => .top

theorem eq_otherDisplay {a b : Display} (h : b ≠ a) : b = otherDisplay a := by
  cases a <;> cases b <;> simp_all [otherDisplay]

/-! ### Cursor updates -/

@[simp] theorem Cursor.setPage_page (c : Cursor) (p : BitVec 3) : (c.setPage p).page = p := rfl
@[simp] theorem Cursor.setPage_col (c : Cursor) (p : BitVec 3) : (c.setPage p).col = c.col := rfl
@[simp] theorem Cursor.setColLo_page (c : Cursor) (n : BitVec 4) : (c.setColLo n).page = c.page := rfl
@[simp] theorem Cursor.setColHi_page (c : Cursor) (n : BitVec 4) : (c.setColHi n).page = c.page := rfl
@[simp] theorem Cursor.advance_page (c : Cursor) : c.advance.page = c.page := rfl
@[simp] theorem Cursor.advance_col (c : Cursor) : c.advance.col = c.col + 1 := rfl

/-- The increment on the column's value: modulo 256 (R173). -/
theorem Cursor.advance_toNat (c : Cursor) : c.advance.col.toNat = (c.col.toNat + 1) % 256 := by
  rw [Cursor.advance_col, BitVec.toNat_add]; rfl

/-! ### Decoder updates -/

@[simp] theorem Decoder.cursor_setCursor (d : Decoder) (c : Cursor) (a : Display) :
    (d.setCursor c a).cursor a = c := by cases a <;> rfl

theorem Decoder.cursor_setCursor_ne (d : Decoder) (c : Cursor) {a b : Display} (h : b ≠ a) :
    (d.setCursor c a).cursor b = d.cursor b := by cases a <;> cases b <;> first | rfl | exact absurd rfl h

@[simp] theorem Decoder.setCursor_fb (d : Decoder) (c : Cursor) (a : Display) : (d.setCursor c a).fb = d.fb := by
  cases a <;> rfl

@[simp] theorem Decoder.setCursor_drows (d : Decoder) (c : Cursor) (a : Display) :
    (d.setCursor c a).drows = d.drows := by cases a <;> rfl

@[simp] theorem Decoder.setCursor_cursor (d : Decoder) (a : Display) : d.setCursor (d.cursor a) a = d := by
  cases a <;> rfl

@[simp] theorem Decoder.setCursor_setCursor (d : Decoder) (c c' : Cursor) (a : Display) :
    (d.setCursor c a).setCursor c' a = d.setCursor c' a := by cases a <;> rfl

theorem Decoder.setCursor_comm (d : Decoder) (c c' : Cursor) {a b : Display} (h : a ≠ b) :
    (d.setCursor c a).setCursor c' b = (d.setCursor c' b).setCursor c a := by
  cases a <;> cases b <;> first | rfl | exact absurd rfl h

/-- Two decoders are equal when their framebuffers, both cursors and counters are. -/
theorem Decoder.eq_of_fields {d d' : Decoder} (hf : d.fb = d'.fb) (hc : ∀ a, d.cursor a = d'.cursor a)
    (hr : d.drows = d'.drows) : d = d' := by
  have ht := hc .top
  have hb := hc .bottom
  cases d; cases d'
  simp_all [Decoder.cursor]

/-! ### State updates -/

@[simp] theorem State.afterRow_dec (s : State) (d : Decoder) : (s.afterRow d).dec = d := rfl
@[simp] theorem State.afterRow_enc (s : State) (d : Decoder) : (s.afterRow d).enc = s.enc := rfl
@[simp] theorem State.afterRow_cfg (s : State) (d : Decoder) : (s.afterRow d).cfg = s.cfg := rfl
@[simp] theorem State.afterRow_input (s : State) (d : Decoder) : (s.afterRow d).ports.input = s.ports.input := rfl
@[simp] theorem State.afterRow_result (s : State) (d : Decoder) : (s.afterRow d).ports.result = s.ports.result := rfl
@[simp] theorem State.afterRow_draws (s : State) (d : Decoder) : (s.afterRow d).ports.draws = s.ports.draws := rfl
@[simp] theorem State.afterRow_dataRowDone (s : State) (d : Decoder) :
    (s.afterRow d).ports.dataRowDone = (d.drows != s.dec.drows) := rfl

@[simp] theorem State.answer_dec (s : State) (r : Result) : (s.answer r).dec = s.dec := rfl
@[simp] theorem State.answer_enc (s : State) (r : Result) : (s.answer r).enc = s.enc := rfl
@[simp] theorem State.answer_cfg (s : State) (r : Result) : (s.answer r).cfg = s.cfg := rfl
@[simp] theorem State.answer_input (s : State) (r : Result) : (s.answer r).ports.input = s.ports.input := rfl
@[simp] theorem State.answer_result (s : State) (r : Result) : (s.answer r).ports.result = r := rfl
@[simp] theorem State.answer_dataRowDone (s : State) (r : Result) :
    (s.answer r).ports.dataRowDone = s.ports.dataRowDone := rfl

@[simp] theorem State.answer_draws (s : State) (r : Result) : (s.answer r).ports.draws = s.ports.draws := rfl

@[simp] theorem State.answerFree_dec (s : State) (f : Nat → Result) : (s.answerFree f).dec = s.dec := rfl
@[simp] theorem State.answerFree_enc (s : State) (f : Nat → Result) : (s.answerFree f).enc = s.enc := rfl
@[simp] theorem State.answerFree_cfg (s : State) (f : Nat → Result) : (s.answerFree f).cfg = s.cfg := rfl
@[simp] theorem State.answerFree_input (s : State) (f : Nat → Result) :
    (s.answerFree f).ports.input = s.ports.input := rfl
@[simp] theorem State.answerFree_result (s : State) (f : Nat → Result) :
    (s.answerFree f).ports.result = f s.ports.draws := rfl
@[simp] theorem State.answerFree_dataRowDone (s : State) (f : Nat → Result) :
    (s.answerFree f).ports.dataRowDone = s.ports.dataRowDone := rfl
@[simp] theorem State.answerFree_draws (s : State) (f : Nat → Result) :
    (s.answerFree f).ports.draws = s.ports.draws + 1 := rfl

@[simp] theorem State.accept_dec (s : State) (l : List Input) : (s.accept l).dec = s.dec := rfl
@[simp] theorem State.accept_enc (s : State) (l : List Input) : (s.accept l).enc = s.enc := rfl
@[simp] theorem State.accept_cfg (s : State) (l : List Input) : (s.accept l).cfg = s.cfg := rfl
@[simp] theorem State.accept_input (s : State) (l : List Input) : (s.accept l).ports.input = l := rfl
@[simp] theorem State.accept_result (s : State) (l : List Input) : (s.accept l).ports.result = .none := rfl
@[simp] theorem State.accept_dataRowDone (s : State) (l : List Input) :
    (s.accept l).ports.dataRowDone = s.ports.dataRowDone := rfl

@[simp] theorem State.accept_draws (s : State) (l : List Input) : (s.accept l).ports.draws = s.ports.draws := rfl

@[simp] theorem State.present_dec (s : State) (x : Input) : (s.present x).dec = s.dec := rfl
@[simp] theorem State.present_enc (s : State) (x : Input) : (s.present x).enc = s.enc := rfl
@[simp] theorem State.present_cfg (s : State) (x : Input) : (s.present x).cfg = s.cfg := rfl
@[simp] theorem State.present_input (s : State) (x : Input) :
    (s.present x).ports.input = x :: s.ports.input := rfl

@[simp] theorem State.fb_setFb (s : State) (m : Memory) (b : FbInst) : (s.setFb m b).fb b = m := by cases b <;> rfl

theorem State.fb_setFb_ne (s : State) (m : Memory) {b b' : FbInst} (h : b' ≠ b) : (s.setFb m b).fb b' = s.fb b' := by
  cases b <;> cases b' <;> first | rfl | exact absurd rfl h

@[simp] theorem State.setFb_cfg (s : State) (m : Memory) (b : FbInst) : (s.setFb m b).cfg = s.cfg := by
  cases b <;> rfl
@[simp] theorem State.setFb_ports (s : State) (m : Memory) (b : FbInst) : (s.setFb m b).ports = s.ports := by
  cases b <;> rfl
@[simp] theorem State.setFb_cursor (s : State) (m : Memory) (b : FbInst) (a : Display) :
    (s.setFb m b).dec.cursor a = s.dec.cursor a := by cases b <;> cases a <;> rfl
@[simp] theorem State.setFb_drows (s : State) (m : Memory) (b : FbInst) : (s.setFb m b).dec.drows = s.dec.drows := by
  cases b <;> rfl
@[simp] theorem State.setFb_acc (s : State) (m : Memory) (b : FbInst) : (s.setFb m b).enc.acc = s.enc.acc := by
  cases b <;> rfl
@[simp] theorem State.setFb_chg (s : State) (m : Memory) (b : FbInst) : (s.setFb m b).enc.chg = s.enc.chg := by
  cases b <;> rfl
@[simp] theorem State.setFb_out (s : State) (m : Memory) (b : FbInst) : (s.setFb m b).enc.out = s.enc.out := by
  cases b <;> rfl

/-! ### Outcomes of decoder operations -/

/-- What a decoder operation can answer: the next state of an `ok`, the refusal of an `error`. -/
@[simp] theorem State.decoderOutcome_next_iff (s t : State) (r : Except Refusal Decoder) :
    s.decoderOutcome r = .next t ↔ ∃ d, r = .ok d ∧ t = s.afterRow d := by
  cases r <;> simp [State.decoderOutcome, eq_comm]

@[simp] theorem State.decoderOutcome_ok (s : State) (d : Decoder) :
    s.decoderOutcome (.ok d) = .next (s.afterRow d) := rfl

@[simp] theorem State.decoderOutcome_error (s : State) (e : Refusal) : s.decoderOutcome (.error e) = .refused e := rfl

/-- Everything that fetching an operation by its name can answer with. -/
theorem fetch_op_ok {cfg : Settings} {i j : Instr} :
    fetch cfg (.op i) = .ok j ↔
      j = i ∧ i.isInternalStep = false ∧ (i.isDecWrite = true → cfg.decWrites = .host) := by
  cases h : i.isInternalStep <;> cases h' : i.isDecWrite <;> cases h'' : cfg.decWrites <;>
    simp [fetch, h, h', h'', @eq_comm Instr i j]

/-- Fetching bytes does not read the configuration. -/
theorem fetch_bytes_ok {cfg : Settings} {f : Format} {bs : List Byte} {j : Instr} :
    fetch cfg (.bytes f bs) = .ok j ↔ decode f bs = .ok j := by
  simp only [fetch]; split <;> simp_all

end Sys2Proof.Machine
end

