-- ==== Sys2Proof/Laws/Operands.lean ====
section
/-! SUPPORT. The laws of the operand forms: locations are numbered without clash inside the 2112 bytes; what PIX2ADDR
names; what the byte operations do bit by bit. -/

namespace Sys2Proof.Machine

/-! ### Displays -/

@[simp] theorem selectDisplay_busAddr (a : Display) : selectDisplay (busAddr a) = some a := by cases a <;> rfl

theorem selectDisplay_eq_some {addr : Byte} {a : Display} : selectDisplay addr = some a ↔ addr = busAddr a := by
  constructor
  · intro h
    simp only [selectDisplay] at h
    split at h
    · cases h; assumption
    · split at h
      · cases h; assumption
      · cases h
  · rintro rfl; simp

theorem selectDisplay_eq_none {addr : Byte} : selectDisplay addr = none ↔ selectsDisplay addr = false := by
  simp only [selectDisplay, selectsDisplay]
  split
  · simp_all
  · split <;> simp_all

theorem Display.index_le (a : Display) : Display.index a ≤ 1 := by cases a <;> simp [Display.index]

theorem Display.index_inj {a b : Display} : Display.index a = Display.index b ↔ a = b := by
  cases a <;> cases b <;> simp [Display.index]

/-! ### Locations -/

theorem fbAddr_lt (a : Display) {p c : Nat} (hp : p < 8) (hc : c < 132) : fbAddr a p c < Config.framebufferBytes := by
  have := Display.index_le a
  simp only [fbAddr, Config.framebufferBytes]
  omega

/-- Two existing locations have the same number only if they are the same location. -/
theorem fbAddr_inj {a b : Display} {p c p' c' : Nat} (hp : p < 8) (hc : c < 132) (hp' : p' < 8) (hc' : c' < 132) :
    fbAddr a p c = fbAddr b p' c' ↔ a = b ∧ p = p' ∧ c = c' := by
  constructor
  · intro h
    simp only [fbAddr] at h
    have ha := Display.index_le a
    have hb := Display.index_le b
    have hi : Display.index a = Display.index b := by omega
    exact ⟨Display.index_inj.1 hi, by omega, by omega⟩
  · rintro ⟨rfl, rfl, rfl⟩; rfl

/-- Every number below 2112 is a location's. -/
theorem exists_fbAddr {n : Nat} (hn : n < Config.framebufferBytes) :
    ∃ a p c, p < 8 ∧ c < 132 ∧ n = fbAddr a p c := by
  simp only [Config.framebufferBytes] at hn
  by_cases h : n < 1056
  · exact ⟨.top, n / 132, n % 132, by omega, by omega, by simp only [fbAddr, Display.index]; omega⟩
  · refine ⟨.bottom, (n - 1056) / 132, n % 132, by omega, by omega, ?_⟩
    simp only [fbAddr, Display.index]
    omega

theorem ByteKey.addr_lt (k : ByteKey) : k.addr < Config.framebufferBytes := fbAddr_lt _ k.page.isLt k.col.isLt

theorem ByteKey.addr_inj {k k' : ByteKey} : k.addr = k'.addr ↔ k = k' := by
  simp only [ByteKey.addr]
  rw [fbAddr_inj k.page.isLt k.col.isLt k'.page.isLt k'.col.isLt]
  cases k; cases k'
  simp [Fin.ext_iff]

theorem byteAt?_eq_some {a : Display} {p c : Nat} {k : ByteKey} :
    byteAt? a p c = some k ↔ k.disp = a ∧ k.page.val = p ∧ k.col.val = c := by
  constructor
  · intro h
    simp only [byteAt?] at h
    split at h
    · split at h
      · cases h; simp
      · cases h
    · cases h
  · rintro ⟨rfl, rfl, rfl⟩
    simp [byteAt?, k.page.isLt, k.col.isLt]

theorem byteAt?_of_lt (a : Display) {p c : Nat} (hp : p < 8) (hc : c < 132) :
    byteAt? a p c = some ⟨a, ⟨p, hp⟩, ⟨c, hc⟩⟩ := byteAt?_eq_some.2 ⟨rfl, rfl, rfl⟩

theorem byteAt?_eq_none {a : Display} {p c : Nat} : byteAt? a p c = none ↔ inFramebuffer p c = false := by
  simp only [byteAt?, inFramebuffer]
  split
  · split <;> simp_all
  · simp_all

theorem inFramebuffer_iff {p c : Nat} : inFramebuffer p c = true ↔ p < 8 ∧ c < 132 := by simp [inFramebuffer]

theorem onCanvas_iff {x y : Nat} : onCanvas x y = true ↔ x < 132 ∧ y < 128 := by simp [onCanvas]

theorem byteAt?_addr {a : Display} {p c : Nat} {k : ByteKey} (h : byteAt? a p c = some k) : k.addr = fbAddr a p c := by
  obtain ⟨rfl, rfl, rfl⟩ := byteAt?_eq_some.1 h
  rfl

/-- The cursor's effective address exists exactly when the column is at most 131: "The test on p is always true"
(R171). -/
theorem Cursor.target?_eq_some {c : Cursor} {a : Display} {k : ByteKey} :
    c.target? a = some k ↔ k.disp = a ∧ k.page.val = c.page.toNat ∧ k.col.val = c.col.toNat := byteAt?_eq_some

theorem Cursor.target?_eq_none {c : Cursor} {a : Display} : c.target? a = none ↔ 131 < c.col.toNat := by
  rw [Cursor.target?, byteAt?_eq_none]
  have := c.page.isLt
  simp only [inFramebuffer, Config.pages, Config.columns, Bool.and_eq_false_iff, decide_eq_false_iff_not]
  omega

/-! ### Pixels -/

theorem pixelRow_lt {y : Nat} (hy : y < 128) : pixelRow y < 64 := by
  simp only [pixelRow, Config.halfRows]
  split <;> omega

/-- What PIX2ADDR names (R100). -/
theorem pixelAddr?_of_canvas {x y : Nat} (hx : x < 132) (hy : y < 128) :
    pixelAddr? x y = some
      ⟨⟨pixelHalf y, ⟨pixelRow y / 8, Nat.div_lt_of_lt_mul (pixelRow_lt hy)⟩, ⟨x, hx⟩⟩, pixelRow y % 8⟩ := by
  have hp : pixelRow y / 8 < 8 := Nat.div_lt_of_lt_mul (pixelRow_lt hy)
  simp only [pixelAddr?, onCanvas_iff.2 ⟨hx, hy⟩, if_true, byteAt?_of_lt _ hp hx]

theorem pixelAddr?_eq_none {x y : Nat} : pixelAddr? x y = none ↔ onCanvas x y = false := by
  constructor
  · intro h
    by_contra hc
    obtain ⟨hx, hy⟩ := onCanvas_iff.1 (by simpa using hc)
    rw [pixelAddr?_of_canvas hx hy] at h
    cases h
  · intro h
    simp [pixelAddr?, h]

/-- The pixel that a bit of a byte key shows (R102). -/
theorem pixelAddr?_eq_some {x y : Nat} {q : PixelAddr} :
    pixelAddr? x y = some q ↔ q.bit < 8 ∧ (x, y) = addrPixel q.key.disp q.key.page.val q.bit q.key.col.val := by
  constructor
  · intro h
    have hc : onCanvas x y = true := by
      by_contra hn
      rw [pixelAddr?_eq_none.2 (by simpa using hn)] at h
      cases h
    obtain ⟨hx, hy⟩ := onCanvas_iff.1 hc
    rw [pixelAddr?_of_canvas hx hy] at h
    cases h
    refine ⟨Nat.mod_lt _ (by omega), ?_⟩
    simp only [pixelHalf, pixelRow, Config.halfRows]
    by_cases h64 : y < 64
    · simp only [if_pos h64, addrPixel, Prod.mk.injEq, true_and]; omega
    · simp only [if_neg h64, addrPixel, Prod.mk.injEq, true_and, Config.halfRows]; omega
  · rintro ⟨hb, hxy⟩
    obtain ⟨⟨a, ⟨p, hp⟩, ⟨c, hc⟩⟩, i⟩ := q
    simp only [Config.pages, Config.columns] at hp hc hb hxy
    cases a
    · simp only [addrPixel, Prod.mk.injEq] at hxy
      obtain ⟨rfl, rfl⟩ := hxy
      have h64 : p * 8 + i < 64 := by omega
      rw [pixelAddr?_of_canvas hc (by omega)]
      simp only [pixelHalf, pixelRow, Config.halfRows, if_pos h64]
      simp only [Option.some.injEq, PixelAddr.mk.injEq, ByteKey.mk.injEq, Fin.mk.injEq, true_and, and_true]
      omega
    · simp only [addrPixel, Prod.mk.injEq, Config.halfRows] at hxy
      obtain ⟨rfl, rfl⟩ := hxy
      have h64 : ¬ 64 + p * 8 + i < 64 := by omega
      rw [pixelAddr?_of_canvas hc (by omega)]
      simp only [pixelHalf, pixelRow, Config.halfRows, if_neg h64]
      simp only [Option.some.injEq, PixelAddr.mk.injEq, ByteKey.mk.injEq, Fin.mk.injEq, true_and, and_true]
      omega

/-- Different pixels are different bits (R102). -/
theorem pixelAddr?_inj {x y x' y' : Nat} {q : PixelAddr} (h : pixelAddr? x y = some q)
    (h' : pixelAddr? x' y' = some q) : x = x' ∧ y = y' := by
  have := (pixelAddr?_eq_some.1 h).2.trans (pixelAddr?_eq_some.1 h').2.symm
  simpa using this

/-! ### Bytes, bit by bit -/

/-- A masked byte takes the desired bit where the mask is set and keeps the old bit elsewhere (R93 a, b). -/
@[simp] theorem maskedByte_getLsbD (old mask desired : Byte) (i : Nat) :
    (maskedByte old mask desired).getLsbD i = if mask.getLsbD i then desired.getLsbD i else old.getLsbD i := by
  simp only [maskedByte, BitVec.getLsbD_or, BitVec.getLsbD_and, BitVec.getLsbD_not]
  by_cases hi : i < 8
  · cases mask.getLsbD i <;> simp [hi]
  · simp [BitVec.getLsbD_of_ge _ _ (Nat.le_of_not_lt hi)]

/-- An empty mask leaves the byte (R92). -/
@[simp] theorem maskedByte_zero (old desired : Byte) : maskedByte old 0 desired = old := by
  apply BitVec.eq_of_getLsbD_eq
  intro i _
  rw [maskedByte_getLsbD]
  simp

theorem bitMask_getLsbD {i : Nat} (hi : i < 8) (j : Nat) : (bitMask i).getLsbD j = decide (j = i) := by
  simp only [bitMask, BitVec.getLsbD_shiftLeft]
  by_cases hj : j = i
  · subst hj; simp [hi]
  · simp only [hj, decide_false]
    by_cases hlt : j < i
    · simp [hlt]
    · have : j - i ≠ 0 := by omega
      simp [BitVec.getLsbD_one, this]

theorem bitValue_getLsbD (on : Bool) {i : Nat} (hi : i < 8) (j : Nat) :
    (bitValue on i).getLsbD j = (on && decide (j = i)) := by
  cases on
  · simp [bitValue]
  · simpa [bitValue, bitMask] using bitMask_getLsbD hi j

end Sys2Proof.Machine
end

