-- ==== Sys2Proof/Laws/Decoder.lean ====
section
/-! SUPPORT. What each decoder operation can do, said once: a control command touches one cursor and nothing else; a
data byte touches one byte and one cursor; a row is ignored, refused by a parameter, or one of the two. -/

namespace Sys2Proof.Machine

/-! ### Control commands -/

@[simp] theorem Decoder.ctrlCmd_fb (d : Decoder) (a : Display) (k : CtrlCmd) : (d.ctrlCmd a k).fb = d.fb := by
  cases k <;> simp [Decoder.ctrlCmd]

@[simp] theorem Decoder.ctrlCmd_drows (d : Decoder) (a : Display) (k : CtrlCmd) :
    (d.ctrlCmd a k).drows = d.drows := by cases k <;> simp [Decoder.ctrlCmd]

theorem Decoder.ctrlCmd_cursor_ne (d : Decoder) {a b : Display} (h : b ≠ a) (k : CtrlCmd) :
    (d.ctrlCmd a k).cursor b = d.cursor b := by
  cases k <;> simp [Decoder.ctrlCmd, Decoder.cursor_setCursor_ne d _ h]

/-- The cursor after a command depends on the cursor before it and on nothing else. -/
def Cursor.ctrlCmd (c : Cursor) : CtrlCmd → Cursor
  | .setcollo n => c.setColLo n
  | .setcolhi n => c.setColHi n
  | .setpage p => c.setPage p
  | .cnop20 _ => c
  | .cnop40 _ => c
  | .cnop80 _ => c
  | .cnopA0 _ => c
  | .cnopB8 _ => c
  | .cnopC0 _ => c

theorem Decoder.ctrlCmd_eq (d : Decoder) (a : Display) (k : CtrlCmd) :
    d.ctrlCmd a k = d.setCursor ((d.cursor a).ctrlCmd k) a := by
  cases k <;> simp [Decoder.ctrlCmd, Cursor.ctrlCmd]

/-- A control row is one load of the display's cursor. -/
theorem Decoder.ctrlRow_eq (d : Decoder) (a : Display) (body : List Byte) :
    d.ctrlRow a body = d.setCursor (body.foldl (fun c b => c.ctrlCmd (classifyCtrl b)) (d.cursor a)) a := by
  induction body generalizing d with
  | nil => simp [Decoder.ctrlRow]
  | cons b body ih => rw [Decoder.ctrlRow, ih, Decoder.ctrlCmd_eq]; simp

@[simp] theorem Decoder.ctrlRow_fb (d : Decoder) (a : Display) (body : List Byte) :
    (d.ctrlRow a body).fb = d.fb := by simp [Decoder.ctrlRow_eq]

@[simp] theorem Decoder.ctrlRow_drows (d : Decoder) (a : Display) (body : List Byte) :
    (d.ctrlRow a body).drows = d.drows := by simp [Decoder.ctrlRow_eq]

theorem Decoder.ctrlRow_cursor_ne (d : Decoder) {a b : Display} (h : b ≠ a) (body : List Byte) :
    (d.ctrlRow a body).cursor b = d.cursor b := by
  rw [Decoder.ctrlRow_eq, Decoder.cursor_setCursor_ne _ _ h]

theorem Decoder.ctrlRow_append (d : Decoder) (a : Display) (x y : List Byte) :
    d.ctrlRow a (x ++ y) = (d.ctrlRow a x).ctrlRow a y := by
  induction x generalizing d with
  | nil => rfl
  | cons b x ih => exact ih _

/-- Loading both nibbles leaves exactly the loaded column, whatever the register held (R69, R160). -/
theorem Cursor.load_col (c : Cursor) (l h : BitVec 4) :
    ((c.setColLo l).setColHi h).col = h ++ l := by
  simp only [Cursor.setColHi, Cursor.setColLo]
  apply BitVec.eq_of_getLsbD_eq
  intro i hi
  rw [BitVec.getLsbD_append]
  interval_cases i <;> simp

/-- The template of R72 sets the cursor to exactly (p, {h, l}), from any cursor (R74). -/
theorem Decoder.ctrlRow_setcursor (d : Decoder) (a : Display) (p : BitVec 3) (l h : BitVec 4) :
    d.ctrlRow a (setcursorPayload p l h).tail = d.setCursor ⟨p, h ++ l⟩ a := by
  rw [Decoder.ctrlRow_eq]
  congr 1
  simp only [setcursorPayload, List.tail_cons, List.foldl_cons, List.foldl_nil, Laws.classifyCtrl_byte,
    Cursor.ctrlCmd]
  rw [← Cursor.load_col ((d.cursor a).setPage p) l h]
  rfl

/-! ### Data bytes -/

@[simp] theorem Decoder.storeAtCursor_cursor (d : Decoder) (a b : Display) (v : Byte) :
    (d.storeAtCursor a v).cursor b = d.cursor b := by
  unfold Decoder.storeAtCursor
  split <;> cases b <;> rfl

@[simp] theorem Decoder.storeAtCursor_drows (d : Decoder) (a : Display) (v : Byte) :
    (d.storeAtCursor a v).drows = d.drows := by
  unfold Decoder.storeAtCursor
  split <;> rfl

theorem Decoder.storeAtCursor_wf {d : Decoder} (h : d.fb.wf = true) (a : Display) (v : Byte) :
    (d.storeAtCursor a v).fb.wf = true := by
  unfold Decoder.storeAtCursor
  split
  · exact Memory.wf_write h (ByteKey.addr_lt _) _
  · exact h

/-- The bytes after a store at the cursor: the written byte at the cursor's location if it exists, every other byte
as before (R171). -/
theorem Decoder.storeAtCursor_read {d : Decoder} (h : d.fb.wf = true) (a : Display) (v : Byte) (n : Nat) :
    (d.storeAtCursor a v).fb.read n =
      if (d.cursor a).col.toNat < 132 ∧ n = fbAddr a (d.cursor a).page.toNat (d.cursor a).col.toNat then v
      else d.fb.read n := by
  unfold Decoder.storeAtCursor
  split
  · rename_i k hk
    obtain ⟨hd, hp, hc⟩ := Cursor.target?_eq_some.1 hk
    rw [Memory.read_write_wf h]
    have hlt : (d.cursor a).col.toNat < 132 := hc ▸ k.col.isLt
    simp [hlt, ByteKey.addr, hd, hp, hc]
  · rename_i hk
    rw [if_neg]
    have := Cursor.target?_eq_none.1 hk
    omega

@[simp] theorem Decoder.dataByte_cursor (d : Decoder) (a : Display) (v : Byte) :
    (d.dataByte a v).cursor a = (d.cursor a).advance := by simp [Decoder.dataByte]

theorem Decoder.dataByte_cursor_ne (d : Decoder) {a b : Display} (h : b ≠ a) (v : Byte) :
    (d.dataByte a v).cursor b = d.cursor b := by
  rw [Decoder.dataByte, Decoder.cursor_setCursor_ne _ _ h, Decoder.storeAtCursor_cursor]

@[simp] theorem Decoder.dataByte_drows (d : Decoder) (a : Display) (v : Byte) : (d.dataByte a v).drows = d.drows := by
  simp [Decoder.dataByte]

theorem Decoder.dataByte_fb (d : Decoder) (a : Display) (v : Byte) :
    (d.dataByte a v).fb = (d.storeAtCursor a v).fb := by simp [Decoder.dataByte]

/-- WDATA answers the written-and-advanced decoder, or the overflow refusal and nothing else. -/
theorem Decoder.wdata_eq (cfg : Settings) (d : Decoder) (a : Display) (v : Byte) :
    d.wdata cfg a v = .ok (d.dataByte a v) ∨
      (d.wdata cfg a v = .error .colOverflow ∧ cfg.colOverflow = .refuse ∧ (d.cursor a).col = 255) := by
  unfold Decoder.wdata
  split
  · right; simpa using ‹_ ∧ _›
  · left; rfl

theorem Decoder.wdata_ok {cfg : Settings} {d : Decoder} {a : Display}
    (h : cfg.colOverflow = .wrap256 ∨ (d.cursor a).col ≠ 255) (v : Byte) :
    d.wdata cfg a v = .ok (d.dataByte a v) := by
  unfold Decoder.wdata
  rw [if_neg]
  rintro ⟨h1, h2⟩
  rcases h with h | h <;> simp_all

/-- The decoder after the bytes of a data-row body, none of them refused. -/
def Decoder.dataFold (d : Decoder) (a : Display) (body : List Byte) : Decoder :=
  body.foldl (fun d v => d.dataByte a v) d

@[simp] theorem Decoder.dataFold_nil (d : Decoder) (a : Display) : d.dataFold a [] = d := rfl

@[simp] theorem Decoder.dataFold_cons (d : Decoder) (a : Display) (v : Byte) (vs : List Byte) :
    d.dataFold a (v :: vs) = (d.dataByte a v).dataFold a vs := rfl

theorem Decoder.dataFold_append (d : Decoder) (a : Display) (x y : List Byte) :
    d.dataFold a (x ++ y) = (d.dataFold a x).dataFold a y := List.foldl_append

/-- A data-row body answers its fold, or the overflow refusal and nothing else. -/
theorem Decoder.dataBytes_eq (cfg : Settings) (d : Decoder) (a : Display) (body : List Byte) :
    d.dataBytes cfg a body = .ok (d.dataFold a body) ∨
      (d.dataBytes cfg a body = .error .colOverflow ∧ cfg.colOverflow = .refuse) := by
  induction body generalizing d with
  | nil => left; rfl
  | cons v vs ih =>
    rw [Decoder.dataBytes]
    rcases Decoder.wdata_eq cfg d a v with h | ⟨h, hr, -⟩
    · rw [h]; exact ih _
    · rw [h]; right; exact ⟨rfl, hr⟩

theorem Decoder.dataBytes_ok {cfg : Settings} (h : cfg.colOverflow = .wrap256) (d : Decoder) (a : Display)
    (body : List Byte) : d.dataBytes cfg a body = .ok (d.dataFold a body) := by
  rcases Decoder.dataBytes_eq cfg d a body with h' | ⟨-, h'⟩
  · exact h'
  · rw [h] at h'; cases h'

/-- Whatever the parameter, a body that does not carry the column past 255 is not refused. -/
theorem Decoder.dataBytes_ok_of_le (cfg : Settings) {d : Decoder} {a : Display} {body : List Byte}
    (h : (d.cursor a).col.toNat + body.length ≤ 255) : d.dataBytes cfg a body = .ok (d.dataFold a body) := by
  induction body generalizing d with
  | nil => rfl
  | cons v vs ih =>
    simp only [List.length_cons] at h
    have hne : (d.cursor a).col ≠ 255 := by
      intro he; rw [he] at h; simp at h
    have hcol : ((d.dataByte a v).cursor a).col.toNat = (d.cursor a).col.toNat + 1 := by
      rw [Decoder.dataByte_cursor, Cursor.advance_toNat]
      omega
    rw [Decoder.dataBytes, Decoder.wdata_ok (Or.inr hne)]
    exact ih (by rw [hcol]; omega)

/-- Under `COL_OVERFLOW` = refuse a body that carries a byte to column 255 is refused whole (D3). -/
theorem Decoder.dataBytes_refused {cfg : Settings} (hr : cfg.colOverflow = .refuse) {d : Decoder} {a : Display}
    {body : List Byte} (h : 256 ≤ (d.cursor a).col.toNat + body.length) :
    d.dataBytes cfg a body = .error .colOverflow := by
  induction body generalizing d with
  | nil => have := (d.cursor a).col.isLt; simp only [List.length_nil] at h; omega
  | cons v vs ih =>
    rw [Decoder.dataBytes]
    by_cases hc : (d.cursor a).col = 255
    · simp [Decoder.wdata, hr, hc]
    · rw [Decoder.wdata_ok (Or.inr hc)]
      have hcol : ((d.dataByte a v).cursor a).col.toNat = (d.cursor a).col.toNat + 1 := by
        have := (d.cursor a).col.isLt
        have : (d.cursor a).col.toNat ≠ 255 := fun he => hc (BitVec.eq_of_toNat_eq he)
        rw [Decoder.dataByte_cursor, Cursor.advance_toNat]
        omega
      exact ih (by rw [hcol]; simp only [List.length_cons] at h; omega)

/-- As `Decoder.dataBytes_refused`, for the row. -/
theorem Decoder.dataRow_refused {cfg : Settings} (hr : cfg.colOverflow = .refuse) {d : Decoder} {a : Display}
    {body : List Byte} (h : 256 ≤ (d.cursor a).col.toNat + body.length) :
    d.dataRow cfg a body = .error .colOverflow := by simp [Decoder.dataRow, Decoder.dataBytes_refused hr h]

theorem Decoder.dataFold_cursor_ne (d : Decoder) {a b : Display} (h : b ≠ a) (body : List Byte) :
    (d.dataFold a body).cursor b = d.cursor b := by
  induction body generalizing d with
  | nil => rfl
  | cons v vs ih => rw [Decoder.dataFold_cons, ih, Decoder.dataByte_cursor_ne _ h]

@[simp] theorem Decoder.dataFold_drows (d : Decoder) (a : Display) (body : List Byte) :
    (d.dataFold a body).drows = d.drows := by
  induction body generalizing d with
  | nil => rfl
  | cons v vs ih => rw [Decoder.dataFold_cons, ih, Decoder.dataByte_drows]

@[simp] theorem Decoder.dataFold_page (d : Decoder) (a : Display) (body : List Byte) :
    ((d.dataFold a body).cursor a).page = (d.cursor a).page := by
  induction body generalizing d with
  | nil => rfl
  | cons v vs ih => rw [Decoder.dataFold_cons, ih, Decoder.dataByte_cursor, Cursor.advance_page]

/-- The column after a body: one per byte, modulo 256 (R172, R173). -/
theorem Decoder.dataFold_col (d : Decoder) (a : Display) (body : List Byte) :
    ((d.dataFold a body).cursor a).col.toNat = ((d.cursor a).col.toNat + body.length) % 256 := by
  induction body generalizing d with
  | nil =>
    have := (d.cursor a).col.isLt
    rw [Decoder.dataFold_nil, List.length_nil, Nat.add_zero, Nat.mod_eq_of_lt this]
  | cons v vs ih =>
    rw [Decoder.dataFold_cons, ih, Decoder.dataByte_cursor, Cursor.advance_toNat, List.length_cons]
    omega

theorem Decoder.dataFold_wf {d : Decoder} (h : d.fb.wf = true) (a : Display) (body : List Byte) :
    (d.dataFold a body).fb.wf = true := by
  induction body generalizing d with
  | nil => exact h
  | cons v vs ih => exact ih (by rw [Decoder.dataByte_fb]; exact Decoder.storeAtCursor_wf h a v)

/-- A byte that no data byte of the body is aimed at stays (R171, R174). -/
theorem Decoder.dataFold_read_other {d : Decoder} (h : d.fb.wf = true) (a : Display) (body : List Byte) (n : Nat)
    (hn : ∀ i, i < body.length → ((d.cursor a).col.toNat + i) % 256 < 132 →
      n ≠ fbAddr a (d.cursor a).page.toNat (((d.cursor a).col.toNat + i) % 256)) :
    (d.dataFold a body).fb.read n = d.fb.read n := by
  induction body generalizing d with
  | nil => rfl
  | cons v vs ih =>
    have hwf : (d.dataByte a v).fb.wf = true := by
      rw [Decoder.dataByte_fb]; exact Decoder.storeAtCursor_wf h a v
    have hlt := (d.cursor a).col.isLt
    have hcol : ((d.cursor a).advance).col.toNat = ((d.cursor a).col.toNat + 1) % 256 :=
      Cursor.advance_toNat _
    rw [Decoder.dataFold_cons, ih hwf, Decoder.dataByte_fb, Decoder.storeAtCursor_read h, if_neg]
    · rintro ⟨hc, he⟩
      have h0 := hn 0 (by simp)
      rw [Nat.add_zero, Nat.mod_eq_of_lt hlt] at h0
      exact h0 hc he
    · intro i hi hc
      rw [Decoder.dataByte_cursor, hcol] at hc ⊢
      have he : ((d.cursor a).col.toNat + 1) % 256 + i = ((d.cursor a).col.toNat + 1) % 256 + i := rfl
      have hs : (((d.cursor a).col.toNat + 1) % 256 + i) % 256 = ((d.cursor a).col.toNat + (i + 1)) % 256 := by omega
      rw [hs] at hc ⊢
      exact hn (i + 1) (by simpa using hi) hc

/-- The byte that data byte `i` is aimed at holds it afterwards, unless a later one of the body, 256 bytes on, was
aimed there too (R171 to R173). -/
theorem Decoder.dataFold_read_hit {d : Decoder} (h : d.fb.wf = true) (a : Display) (body : List Byte) (i : Nat)
    (hi : i < body.length) (hlast : body.length ≤ i + 256)
    (hc : ((d.cursor a).col.toNat + i) % 256 < 132) :
    (d.dataFold a body).fb.read (fbAddr a (d.cursor a).page.toNat (((d.cursor a).col.toNat + i) % 256)) =
      body[i] := by
  induction body generalizing d i with
  | nil => simp at hi
  | cons v vs ih =>
    have hwf : (d.dataByte a v).fb.wf = true := by
      rw [Decoder.dataByte_fb]; exact Decoder.storeAtCursor_wf h a v
    have hlt := (d.cursor a).col.isLt
    have hpg := (d.cursor a).page.isLt
    have hcol : ((d.cursor a).advance).col.toNat = ((d.cursor a).col.toNat + 1) % 256 :=
      Cursor.advance_toNat _
    rw [Decoder.dataFold_cons]
    cases i with
    | zero =>
      simp only [List.length_cons] at hlast
      rw [Nat.add_zero, Nat.mod_eq_of_lt hlt] at hc ⊢
      rw [Decoder.dataFold_read_other hwf, Decoder.dataByte_fb, Decoder.storeAtCursor_read h, if_pos ⟨hc, rfl⟩]
      · rfl
      · intro j hj hcj
        rw [Decoder.dataByte_cursor, hcol] at hcj ⊢
        rw [Cursor.advance_page]
        intro he
        have := (fbAddr_inj hpg hc hpg hcj).1 he
        omega
    | succ i =>
      have hs : ((d.cursor a).col.toNat + (i + 1)) % 256 = (((d.cursor a).col.toNat + 1) % 256 + i) % 256 := by omega
      have := ih hwf i (by simpa using hi) (by simp only [List.length_cons] at hlast; omega)
        (by rw [Decoder.dataByte_cursor, hcol, ← hs]; exact hc)
      rw [Decoder.dataByte_cursor, hcol, Cursor.advance_page, ← hs] at this
      simpa using this

/-! ### Rows -/

/-- DATAROW answers the body's fold with `DROWS` one up, or the overflow refusal. -/
theorem Decoder.dataRow_of_ok {cfg : Settings} {d : Decoder} {a : Display} {body : List Byte}
    (h : d.dataBytes cfg a body = .ok (d.dataFold a body)) :
    d.dataRow cfg a body = .ok { d.dataFold a body with drows := d.drows + 1 } := by
  simp [Decoder.dataRow, h]

theorem Decoder.dataRow_eq (cfg : Settings) (d : Decoder) (a : Display) (body : List Byte) :
    d.dataRow cfg a body = .ok { d.dataFold a body with drows := d.drows + 1 } ∨
      (d.dataRow cfg a body = .error .colOverflow ∧ cfg.colOverflow = .refuse) := by
  rcases Decoder.dataBytes_eq cfg d a body with h | ⟨h, hr⟩
  · left; exact Decoder.dataRow_of_ok h
  · right; exact ⟨by simp [Decoder.dataRow, h], hr⟩

@[simp] theorem Decoder.cursor_withDrows (d : Decoder) (n : Nat) (a : Display) :
    ({ d with drows := n } : Decoder).cursor a = d.cursor a := by cases a <;> rfl

@[simp] theorem Decoder.payload_nil (cfg : Settings) (d : Decoder) (a : Display) : d.payload cfg a [] = .ok d := rfl

@[simp] theorem Decoder.payload_ctrl (cfg : Settings) (d : Decoder) (a : Display) (body : List Byte) :
    d.payload cfg a (Config.hdrCtrl :: body) = .ok (d.ctrlRow a body) := by simp [Decoder.payload]

@[simp] theorem Decoder.payload_data (cfg : Settings) (d : Decoder) (a : Display) (body : List Byte) :
    d.payload cfg a (Config.hdrData :: body) = d.dataRow cfg a body := by
  rw [Decoder.payload, if_neg (by decide), if_pos rfl]

theorem Decoder.payload_other (cfg : Settings) (d : Decoder) (a : Display) {h : Byte} (hh : isRowHeader h = false)
    (body : List Byte) : d.payload cfg a (h :: body) = d.otherHeader cfg := by
  simp only [isRowHeader, Bool.or_eq_false_iff, beq_eq_false_iff_ne] at hh
  rw [Decoder.payload, if_neg hh.1, if_neg hh.2]

/-- What a payload can do on the selected display: nothing, a control row, a data row, or a parameter's refusal. -/
theorem Decoder.payload_cases (cfg : Settings) (d : Decoder) (a : Display) (payload : List Byte) :
    d.payload cfg a payload = .ok d ∨
    (∃ body, payload = Config.hdrCtrl :: body ∧ d.payload cfg a payload = .ok (d.ctrlRow a body)) ∨
    (∃ body, payload = Config.hdrData :: body ∧
      d.payload cfg a payload = .ok { d.dataFold a body with drows := d.drows + 1 }) ∨
    (d.payload cfg a payload = .error .badHeader ∧ cfg.badHeader = .refuse) ∨
    (d.payload cfg a payload = .error .colOverflow ∧ cfg.colOverflow = .refuse) := by
  cases payload with
  | nil => left; rfl
  | cons h body =>
    by_cases hc : h = Config.hdrCtrl
    · subst hc; right; left; exact ⟨body, rfl, by simp⟩
    · by_cases hd : h = Config.hdrData
      · subst hd
        rw [Decoder.payload_data]
        rcases Decoder.dataRow_eq cfg d a body with h | h
        · right; right; left; exact ⟨body, rfl, h⟩
        · right; right; right; right; exact h
      · rw [Decoder.payload_other cfg d a (by simp [isRowHeader, hc, hd])]
        cases hb : cfg.badHeader with
        | ignore => left; simp [Decoder.otherHeader, hb]
        | refuse => right; right; right; left; simp [Decoder.otherHeader, hb]

@[simp] theorem Decoder.row_busAddr (cfg : Settings) (d : Decoder) (a : Display) (payload : List Byte) :
    d.row cfg ⟨busAddr a, payload⟩ = d.payload cfg a payload := by simp [Decoder.row]

theorem Decoder.row_unselected (cfg : Settings) (d : Decoder) {r : Row} (h : selectsDisplay r.addr = false) :
    d.row cfg r = .ok d := by simp [Decoder.row, selectDisplay_eq_none.2 h]

theorem Decoder.rows_append (cfg : Settings) (d : Decoder) (x y : List Row) :
    d.rows cfg (x ++ y) =
      match d.rows cfg x with
      | .ok d' => d'.rows cfg y
      | .error e => .error e := by
  induction x generalizing d with
  | nil => rfl
  | cons r x ih =>
    simp only [List.cons_append, Decoder.rows]
    cases d.row cfg r with
    | ok d' => exact ih d'
    | error e => rfl

/-- Every row keeps the framebuffer canonical. -/
theorem Decoder.row_wf {cfg : Settings} {d d' : Decoder} {r : Row} (h : d.fb.wf = true) (hr : d.row cfg r = .ok d') :
    d'.fb.wf = true := by
  unfold Decoder.row at hr
  split at hr
  · rename_i a _
    rcases Decoder.payload_cases cfg d a r.payload with hp | ⟨_, _, hp⟩ | ⟨_, _, hp⟩ | ⟨hp, _⟩ | ⟨hp, _⟩ <;>
      rw [hp] at hr <;> cases hr
    · exact h
    · simpa using h
    · exact Decoder.dataFold_wf h a _
  · cases hr; exact h

end Sys2Proof.Machine
end

