-- ==== Sys2Proof/Laws/PerInstr.lean ====
section
/-! SUPPORT. Facts about every instruction as syntax, one lemma for each constructor. -/

namespace Sys2Proof.Laws

/-- A step of SEGUPDATE has no bit pattern (R82: "Format `operation`: one row per operation that has no bit pattern"):
no bytes at any position of the row protocol can be one. -/
def InternalStepHasNoBytes.Statement (i : Instr) : Prop := i.isInternalStep = true → encode i = none

theorem InternalStepHasNoBytes.addrTop (payload : List Byte) :
    InternalStepHasNoBytes.Statement (.addrTop payload) := fun h => nomatch h

theorem InternalStepHasNoBytes.addrBottom (payload : List Byte) :
    InternalStepHasNoBytes.Statement (.addrBottom payload) := fun h => nomatch h

theorem InternalStepHasNoBytes.addrOther (addr : Byte) (payload : List Byte) :
    InternalStepHasNoBytes.Statement (.addrOther addr payload) := fun h => nomatch h

theorem InternalStepHasNoBytes.ctrl (a : Display) (body : List Byte) :
    InternalStepHasNoBytes.Statement (.ctrl a body) := fun h => nomatch h

theorem InternalStepHasNoBytes.data (a : Display) (body : List Byte) :
    InternalStepHasNoBytes.Statement (.data a body) := fun h => nomatch h

theorem InternalStepHasNoBytes.hdrOther (a : Display) (header : Byte) (body : List Byte) :
    InternalStepHasNoBytes.Statement (.hdrOther a header body) := fun h => nomatch h

theorem InternalStepHasNoBytes.empty (a : Display) :
    InternalStepHasNoBytes.Statement (.empty a) := fun h => nomatch h

theorem InternalStepHasNoBytes.setcollo (a : Display) (n : BitVec 4) :
    InternalStepHasNoBytes.Statement (.setcollo a n) := fun h => nomatch h

theorem InternalStepHasNoBytes.setcolhi (a : Display) (n : BitVec 4) :
    InternalStepHasNoBytes.Statement (.setcolhi a n) := fun h => nomatch h

theorem InternalStepHasNoBytes.cnop20 (a : Display) (x : BitVec 5) :
    InternalStepHasNoBytes.Statement (.cnop20 a x) := fun h => nomatch h

theorem InternalStepHasNoBytes.cnop40 (a : Display) (x : BitVec 6) :
    InternalStepHasNoBytes.Statement (.cnop40 a x) := fun h => nomatch h

theorem InternalStepHasNoBytes.cnop80 (a : Display) (x : BitVec 5) :
    InternalStepHasNoBytes.Statement (.cnop80 a x) := fun h => nomatch h

theorem InternalStepHasNoBytes.cnopA0 (a : Display) (x : BitVec 4) :
    InternalStepHasNoBytes.Statement (.cnopA0 a x) := fun h => nomatch h

theorem InternalStepHasNoBytes.setpage (a : Display) (p : BitVec 3) :
    InternalStepHasNoBytes.Statement (.setpage a p) := fun h => nomatch h

theorem InternalStepHasNoBytes.cnopB8 (a : Display) (x : BitVec 3) :
    InternalStepHasNoBytes.Statement (.cnopB8 a x) := fun h => nomatch h

theorem InternalStepHasNoBytes.cnopC0 (a : Display) (x : BitVec 6) :
    InternalStepHasNoBytes.Statement (.cnopC0 a x) := fun h => nomatch h

theorem InternalStepHasNoBytes.wdata (a : Display) (d : Byte) :
    InternalStepHasNoBytes.Statement (.wdata a d) := fun h => nomatch h

theorem InternalStepHasNoBytes.setcursor (a : Display) (p : BitVec 3) (l h : BitVec 4) :
    InternalStepHasNoBytes.Statement (.setcursor a p l h) := fun h => nomatch h

theorem InternalStepHasNoBytes.write (a : Display) (ds : List Byte) :
    InternalStepHasNoBytes.Statement (.write a ds) := fun h => nomatch h

theorem InternalStepHasNoBytes.run (a : Display) (p : BitVec 3) (c : BitVec 8) (ds : List Byte) :
    InternalStepHasNoBytes.Statement (.run a p c ds) := fun h => nomatch h

theorem InternalStepHasNoBytes.row (addr : Byte) (payload : List Byte) :
    InternalStepHasNoBytes.Statement (.row addr payload) := fun h => nomatch h

theorem InternalStepHasNoBytes.ctrlrow (a : Display) (body : List Byte) :
    InternalStepHasNoBytes.Statement (.ctrlrow a body) := fun h => nomatch h

theorem InternalStepHasNoBytes.datarow (a : Display) (body : List Byte) :
    InternalStepHasNoBytes.Statement (.datarow a body) := fun h => nomatch h

theorem InternalStepHasNoBytes.fbread (b : FbInst) (a : Display) (p c : Nat) :
    InternalStepHasNoBytes.Statement (.fbread b a p c) := fun h => nomatch h

theorem InternalStepHasNoBytes.fbwrite (b : FbInst) (a : Display) (p c : Nat) (v : Byte) :
    InternalStepHasNoBytes.Statement (.fbwrite b a p c v) := fun _ => rfl

theorem InternalStepHasNoBytes.fbmaskwr (b : FbInst) (a : Display) (p c : Nat) (mask desired : Byte) :
    InternalStepHasNoBytes.Statement (.fbmaskwr b a p c mask desired) := fun _ => rfl

theorem InternalStepHasNoBytes.pix2addr (x y : Nat) :
    InternalStepHasNoBytes.Statement (.pix2addr x y) := fun h => nomatch h

theorem InternalStepHasNoBytes.addr2pix (a : Display) (p i c : Nat) :
    InternalStepHasNoBytes.Statement (.addr2pix a p i c) := fun h => nomatch h

theorem InternalStepHasNoBytes.bitmap (b : FbInst) :
    InternalStepHasNoBytes.Statement (.bitmap b) := fun h => nomatch h

theorem InternalStepHasNoBytes.accum (seg : List Pixel) :
    InternalStepHasNoBytes.Statement (.accum seg) := fun _ => rfl

theorem InternalStepHasNoBytes.segupdate (seg : List Pixel) :
    InternalStepHasNoBytes.Statement (.segupdate seg) := fun h => nomatch h

theorem InternalStepHasNoBytes.apply :
    InternalStepHasNoBytes.Statement .apply := fun _ => rfl

theorem InternalStepHasNoBytes.pack (cols : List Nat) :
    InternalStepHasNoBytes.Statement (.pack cols) := fun _ => rfl

theorem InternalStepHasNoBytes.emit (a : Display) (p : BitVec 3) (c0 : BitVec 8) (n : Nat) :
    InternalStepHasNoBytes.Statement (.emit a p c0 n) := fun _ => rfl

theorem InternalStepHasNoBytes.sample :
    InternalStepHasNoBytes.Statement .sample := fun h => nomatch h

theorem InternalStepHasNoBytes.reset :
    InternalStepHasNoBytes.Statement .reset := fun h => nomatch h

end Sys2Proof.Laws
end

