-- ==== Sys2Proof/Laws/Sequencer.lean ====
section
/-! SUPPORT. What the sequencer's steps do, said once: ACCUM's map, APPLY's bytes and changed-set, and the two together
(spec/41_pixel_address_decode.md R106, spec/42_update_sequencer.md R116, R118). -/

namespace Sys2Proof.Machine

/-! ### ACCUM -/

/-- Entries in strictly rising order of location: the canonical form of `ACC`. -/
abbrev AccSorted (acc : List AccEntry) : Prop := acc.Pairwise fun e e' => e.key.addr < e'.key.addr

theorem AccSorted.nodup {acc : List AccEntry} (h : AccSorted acc) : (acc.map AccEntry.key).Nodup := by
  rw [List.Nodup, List.pairwise_map]
  exact h.imp fun {a b} hab he => by rw [he] at hab; omega

/-- The bits that a key's entry holds: none when it has no entry. -/
def accMask (acc : List AccEntry) (k : ByteKey) : Byte :=
  match acc.find? fun e => e.key = k with
  | some e => e.mask
  | none => 0

/-- The desired bits that a key's entry holds. -/
def accDesired (acc : List AccEntry) (k : ByteKey) : Byte :=
  match acc.find? fun e => e.key = k with
  | some e => e.desired
  | none => 0

theorem accTouch_key_mem {k : ByteKey} {m d : Byte} {acc : List AccEntry} {e : AccEntry}
    (h : e ∈ accTouch k m d acc) : e.key = k ∨ e ∈ acc := by
  induction acc with
  | nil => left; simp only [accTouch, List.mem_singleton] at h; rw [h]
  | cons x xs ih =>
    simp only [accTouch] at h
    split at h
    · rcases List.mem_cons.1 h with rfl | h
      · left; rfl
      · right; exact List.mem_cons_of_mem _ h
    · split at h
      · rcases List.mem_cons.1 h with rfl | h
        · left; rfl
        · right; exact h
      · rcases List.mem_cons.1 h with rfl | h
        · right; exact List.mem_cons_self ..
        · rcases ih h with h | h
          · left; exact h
          · right; exact List.mem_cons_of_mem _ h

theorem accTouch_sorted {k : ByteKey} {m d : Byte} {acc : List AccEntry} (h : AccSorted acc) :
    AccSorted (accTouch k m d acc) := by
  induction acc with
  | nil => simp [accTouch]
  | cons x xs ih =>
    rw [AccSorted, List.pairwise_cons] at h
    simp only [accTouch]
    split
    · rename_i he
      exact List.pairwise_cons.2 ⟨fun y hy => by simpa only [he] using h.1 y hy, h.2⟩
    · split
      · rename_i hlt
        refine List.pairwise_cons.2 ⟨fun y hy => ?_, List.pairwise_cons.2 h⟩
        rcases List.mem_cons.1 hy with rfl | hy
        · exact hlt
        · exact lt_trans hlt (h.1 y hy)
      · rename_i hne hlt
        refine List.pairwise_cons.2 ⟨fun y hy => ?_, ih h.2⟩
        rcases accTouch_key_mem hy with hk | hy
        · rw [hk]
          have : k.addr ≠ x.key.addr := fun he => hne (ByteKey.addr_inj.1 he)
          omega
        · exact h.1 y hy

theorem accTouch_find {k : ByteKey} {m d : Byte} {acc : List AccEntry} (h : AccSorted acc) (k' : ByteKey) :
    (accTouch k m d acc).find? (fun e => e.key = k') =
      if k' = k then some ⟨k, accMask acc k ||| m, accDesired acc k ||| d⟩ else acc.find? fun e => e.key = k' := by
  induction acc with
  | nil =>
    by_cases hk : k' = k
    · subst hk; simp [accTouch, accMask, accDesired]
    · simp [accTouch, hk, Ne.symm hk]
  | cons x xs ih =>
    rw [AccSorted, List.pairwise_cons] at h
    simp only [accTouch]
    split
    · rename_i he
      by_cases hk : k' = k
      · subst hk; simp [accMask, accDesired, he]
      · simp [hk, Ne.symm hk, he ▸ Ne.symm hk]
    · rename_i hne
      split
      · rename_i hlt
        have hno : (x :: xs).find? (fun e => e.key = k) = none := by
          rw [List.find?_eq_none]
          intro y hy hyk
          simp only [decide_eq_true_eq] at hyk
          rcases List.mem_cons.1 hy with rfl | hy
          · exact hne hyk.symm
          · have := h.1 y hy; rw [hyk] at this; omega
        by_cases hk : k' = k
        · subst hk
          simp only [List.find?_cons_of_pos, decide_true, if_true, accMask, accDesired, hno]
          simp
        · rw [if_neg hk, List.find?_cons_of_neg]
          simpa using Ne.symm hk
      · by_cases hxk : x.key = k'
        · have hk : ¬ k' = k := fun hk => hne (by rw [← hk, hxk])
          simp [hxk, hk]
        · rw [List.find?_cons_of_neg (by simpa using hxk), ih h.2, List.find?_cons_of_neg (by simpa using hxk)]
          simp only [accMask, accDesired]
          rw [List.find?_cons_of_neg (by simpa using fun h => hne h.symm)]

theorem accumulate_append (seg : List Pixel) (e : Pixel) :
    accumulate (seg ++ [e]) = accPixel (accumulate seg) e := by simp [accumulate]

theorem accumulate_sorted (seg : List Pixel) : AccSorted (accumulate seg) := by
  induction seg using List.reverseRecOn with
  | nil => exact List.Pairwise.nil
  | append_singleton seg e ih =>
    rw [accumulate_append, accPixel]
    split
    · exact accTouch_sorted ih
    · exact ih

/-- ACCUM's map, bit by bit: a key has an entry exactly when a pixel of the segment lies in it; a mask bit is set
exactly when the pixel it stands for is in the segment, a desired bit when in addition its target is on (R106). -/
theorem accumulate_spec (seg : List Pixel) (k : ByteKey) :
    ((∃ e ∈ seg, ∃ i, pixelAddr? e.x e.y = some ⟨k, i⟩) ↔ ∃ x ∈ accumulate seg, x.key = k) ∧
    (∀ i, (accMask (accumulate seg) k).getLsbD i = true ↔ ∃ e ∈ seg, pixelAddr? e.x e.y = some ⟨k, i⟩) ∧
    (∀ i, (accDesired (accumulate seg) k).getLsbD i = true ↔
      ∃ e ∈ seg, pixelAddr? e.x e.y = some ⟨k, i⟩ ∧ e.on = true) := by
  induction seg using List.reverseRecOn with
  | nil => simp [accumulate, accMask, accDesired]
  | append_singleton seg e ih =>
    obtain ⟨ih1, ih2, ih3⟩ := ih
    rw [accumulate_append, accPixel]
    cases hq : pixelAddr? e.x e.y with
    | none => simp [List.mem_append, or_and_right, exists_or, hq, ih1, ih2, ih3]
    | some q =>
      obtain ⟨kq, j⟩ := q
      have hj : j < 8 := (pixelAddr?_eq_some.1 hq).1
      have hfind := accTouch_find (k := kq) (m := bitMask j) (d := bitValue e.on j) (accumulate_sorted seg) k
      have hmem : (∃ x ∈ accTouch kq (bitMask j) (bitValue e.on j) (accumulate seg), x.key = k) ↔
          k = kq ∨ ∃ x ∈ accumulate seg, x.key = k := by
        have h1 : ∀ l : List AccEntry, (∃ x ∈ l, x.key = k) ↔ (l.find? fun e => e.key = k).isSome := by
          intro l; simp [List.find?_isSome]
        rw [h1, h1, hfind]
        by_cases hk : k = kq <;> simp [hk]
      simp only [hmem, List.mem_append, List.mem_singleton, or_and_right, exists_or, exists_eq_left, hq,
        Option.some.injEq, PixelAddr.mk.injEq, ih1]
      refine ⟨?_, ?_, ?_⟩
      · constructor
        · rintro (h | ⟨i, h, -⟩)
          · exact Or.inr h
          · exact Or.inl h.symm
        · rintro (h | h)
          · exact Or.inr ⟨j, h.symm, rfl⟩
          · exact Or.inl h
      · intro i
        rw [← ih2 i]
        simp only [accMask, hfind]
        by_cases hk : k = kq
        · subst hk
          simp only [if_true, BitVec.getLsbD_or, Bool.or_eq_true, bitMask_getLsbD hj, decide_eq_true_eq, true_and]
          rw [eq_comm (a := i)]
        · simp only [if_neg hk, Ne.symm hk, false_and, or_false]
      · intro i
        rw [← ih3 i]
        simp only [accDesired, hfind]
        by_cases hk : k = kq
        · subst hk
          simp only [if_true, BitVec.getLsbD_or, Bool.or_eq_true, bitValue_getLsbD _ hj, Bool.and_eq_true,
            decide_eq_true_eq, true_and]
          rw [eq_comm (a := i), and_comm (a := e.on = true)]
        · simp only [if_neg hk, Ne.symm hk, false_and, or_false]

/-! ### CHG -/

/-- Entries in strictly rising order of (display, page), each with ascending columns of the page: the canonical form of
`CHG`. -/
def ChgSorted (chg : List ChgEntry) : Prop :=
  (chg.Pairwise fun e e' => fbAddr e.disp e.page.val 0 < fbAddr e'.disp e'.page.val 0) ∧
    ∀ e ∈ chg, Ascending e.cols ∧ ∀ c ∈ e.cols, c < 132

theorem ChgSorted.nil : ChgSorted [] := ⟨List.Pairwise.nil, by simp⟩

theorem pageAddr_inj {a b : Display} {p p' : Fin Config.pages} :
    fbAddr a p.val 0 = fbAddr b p'.val 0 ↔ a = b ∧ p = p' := by
  rw [fbAddr_inj p.isLt (by omega) p'.isLt (by omega)]
  simp [Fin.ext_iff]

theorem chgAdd_mem {k : ByteKey} {chg : List ChgEntry} {e : ChgEntry} (h : e ∈ chgAdd k chg) :
    (e.disp = k.disp ∧ e.page = k.page) ∨ e ∈ chg := by
  induction chg with
  | nil => left; simp only [chgAdd, List.mem_singleton] at h; rw [h]; exact ⟨rfl, rfl⟩
  | cons x xs ih =>
    simp only [chgAdd] at h
    split at h
    · rename_i hx
      rcases List.mem_cons.1 h with rfl | h
      · left; exact hx
      · right; exact List.mem_cons_of_mem _ h
    · split at h
      · rcases List.mem_cons.1 h with rfl | h
        · left; exact ⟨rfl, rfl⟩
        · right; exact h
      · rcases List.mem_cons.1 h with rfl | h
        · right; exact List.mem_cons_self ..
        · rcases ih h with h | h
          · left; exact h
          · right; exact List.mem_cons_of_mem _ h

theorem chgAdd_sorted {k : ByteKey} {chg : List ChgEntry} (h : ChgSorted chg) : ChgSorted (chgAdd k chg) := by
  have hsingle : ∀ e : ChgEntry, e = ⟨k.disp, k.page, [k.col.val]⟩ → Ascending e.cols ∧ ∀ c ∈ e.cols, c < 132 := by
    rintro e rfl; exact ⟨List.pairwise_singleton .., fun c hc => by simp only [List.mem_singleton] at hc; rw [hc]; exact k.col.isLt⟩
  induction chg with
  | nil => exact ⟨List.pairwise_singleton .., fun e he => hsingle e (by simpa [chgAdd] using he)⟩
  | cons x xs ih =>
    obtain ⟨hp, hc⟩ := h
    rw [List.pairwise_cons] at hp
    have hx := hc x (List.mem_cons_self ..)
    have hxs : ∀ e ∈ xs, Ascending e.cols ∧ ∀ c ∈ e.cols, c < 132 := fun e he => hc e (List.mem_cons_of_mem _ he)
    simp only [chgAdd]
    split
    · refine ⟨List.pairwise_cons.2 ⟨hp.1, hp.2⟩, fun e he => ?_⟩
      rcases List.mem_cons.1 he with rfl | he
      · refine ⟨insertCol_ascending hx.1, fun c hc => ?_⟩
        rcases mem_insertCol.1 hc with rfl | hc
        · exact k.col.isLt
        · exact hx.2 c hc
      · exact hxs e he
    · rename_i hne
      split
      · rename_i hlt
        refine ⟨List.pairwise_cons.2 ⟨fun y hy => ?_, List.pairwise_cons.2 hp⟩, fun e he => ?_⟩
        · rcases List.mem_cons.1 hy with rfl | hy
          · exact hlt
          · exact lt_trans hlt (hp.1 y hy)
        · rcases List.mem_cons.1 he with rfl | he
          · exact hsingle _ rfl
          · exact hc e he
      · rename_i hlt
        have ih' := ih ⟨hp.2, hxs⟩
        refine ⟨List.pairwise_cons.2 ⟨fun y hy => ?_, ih'.1⟩, fun e he => ?_⟩
        · rcases chgAdd_mem hy with hk | hy
          · rw [hk.1, hk.2]
            have : fbAddr k.disp k.page.val 0 ≠ fbAddr x.disp x.page.val 0 := fun he =>
              hne ⟨(pageAddr_inj.1 he).1.symm, (pageAddr_inj.1 he).2.symm⟩
            omega
          · exact hp.1 y hy
        · rcases List.mem_cons.1 he with rfl | he
          · exact hx
          · exact ih'.2 e he

/-- `CHG[(a,p)] ∪ {c}` at the key's page, every other page's set as before (R115, R116). -/
theorem mem_chgCols_chgAdd {k : ByteKey} {chg : List ChgEntry} (h : ChgSorted chg) (a : Display)
    (p : Fin Config.pages) (c : Nat) :
    c ∈ chgCols (chgAdd k chg) a p ↔ (a = k.disp ∧ p = k.page ∧ c = k.col.val) ∨ c ∈ chgCols chg a p := by
  induction chg with
  | nil =>
    by_cases hk : k.disp = a ∧ k.page = p
    · simp [chgAdd, chgCols, hk]
    · have : ¬ (a = k.disp ∧ p = k.page ∧ c = k.col.val) := fun h' => hk ⟨h'.1.symm, h'.2.1.symm⟩
      simp [chgAdd, chgCols, hk, this]
  | cons x xs ih =>
    obtain ⟨hp, hc⟩ := h
    rw [List.pairwise_cons] at hp
    have hxs : ∀ e ∈ xs, Ascending e.cols ∧ ∀ c ∈ e.cols, c < 132 := fun e he => hc e (List.mem_cons_of_mem _ he)
    simp only [chgAdd]
    split
    · rename_i hx
      by_cases ha : x.disp = a ∧ x.page = p
      · have hka : a = k.disp ∧ p = k.page := ⟨ha.1 ▸ hx.1, ha.2 ▸ hx.2⟩
        simp [chgCols, ha, hka]
      · have : ¬ (a = k.disp ∧ p = k.page ∧ c = k.col.val) := fun h' => ha ⟨hx.1.trans h'.1.symm, hx.2.trans h'.2.1.symm⟩
        simp [chgCols, ha, this]
    · rename_i hne
      split
      · rename_i hlt
        by_cases hk : k.disp = a ∧ k.page = p
        · have hno : ((x :: xs).find? fun e => decide (e.disp = a ∧ e.page = p)) = none := by
            rw [List.find?_eq_none]
            intro y hy hya
            simp only [decide_eq_true_eq] at hya
            rw [← hk.1, ← hk.2] at hya
            rcases List.mem_cons.1 hy with rfl | hy
            · exact hne hya
            · have := hp.1 y hy
              rw [hya.1, hya.2] at this
              omega
          rw [chgCols, chgCols, hno, List.find?_cons_of_pos (by simpa using hk)]
          simp [hk.1, hk.2]
        · have : ¬ (a = k.disp ∧ p = k.page ∧ c = k.col.val) := fun h' => hk ⟨h'.1.symm, h'.2.1.symm⟩
          rw [chgCols, List.find?_cons_of_neg (by simpa using hk)]
          simp [chgCols, this]
      · by_cases ha : x.disp = a ∧ x.page = p
        · have : ¬ (a = k.disp ∧ p = k.page ∧ c = k.col.val) := fun h' => hne ⟨ha.1.trans h'.1, ha.2.trans h'.2.1⟩
          simp [chgCols, ha, this]
        · have := ih ⟨hp.2, hxs⟩
          rw [chgCols, List.find?_cons_of_neg (by simpa using ha)]
          rw [chgCols] at this
          rw [this, chgCols, chgCols, List.find?_cons_of_neg (by simpa using ha)]

theorem chgCols_lt {chg : List ChgEntry} (h : ChgSorted chg) {a : Display} {p : Fin Config.pages} {c : Nat}
    (hc : c ∈ chgCols chg a p) : c < 132 := by
  rw [chgCols] at hc
  split at hc
  · rename_i e he
    exact (h.2 e (List.mem_of_find?_eq_some he)).2 c hc
  · cases hc

/-! ### APPLY -/

@[simp] theorem Sequencer.applyEntry_acc (q : Sequencer) (e : AccEntry) : (q.applyEntry e).acc = q.acc := rfl
@[simp] theorem Sequencer.applyEntry_out (q : Sequencer) (e : AccEntry) : (q.applyEntry e).out = q.out := rfl

theorem byteChanged_iff {old new : Byte} : byteChanged old new = true ↔ new ≠ old := by simp [byteChanged]

/-- APPLY over distinct keys: each key's byte is the masked byte, every other byte is as before, and exactly the
columns of bytes that changed have entered `CHG` (R116, R118). -/
theorem Sequencer.applyFold_spec (es : List AccEntry) (q : Sequencer) (hwf : q.fb.wf = true)
    (hnd : (es.map AccEntry.key).Nodup) (hchg : ChgSorted q.chg) :
    let q' := es.foldl Sequencer.applyEntry q
    q'.acc = q.acc ∧ q'.out = q.out ∧ q'.fb.wf = true ∧ ChgSorted q'.chg ∧
    (∀ e ∈ es, q'.fb.read e.key.addr = maskedByte (q.fb.read e.key.addr) e.mask e.desired) ∧
    (∀ n, (∀ e ∈ es, e.key.addr ≠ n) → q'.fb.read n = q.fb.read n) ∧
    (∀ a p c, c ∈ chgCols q'.chg a p ↔ c ∈ chgCols q.chg a p ∨
      ∃ e ∈ es, e.key.disp = a ∧ e.key.page = p ∧ e.key.col.val = c ∧
        q'.fb.read e.key.addr ≠ q.fb.read e.key.addr) := by
  induction es generalizing q with
  | nil => exact ⟨rfl, rfl, hwf, hchg, by simp, by simp, by simp⟩
  | cons e es ih =>
    rw [List.map_cons, List.nodup_cons] at hnd
    have hfb : (q.applyEntry e).fb = q.fb.write e.key.addr (maskedByte (q.fb.read e.key.addr) e.mask e.desired) := rfl
    have hwf' : (q.applyEntry e).fb.wf = true := by
      rw [hfb]; exact Memory.wf_write hwf (ByteKey.addr_lt _) _
    have hread : ∀ n, (q.applyEntry e).fb.read n =
        if n = e.key.addr then maskedByte (q.fb.read e.key.addr) e.mask e.desired else q.fb.read n := by
      intro n; rw [hfb, Memory.read_write_wf hwf]
    have hchg' : ChgSorted (q.applyEntry e).chg := by
      simp only [Sequencer.applyEntry]
      split
      · exact chgAdd_sorted hchg
      · exact hchg
    have hne : ∀ x ∈ es, x.key.addr ≠ e.key.addr := fun x hx he =>
      hnd.1 (List.mem_map.2 ⟨x, hx, ByteKey.addr_inj.1 he⟩)
    obtain ⟨h1, h2, h3, h4, h5, h6, h7⟩ := ih (q.applyEntry e) hwf' hnd.2 hchg'
    have hself : (es.foldl Sequencer.applyEntry (q.applyEntry e)).fb.read e.key.addr =
        maskedByte (q.fb.read e.key.addr) e.mask e.desired := by rw [h6 _ hne, hread, if_pos rfl]
    refine ⟨h1, h2, h3, h4, ?_, ?_, ?_⟩
    · intro x hx
      rcases List.mem_cons.1 hx with rfl | hx
      · exact hself
      · rw [List.foldl_cons, h5 x hx, hread, if_neg (hne x hx)]
    · intro n hn
      rw [List.foldl_cons, h6 n fun x hx => hn x (List.mem_cons_of_mem _ hx), hread,
        if_neg fun h => hn e (List.mem_cons_self ..) h.symm]
    · intro a p c
      have hstep : c ∈ chgCols (q.applyEntry e).chg a p ↔ c ∈ chgCols q.chg a p ∨
          (e.key.disp = a ∧ e.key.page = p ∧ e.key.col.val = c ∧
            maskedByte (q.fb.read e.key.addr) e.mask e.desired ≠ q.fb.read e.key.addr) := by
        have hc : (q.applyEntry e).chg =
            if byteChanged (q.fb.read e.key.addr) (maskedByte (q.fb.read e.key.addr) e.mask e.desired) = true
            then chgAdd e.key q.chg else q.chg := rfl
        rw [hc]
        by_cases hb : byteChanged (q.fb.read e.key.addr) (maskedByte (q.fb.read e.key.addr) e.mask e.desired) = true
        · rw [if_pos hb]
          rw [byteChanged_iff] at hb
          rw [mem_chgCols_chgAdd hchg]
          constructor
          · rintro (⟨rfl, rfl, rfl⟩ | h)
            · exact Or.inr ⟨rfl, rfl, rfl, hb⟩
            · exact Or.inl h
          · rintro (h | ⟨rfl, rfl, rfl, -⟩)
            · exact Or.inr h
            · exact Or.inl ⟨rfl, rfl, rfl⟩
        · rw [if_neg hb]
          rw [byteChanged_iff, not_not] at hb
          simp [hb]
      rw [List.foldl_cons, h7 a p c, hstep, or_assoc]
      simp only [List.mem_cons, exists_eq_or_imp, hself]
      refine or_congr Iff.rfl (or_congr Iff.rfl ?_)
      constructor
      · rintro ⟨x, hx, ha, hp, hc, hx'⟩
        exact ⟨x, hx, ha, hp, hc, by rwa [hread, if_neg (hne x hx)] at hx'⟩
      · rintro ⟨x, hx, ha, hp, hc, hx'⟩
        exact ⟨x, hx, ha, hp, hc, by rwa [hread, if_neg (hne x hx)]⟩

/-- "After the segment is fully applied" (R115): every bit of the mirror that a pixel of the segment names has the
accumulated desired value, every other bit is as before; `CHG` is exactly the set of changed bytes (R118). -/
theorem Sequencer.applied_spec (q : Sequencer) (hwf : q.fb.wf = true) (seg : List Pixel) :
    let q' := q.applied seg
    q'.out = q.out ∧ q'.fb.wf = true ∧ ChgSorted q'.chg ∧
    (∀ k : ByteKey, q'.fb.read k.addr =
      maskedByte (q.fb.read k.addr) (accMask (accumulate seg) k) (accDesired (accumulate seg) k)) ∧
    (∀ a (p : Fin Config.pages) c, c ∈ chgCols q'.chg a p ↔
      c < 132 ∧ q'.fb.read (fbAddr a p.val c) ≠ q.fb.read (fbAddr a p.val c)) := by
  have hsort := accumulate_sorted seg
  obtain ⟨-, h2, h3, h4, h5, h6, h7⟩ := Sequencer.applyFold_spec (accumulate seg)
    { q with acc := accumulate seg, chg := [] } hwf hsort.nodup ChgSorted.nil
  have hkey : ∀ k : ByteKey, (q.applied seg).fb.read k.addr =
      maskedByte (q.fb.read k.addr) (accMask (accumulate seg) k) (accDesired (accumulate seg) k) := by
    intro k
    cases hf : (accumulate seg).find? fun e => e.key = k with
    | none =>
      have hno : ∀ e ∈ accumulate seg, e.key.addr ≠ k.addr := fun e he hek => by
        have := List.find?_eq_none.1 hf e he
        simp only [decide_eq_true_eq] at this
        exact this (ByteKey.addr_inj.1 hek)
      have : (q.applied seg).fb.read k.addr = q.fb.read k.addr := h6 _ hno
      rw [this, accMask, accDesired, hf]
      exact (maskedByte_zero _ _).symm
    | some e =>
      have hmem := List.mem_of_find?_eq_some hf
      have hek : e.key = k := by simpa using List.find?_some hf
      have := h5 e hmem
      rw [hek] at this
      rw [accMask, accDesired, hf]
      exact this
  refine ⟨h2, h3, h4, hkey, fun a p c => ?_⟩
  have hmem := h7 a p c
  rw [show chgCols ({ q with acc := accumulate seg, chg := [] } : Sequencer).chg a p = [] from rfl] at hmem
  refine Iff.trans hmem ?_
  simp only [List.not_mem_nil, false_or]
  constructor
  · rintro ⟨e, -, rfl, rfl, rfl, hne⟩
    exact ⟨e.key.col.isLt, hne⟩
  · rintro ⟨hc, hne⟩
    by_cases hex : ∃ e ∈ accumulate seg, e.key.addr = fbAddr a p.val c
    · obtain ⟨e, he, hea⟩ := hex
      obtain ⟨ha, hp, hcol⟩ := (fbAddr_inj e.key.page.isLt e.key.col.isLt p.isLt hc).1 hea
      exact ⟨e, he, ha, Fin.ext hp, hcol, by rw [hea]; exact hne⟩
    · exact absurd (h6 _ fun e he hea => hex ⟨e, he, hea⟩) hne

/-- The mirror after a segment, pixel by pixel: the target value where the segment names the pixel, the old value
elsewhere (R115, R116). The segment is admitted, so that it names each pixel once. -/
theorem Sequencer.applied_pixel (q : Sequencer) (hwf : q.fb.wf = true) {seg : List Pixel}
    (hd : segmentDistinct seg = true) {x y : Nat} (hxy : onCanvas x y = true) :
    (q.applied seg).fb.pixel x y =
      match seg.find? fun e => e.x = x ∧ e.y = y with
      | some e => e.on
      | none => q.fb.pixel x y := by
  obtain ⟨hx, hy⟩ := onCanvas_iff.1 hxy
  obtain ⟨-, -, -, hkey, -⟩ := Sequencer.applied_spec q hwf seg
  have hq := pixelAddr?_of_canvas hx hy
  generalize (⟨⟨pixelHalf y, ⟨pixelRow y / 8, Nat.div_lt_of_lt_mul (pixelRow_lt hy)⟩, ⟨x, hx⟩⟩,
    pixelRow y % 8⟩ : PixelAddr) = q0 at hq
  obtain ⟨k, i⟩ := q0
  simp only [Memory.pixel, hq, hkey k, maskedByte_getLsbD]
  obtain ⟨-, hm, hv⟩ := accumulate_spec seg k
  cases hf : seg.find? fun e => e.x = x ∧ e.y = y with
  | some e =>
    have hmem := List.mem_of_find?_eq_some hf
    have hxy : e.x = x ∧ e.y = y := by simpa using List.find?_some hf
    have he : pixelAddr? e.x e.y = some ⟨k, i⟩ := by rw [hxy.1, hxy.2]; exact hq
    rw [if_pos ((hm i).2 ⟨e, hmem, he⟩)]
    change _ = e.on
    cases hon : e.on with
    | true => exact (hv i).2 ⟨e, hmem, he, hon⟩
    | false =>
      rw [← Bool.not_eq_true, hv i]
      rintro ⟨e', hmem', he', hon'⟩
      have hsame := pixelAddr?_inj he he'
      have hnd : (seg.map fun e => (e.x, e.y)).Nodup := by simpa [segmentDistinct] using hd
      have := List.inj_on_of_nodup_map hnd hmem hmem' (by simp [hsame.1, hsame.2])
      rw [this] at hon
      rw [hon] at hon'
      cases hon'
  | none =>
    rw [if_neg]
    rw [hm i]
    rintro ⟨e, hmem, he⟩
    have := pixelAddr?_inj he hq
    have hno := List.find?_eq_none.1 hf e hmem
    simp only [decide_eq_true_eq] at hno
    exact hno this

end Sys2Proof.Machine
end

