-- ==== Sys2Proof/Laws/Replay.lean ====
section
/-! SUPPORT. What the decoder does with the rows the sequencer emits: a control row sets the cursor to the run's first
byte whatever it held (R74); the pair of a run overwrites exactly the run's bytes (R128, R130); a list of runs overwrites
exactly the bytes that some run covers. -/

namespace Sys2Proof.Machine

/-- The emitted control row is the template of R72 with the column's nibbles (R69). -/
theorem ctrlRowPayload_eq_template {p c : Nat} (hp : p < 8) (hc : c < 256) :
    ctrlRowPayload p c =
      setcursorPayload (BitVec.ofNat 3 p) (BitVec.ofNat 4 c) (BitVec.ofNat 4 (c / 16)) := by
  have h1 : ∀ p : Fin 8, (0xB0 ||| BitVec.ofNat 8 p.val : Byte) = (CtrlCmd.setpage (BitVec.ofNat 3 p.val)).byte := by
    decide
  have h2 : ∀ c : BitVec 8, (c &&& 0x0F : Byte) = (CtrlCmd.setcollo (BitVec.ofNat 4 c.toNat)).byte := by decide
  have h3 : ∀ c : BitVec 8, (0x10 ||| ((c >>> 4) &&& 0x0F) : Byte) =
      (CtrlCmd.setcolhi (BitVec.ofNat 4 (c.toNat / 16))).byte := by decide
  have hn : (BitVec.ofNat 8 c).toNat = c := by rw [BitVec.toNat_ofNat, Nat.mod_eq_of_lt hc]
  rw [ctrlRowPayload, setcursorPayload, ← h1 ⟨p, hp⟩, h2, h3, hn]

/-- The column that the two nibbles of a column make (R69). -/
theorem column_of_nibbles {c : Nat} (hc : c < 256) :
    (BitVec.ofNat 4 (c / 16) ++ BitVec.ofNat 4 c : BitVec (4 + 4)).toNat = c := by
  have h : ∀ c : BitVec 8, (BitVec.ofNat 4 (c.toNat / 16) ++ BitVec.ofNat 4 c.toNat : BitVec (4 + 4)).toNat =
      c.toNat := by decide
  have := h (BitVec.ofNat 8 c)
  rwa [BitVec.toNat_ofNat, Nat.mod_eq_of_lt hc] at this

/-- The cursor that the control row of a run leaves (R74). -/
def runCursor (p c : Nat) : Cursor :=
  ⟨BitVec.ofNat 3 p, BitVec.ofNat 4 (c / 16) ++ BitVec.ofNat 4 c⟩

theorem runCursor_col {p c : Nat} (hc : c < 256) : (runCursor p c).col.toNat = c := column_of_nibbles hc

theorem runCursor_page {p c : Nat} (hp : p < 8) : (runCursor p c).page.toNat = p := by
  simp only [runCursor, BitVec.toNat_ofNat]
  omega

/-- Replaying a run's control row (R74): the cursor is the run's, and nothing else changed. -/
theorem Decoder.row_ctrlRow (cfg : Settings) (d : Decoder) (a : Display) {p c : Nat} (hp : p < 8) (hc : c < 256) :
    d.row cfg ⟨busAddr a, ctrlRowPayload p c⟩ = .ok (d.setCursor (runCursor p c) a) := by
  rw [Decoder.row_busAddr, ctrlRowPayload_eq_template hp hc]
  have : setcursorPayload (BitVec.ofNat 3 p) (BitVec.ofNat 4 c) (BitVec.ofNat 4 (c / 16)) =
      Config.hdrCtrl :: (setcursorPayload (BitVec.ofNat 3 p) (BitVec.ofNat 4 c) (BitVec.ofNat 4 (c / 16))).tail := rfl
  rw [this, Decoder.payload_ctrl, Decoder.ctrlRow_setcursor]
  rfl

@[simp] theorem Memory.length_readRun (m : Memory) (a : Display) (p c0 n : Nat) :
    (m.readRun a p c0 n).length = n := by
  induction n generalizing c0 with
  | zero => rfl
  | succ n ih => simp [Memory.readRun, ih]

theorem Memory.getElem_readRun (m : Memory) (a : Display) (p c0 n i : Nat) (h : i < (m.readRun a p c0 n).length) :
    (m.readRun a p c0 n)[i] = m.read (fbAddr a p (c0 + i)) := by
  induction n generalizing c0 i with
  | zero => simp at h
  | succ n ih =>
    cases i with
    | zero => rfl
    | succ i =>
      simp only [Memory.readRun, List.getElem_cons_succ]
      rw [ih]
      congr 2
      omega

/-- The two rows of any page, column and bytes are the cursor set and then a data row (R81; outside a page, log
entry 13). -/
theorem Decoder.rows_runRows (cfg : Settings) (d : Decoder) (a : Display) (p : BitVec 3) (c : BitVec 8)
    (ds : List Byte) : d.rows cfg (runRows a p.toNat c.toNat ds) = (d.setCursor ⟨p, c⟩ a).dataRow cfg a ds := by
  have hcur : runCursor p.toNat c.toNat = ⟨p, c⟩ := by
    show Cursor.mk (runCursor p.toNat c.toNat).page (runCursor p.toNat c.toNat).col = ⟨p, c⟩
    rw [Cursor.mk.injEq]
    exact ⟨BitVec.eq_of_toNat_eq (runCursor_page p.isLt), BitVec.eq_of_toNat_eq (runCursor_col c.isLt)⟩
  simp only [runRows, Decoder.rows, Decoder.row_ctrlRow cfg d a p.isLt c.isLt, hcur, dataRowPayload,
    Decoder.row_busAddr, Decoder.payload_data]
  cases (d.setCursor ⟨p, c⟩ a).dataRow cfg a ds <;> rfl

/-! ### The bytes EMIT sends -/

@[simp] theorem Memory.length_sendRun (m : Memory) (a : Display) (p c0 n k : Nat) :
    (m.sendRun a p c0 n k).1.length = n := by
  induction n generalizing c0 k with
  | zero => rfl
  | succ n ih => simp only [Memory.sendRun]; split <;> simp [ih]

/-- For every column that has storage EMIT sends the mirror's byte. -/
theorem Memory.getElem_sendRun (m : Memory) (a : Display) {p : Nat} (hp : p < 8) (c0 n k i : Nat)
    (h : i < (m.sendRun a p c0 n k).1.length) (hc : c0 + i < 132) :
    (m.sendRun a p c0 n k).1[i] = m.read (fbAddr a p (c0 + i)) := by
  induction n generalizing c0 k i with
  | zero => simp at h
  | succ n ih =>
    have hb := byteAt?_of_lt a hp (show c0 < 132 by omega)
    have he : m.sendRun a p c0 (n + 1) k =
        (m.read (fbAddr a p c0) :: (m.sendRun a p (c0 + 1) n k).1, (m.sendRun a p (c0 + 1) n k).2) := by
      simp only [Memory.sendRun, hb]; rfl
    simp only [he]
    cases i with
    | zero => rfl
    | succ i =>
      rw [List.getElem_cons_succ, ih (c0 + 1) k i _ (by omega)]
      congr 2
      omega

/-- Inside a page EMIT draws no free value. -/
theorem Memory.sendRun_draws (m : Memory) (a : Display) {p : Nat} (hp : p < 8) {c0 n : Nat} (hc : c0 + n ≤ 132)
    (k : Nat) : (m.sendRun a p c0 n k).2 = k := by
  induction n generalizing c0 with
  | zero => rfl
  | succ n ih =>
    simp only [Memory.sendRun, byteAt?_of_lt a hp (show c0 < 132 by omega)]
    exact ih (by omega)

/-- Replaying the pair of rows of a run inside its page: no parameter refuses it, the run's bytes are overwritten, every
other byte stays, the cursor stands one past the run, one data row is counted. -/
theorem Decoder.rows_run (cfg : Settings) {d : Decoder} (hwf : d.fb.wf = true) (a : Display) {p c0 : Nat}
    (hp : p < 8) (ds : List Byte) (hn : 1 ≤ ds.length) (hc : c0 + ds.length ≤ 132) :
    ∃ d', d.rows cfg (runRows a p c0 ds) = .ok d' ∧
      d'.fb.wf = true ∧ d'.drows = d.drows + 1 ∧
      (d'.cursor a).page.toNat = p ∧ (d'.cursor a).col.toNat = c0 + ds.length ∧
      (∀ b, b ≠ a → d'.cursor b = d.cursor b) ∧
      (∀ i (h : i < ds.length), d'.fb.read (fbAddr a p (c0 + i)) = ds[i]) ∧
      (∀ n, (∀ i, i < ds.length → n ≠ fbAddr a p (c0 + i)) → d'.fb.read n = d.fb.read n) := by
  set d1 := d.setCursor (runCursor p c0) a with hd1
  have hcur : d1.cursor a = runCursor p c0 := Decoder.cursor_setCursor ..
  have hcol : (d1.cursor a).col.toNat = c0 := by rw [hcur, runCursor_col (by omega)]
  have hpg : (d1.cursor a).page.toNat = p := by rw [hcur, runCursor_page hp]
  have hwf1 : d1.fb.wf = true := by simpa [hd1] using hwf
  have hok : d1.dataBytes cfg a ds = .ok (d1.dataFold a ds) :=
    Decoder.dataBytes_ok_of_le cfg (by rw [hcol]; omega)
  refine ⟨{ d1.dataFold a ds with drows := d1.drows + 1 }, ?_, ?_, ?_, ?_, ?_, ?_, ?_, ?_⟩
  · simp only [runRows, Decoder.rows, Decoder.row_ctrlRow cfg d a hp (show c0 < 256 by omega), Decoder.row_busAddr,
      dataRowPayload, Decoder.payload_data, ← hd1, Decoder.dataRow_of_ok hok]
  · exact Decoder.dataFold_wf hwf1 a ds
  · simp [hd1]
  · simp [hpg]
  · rw [Decoder.cursor_withDrows, Decoder.dataFold_col, hcol]; omega
  · intro b hb
    rw [Decoder.cursor_withDrows, Decoder.dataFold_cursor_ne _ hb, hd1, Decoder.cursor_setCursor_ne _ _ hb]
  · intro i hi
    have := Decoder.dataFold_read_hit hwf1 a ds i hi (by omega) (by rw [hcol]; omega)
    rw [hcol, hpg, show (c0 + i) % 256 = c0 + i by omega] at this
    exact this
  · intro n hno
    have := Decoder.dataFold_read_other hwf1 a ds n (by
      intro i hi _
      rw [hcol, hpg, show (c0 + i) % 256 = c0 + i by omega]
      exact hno i hi)
    simpa [hd1] using this

/-! ### A list of runs -/

/-- Replaying the pairs of rows of runs whose bytes are a mirror's: the decoder's bytes become the mirror's at every
location that some run covers and stay elsewhere (R130). -/
theorem Decoder.rows_emitted (cfg : Settings) (m : Memory) (xs : List PageRun) (hx : ∀ x ∈ xs, x.inPage)
    {d : Decoder} (hwf : d.fb.wf = true) :
    ∃ d', d.rows cfg (xs.flatMap fun x => emitRows m x.disp x.page.val x.run) = .ok d' ∧ d'.fb.wf = true ∧
      d'.drows = d.drows + xs.length ∧
      ∀ n, ((∃ x ∈ xs, x.covers n) → d'.fb.read n = m.read n) ∧
        ((¬ ∃ x ∈ xs, x.covers n) → d'.fb.read n = d.fb.read n) := by
  induction xs generalizing d with
  | nil => exact ⟨d, rfl, hwf, rfl, by simp⟩
  | cons x xs ih =>
    obtain ⟨hlen, hin⟩ := hx x (List.mem_cons_self ..)
    obtain ⟨d1, hr1, hwf1, hd1, -, -, -, hhit, hother⟩ :=
      Decoder.rows_run cfg hwf x.disp x.page.isLt (m.readRun x.disp x.page.val x.run.first x.run.len)
        (by simpa using hlen) (by simpa using hin)
    obtain ⟨d2, hr2, hwf2, hd2, hread⟩ := ih (fun y hy => hx y (List.mem_cons_of_mem _ hy)) hwf1
    refine ⟨d2, ?_, hwf2, by rw [hd2, hd1, List.length_cons]; omega, fun n => ⟨?_, ?_⟩⟩
    · rw [List.flatMap_cons, Decoder.rows_append]
      rw [emitRows, hr1]
      exact hr2
    · rintro ⟨y, hy, hyn⟩
      by_cases hrest : ∃ z ∈ xs, z.covers n
      · exact (hread n).1 hrest
      · rw [(hread n).2 hrest]
        rcases List.mem_cons.1 hy with rfl | hy
        · obtain ⟨i, hi, rfl⟩ := hyn
          rw [hhit i (by simpa using hi), Memory.getElem_readRun]
        · exact absurd ⟨y, hy, hyn⟩ hrest
    · intro hno
      rw [(hread n).2 fun ⟨z, hz, hzn⟩ => hno ⟨z, List.mem_cons_of_mem _ hz, hzn⟩]
      exact hother n fun i hi he =>
        hno ⟨x, List.mem_cons_self .., i, by simpa using hi, he⟩

/-! ### What a segment emits -/

/-- The runs of one (display, page). -/
def Sequencer.pageRuns (q : Sequencer) (cap : Nat) (ap : Display × Fin Config.pages) : List PageRun :=
  (packCols cap (chgCols q.chg ap.1 ap.2)).map fun r => ⟨ap.1, ap.2, r⟩

/-- All runs of a segment, in `PAGE_ORDER`. -/
def Sequencer.allRuns (q : Sequencer) (cfg : Settings) : List PageRun :=
  cfg.pageOrder.flatMap fun ap => q.pageRuns cfg.maxRunLen ap

/-- The emitted rows are the pairs of the runs, in order (R123). -/
theorem Sequencer.allRows_eq (q : Sequencer) (cfg : Settings) :
    q.allRows cfg = (q.allRuns cfg).flatMap fun x => emitRows q.fb x.disp x.page.val x.run := by
  simp only [Sequencer.allRows, Sequencer.allRuns, Sequencer.pageRows, Sequencer.pageRuns, List.flatMap_assoc,
    List.flatMap_map]

theorem Settings.legal_iff {cfg : Settings} :
    cfg.legal = true ↔ 1 ≤ cfg.maxRunLen ∧ pageOrderLegal cfg.pageOrder = true := by simp [Settings.legal]

/-- A legal order names every (display, page). -/
theorem mem_pageOrder {o : List (Display × Fin Config.pages)} (h : pageOrderLegal o = true) (a : Display)
    (p : Fin Config.pages) : (a, p) ∈ o := by
  simp only [pageOrderLegal, Bool.and_eq_true, List.all_eq_true, List.contains_eq_mem, decide_eq_true_eq] at h
  refine h.2 (a, p) ?_
  revert p
  cases a <;> decide

/-- The runs of a segment lie in their pages, and cover exactly the bytes that the segment changed (R118, R120). -/
theorem Sequencer.allRuns_spec {q : Sequencer} (hwf : q.fb.wf = true) {cfg : Settings} (hcfg : cfg.legal = true)
    (seg : List Pixel) :
    (∀ x ∈ (q.applied seg).allRuns cfg, x.inPage ∧ x.run.len ≤ cfg.maxRunLen) ∧
      ∀ n, (∃ x ∈ (q.applied seg).allRuns cfg, x.covers n) ↔
        n < Config.framebufferBytes ∧ (q.applied seg).fb.read n ≠ q.fb.read n := by
  obtain ⟨hcap, hord⟩ := Settings.legal_iff.1 hcfg
  obtain ⟨-, -, hsorted, -, hchg⟩ := Sequencer.applied_spec q hwf seg
  constructor
  · intro x hx
    obtain ⟨ap, -, hx⟩ := List.mem_flatMap.1 hx
    obtain ⟨r, hr, rfl⟩ := List.mem_map.1 hx
    have hs := (packCols_shape hcap (chgCols (q.applied seg).chg ap.1 ap.2)).1 r hr
    exact ⟨⟨hs.1, packCols_inPage hcap (fun c hc => chgCols_lt hsorted hc) r hr⟩, hs.2⟩
  · intro n
    constructor
    · rintro ⟨x, hx, i, hi, rfl⟩
      obtain ⟨ap, -, hx⟩ := List.mem_flatMap.1 hx
      obtain ⟨r, hr, rfl⟩ := List.mem_map.1 hx
      have hmem : r.first + i ∈ chgCols (q.applied seg).chg ap.1 ap.2 :=
        (packCols_covers cfg.maxRunLen _ _).1 ⟨r, hr, by simp only [Run.covers]; simp only at hi; omega⟩
      obtain ⟨hlt, hne⟩ := (hchg _ _ _).1 hmem
      exact ⟨fbAddr_lt _ ap.2.isLt hlt, hne⟩
    · rintro ⟨hn, hne⟩
      obtain ⟨a, p, c, hp, hc, rfl⟩ := exists_fbAddr hn
      have hmem : c ∈ chgCols (q.applied seg).chg a ⟨p, hp⟩ := (hchg a ⟨p, hp⟩ c).2 ⟨hc, hne⟩
      obtain ⟨r, hr, h1, h2⟩ := (packCols_covers cfg.maxRunLen _ c).2 hmem
      refine ⟨⟨a, ⟨p, hp⟩, r⟩, List.mem_flatMap.2 ⟨(a, ⟨p, hp⟩), mem_pageOrder hord _ _,
        List.mem_map.2 ⟨r, hr, rfl⟩⟩, c - r.first, ?_, ?_⟩
      · simp only; omega
      · simp only; congr 1; omega

/-- The runs of a segment are maximal: where the byte after a run in its page changed too, the run is at the cap (R120 d). -/
theorem Sequencer.allRuns_maximal {q : Sequencer} (hwf : q.fb.wf = true) {cfg : Settings} (hcap : 1 ≤ cfg.maxRunLen)
    (seg : List Pixel) : ∀ x ∈ (q.applied seg).allRuns cfg, x.run.first + x.run.len < 132 →
      (q.applied seg).fb.read (fbAddr x.disp x.page.val (x.run.first + x.run.len)) ≠
        q.fb.read (fbAddr x.disp x.page.val (x.run.first + x.run.len)) → x.run.len = cfg.maxRunLen := by
  obtain ⟨-, -, -, -, hchg⟩ := Sequencer.applied_spec q hwf seg
  intro x hx hlt hne
  obtain ⟨ap, -, hx⟩ := List.mem_flatMap.1 hx
  obtain ⟨r, hr, rfl⟩ := List.mem_map.1 hx
  exact packCols_maximal hcap _ r hr ((hchg _ _ _).2 ⟨hlt, hne⟩)

/-- Delivering the rows of one SEGUPDATE brings the decoder from the mirror before it to the mirror after it (the step
of the induction of R130). -/
theorem Decoder.rows_segUpdate {q : Sequencer} (hwf : q.fb.wf = true) {cfg : Settings} (hcfg : cfg.legal = true)
    (seg : List Pixel) {d : Decoder} (hd : d.fb = q.fb) :
    ∃ d', d.rows cfg ((q.applied seg).allRows cfg) = .ok d' ∧ d'.fb = (q.segUpdate cfg seg).fb := by
  obtain ⟨hin, hcov⟩ := Sequencer.allRuns_spec hwf hcfg seg
  rw [Sequencer.allRows_eq]
  obtain ⟨d', hr, hwf', -, hread⟩ := Decoder.rows_emitted cfg (q.applied seg).fb _ (fun x hx => (hin x hx).1)
    (d := d) (by rw [hd]; exact hwf)
  refine ⟨d', hr, ?_⟩
  have hwf2 : (q.applied seg).fb.wf = true := (Sequencer.applied_spec q hwf seg).2.1
  refine Memory.ext hwf' hwf2 fun n hn => ?_
  by_cases hne : (q.applied seg).fb.read n = q.fb.read n
  · rw [(hread n).2 fun hx => ((hcov n).1 hx).2 hne, hd]; exact hne.symm
  · exact (hread n).1 ((hcov n).2 ⟨hn, hne⟩)

end Sys2Proof.Machine
end

