-- ==== Sys2Proof/Tests/Slice0.lean ====
section
/-! SUPPORT. Tests. Expected values come from the spec: its worked examples and vectors (spec/95_test_vectors.md, cited by
their ids) and its encodings, written out bit by bit. The last part shows, for every statement with hypotheses, states and
operands that meet them. -/

namespace Sys2Proof.Tests

open Sys2Proof Sys2Proof.Machine Sys2Proof.Claims

/-! ### Helpers -/

/-- The state an outcome goes on with, if it goes on. -/
def after : Host.Outcome State Fault Refusal → Option State
  | .next s => some s
  | .fault _ => none
  | .refused _ => none

/-- The reason of a refusal, if it is one. -/
def why : Host.Outcome State Fault Refusal → Option Refusal
  | .next _ => none
  | .fault _ => none
  | .refused r => some r

/-- Reset, with one display's cursor at (page, column). -/
def at_ (a : Display) (p : BitVec 3) (c : BitVec 8) : State :=
  { State.reset with dec := Decoder.reset.setCursor ⟨p, c⟩ a }

/-- Reset, with another configuration. -/
def conf (f : Settings → Settings) : State := { State.reset with cfg := f Settings.default }

/-- Reset, with one mirror byte. -/
def mirror (a : Display) (p c : Nat) (v : Byte) : State :=
  State.reset.setFb (Memory.write [] (fbAddr a p c) v) .enc

/-- A field of the next state. -/
def see {α : Type} (f : State → α) (o : Host.Outcome State Fault Refusal) : Option α := (after o).map f

/-- `CUR[a]` as (page, column) in decimal. -/
def cur (a : Display) (s : State) : Nat × Nat := ((s.dec.cursor a).page.toNat, (s.dec.cursor a).col.toNat)

/-- Both cursors. -/
def curs (s : State) : (Nat × Nat) × (Nat × Nat) := (cur .top s, cur .bottom s)

/-- The decoder under `COL_OVERFLOW` = refuse. -/
def strict (cfg : Settings) : Settings := { cfg with colOverflow := .refuse }

/-! ### Well-formedness: an ill-formed term for each check -/

theorem test_wf_addrOther_refuses_addrTop : (Instr.addrOther 0x3C [0x40]).wf = false := by decide
theorem test_wf_addrOther_refuses_addrBottom : (Instr.addrOther 0x3D []).wf = false := by decide
theorem test_wf_hdrOther_refuses_ctrl : (Instr.hdrOther .top 0x00 []).wf = false := by decide
theorem test_wf_hdrOther_refuses_data : (Instr.hdrOther .bottom 0x40 [1]).wf = false := by decide
theorem test_wf_run_refuses_empty : (Instr.run .top 0 0 []).wf = false := by decide
theorem test_wf_run_refuses_edge : (Instr.run .top 0 131 [1, 2]).wf = false := by decide
theorem test_wf_fbread_refuses_page : (Instr.fbread .dec .top 8 0).wf = false := by decide
theorem test_wf_fbwrite_refuses_column : (Instr.fbwrite .enc .top 0 132 1).wf = false := by decide
theorem test_wf_fbmaskwr_refuses_column : (Instr.fbmaskwr .enc .top 0 132 1 1).wf = false := by decide
theorem test_wf_pix2addr_refuses_x : (Instr.pix2addr 132 0).wf = false := by decide
theorem test_wf_pix2addr_refuses_y : (Instr.pix2addr 0 128).wf = false := by decide
theorem test_wf_addr2pix_refuses_bit : (Instr.addr2pix .top 0 8 0).wf = false := by decide
theorem test_wf_addr2pix_refuses_column : (Instr.addr2pix .top 0 0 132).wf = false := by decide
theorem test_wf_accum_refuses_offCanvas : (Instr.accum [⟨132, 0, true⟩]).wf = false := by decide
theorem test_wf_accum_refuses_repeat : (Instr.accum [⟨5, 0, true⟩, ⟨5, 0, false⟩]).wf = false := by decide
theorem test_wf_segupdate_refuses_offCanvas : (Instr.segupdate [⟨0, 128, true⟩]).wf = false := by decide
theorem test_wf_segupdate_refuses_repeat : (Instr.segupdate [⟨5, 0, true⟩, ⟨5, 0, true⟩]).wf = false := by decide
theorem test_wf_pack_refuses_column : (Instr.pack [131, 132]).wf = false := by decide
theorem test_wf_emit_refuses_length : (Instr.emit .top 0 0 0).wf = false := by decide
theorem test_wf_emit_refuses_edge : (Instr.emit .top 0 131 2).wf = false := by decide

/-! ### Decoding: words written out bit by bit (R62, R63, R65, R71, R72, R73), every encoded constructor -/

theorem test_decode_addrTop : decode .rowAddress [0b00111100, 0b00000000] = .ok (.addrTop [0x00]) := by decide
theorem test_decode_addrBottom : decode .rowAddress [0b00111101, 0b01000000] = .ok (.addrBottom [0x40]) := by decide
theorem test_decode_addrOther : decode .rowAddress [0b00111110, 0b01000000] = .ok (.addrOther 0x3E [0x40]) := by decide
theorem test_decode_addr_shifted : decode .rowAddress [0b01111000] = .ok (.addrOther 0x78 []) := by decide
theorem test_decode_ctrl : decode (.rowHeader .top) [0b00000000, 0b10110011] = .ok (.ctrl .top [0xB3]) := by decide
theorem test_decode_data : decode (.rowHeader .bottom) [0b01000000, 0b00000001] = .ok (.data .bottom [0x01]) := by decide
theorem test_decode_hdrOther : decode (.rowHeader .top) [0b10000000, 0b10110001] = .ok (.hdrOther .top 0x80 [0xB1]) := by
  decide
theorem test_decode_empty : decode (.rowHeader .bottom) [] = .ok (.empty .bottom) := by decide
theorem test_decode_setcollo : decode (.ctrlBody .top) [0b00001101] = .ok (.setcollo .top 0b1101) := by decide
theorem test_decode_setcolhi : decode (.ctrlBody .top) [0b00011000] = .ok (.setcolhi .top 0b1000) := by decide
theorem test_decode_cnop20 : decode (.ctrlBody .top) [0b00110010] = .ok (.cnop20 .top 0b10010) := by decide
theorem test_decode_cnop40 : decode (.ctrlBody .top) [0b01000000] = .ok (.cnop40 .top 0b000000) := by decide
theorem test_decode_cnop80 : decode (.ctrlBody .top) [0b10010001] = .ok (.cnop80 .top 0b10001) := by decide
theorem test_decode_cnopA0 : decode (.ctrlBody .top) [0b10101111] = .ok (.cnopA0 .top 0b1111) := by decide
theorem test_decode_setpage : decode (.ctrlBody .bottom) [0b10110111] = .ok (.setpage .bottom 0b111) := by decide
theorem test_decode_cnopB8 : decode (.ctrlBody .top) [0b10111010] = .ok (.cnopB8 .top 0b010) := by decide
theorem test_decode_cnopC0 : decode (.ctrlBody .top) [0b11100101] = .ok (.cnopC0 .top 0b100101) := by decide
theorem test_decode_wdata : decode (.dataBody .top) [0b01000000] = .ok (.wdata .top 0x40) := by decide
/-- V-ENC-8: BOTTOM, page 7, column 131. -/
theorem test_decode_setcursor :
    decode (.emittedCtrlRow .bottom) [0b00000000, 0b10110111, 0b00000011, 0b00011000] =
      .ok (.setcursor .bottom 7 3 8) := by decide
theorem test_decode_write :
    decode (.emittedDataRow .top) [0b01000000, 0b10000000, 0b00000001] = .ok (.write .top [0x80, 0x01]) := by decide
/-- R72's template is in the order page, low, high; another order is no SETCURSOR. -/
theorem test_decode_setcursor_order :
    decode (.emittedCtrlRow .top) [0x00, 0xB0, 0x10, 0x05] = .error .notSetcursor := by decide
theorem test_decode_rejects_no_address : decode .rowAddress [] = .error .noAddress := by decide
theorem test_decode_rejects_two_commands : decode (.ctrlBody .top) [0xB0, 0x05] = .error .notOneByte := by decide
theorem test_decode_rejects_write : decode (.emittedDataRow .top) [0x00] = .error .notWrite := by decide
/-- The table's SETCURSOR word, p at bits 18..16, l at 11..8, h at 3..0: V-ENC-4. -/
theorem test_table_setcursor : decodeTableWord 32 0x00B20213 = some (.setcursor .top 2 2 3) := by decide
theorem test_table_write : decodeTableWord 16 0x4001 = some (.write .top [0x01]) := by decide
theorem test_table_setpage : decodeTableWord 8 0xB5 = some (.setpage .top 5) := by decide
/-- The word the host presents is the one the next step runs. -/
theorem test_step_runs_table_word :
    after (step (State.reset.withFetchWord 8 0xB5)) = after (exec (.setpage .top 5) (State.reset.accept [])) := by decide

/-! ### Rows (95_test_vectors.md, 2.7 to 2.9) -/

/-- V-ROW-1. -/
theorem test_row_control : see (cur .top) (exec (.row 0x3C [0x00, 0xB0, 0x05, 0x10]) State.reset) = some (0, 5) := by decide
/-- V-ROW-2, by ADDR.BOTTOM. -/
theorem test_addrBottom :
    see (fun s => (cur .bottom s, cur .top s)) (exec (.addrBottom [0x00, 0xB0, 0x05, 0x10]) State.reset) =
      some ((0, 5), (0, 0)) := by decide
/-- V-ROW-3. -/
theorem test_addrOther : after (exec (.addrOther 0x3E [0x40, 0xFF]) State.reset) = some State.reset := by decide
/-- V-ROW-4. -/
theorem test_row_shifted_address : after (exec (.row 0x78 [0x40, 0xFF]) State.reset) = some State.reset := by decide
/-- V-ROW-5. -/
theorem test_empty : after (exec (.empty .top) State.reset) = some State.reset := by decide
/-- V-ROW-6. -/
theorem test_hdrOther : after (exec (.hdrOther .top 0x80 [0xB1, 0x05]) State.reset) = some State.reset := by decide
/-- V-ROW-8, by ADDR.TOP. -/
theorem test_addrTop_empty_data_counts :
    see (fun s => (s.dec.drows, cur .top s, s.dec.fb)) (exec (.addrTop [0x40]) State.reset) = some (1, (0, 0), []) := by
  decide
/-- V-CTL-1. -/
theorem test_ctrl : see (cur .top) (exec (.ctrl .top [0xB3, 0x02, 0x18]) State.reset) = some (3, 130) := by decide
/-- V-CTL-5: the later high load wins. -/
theorem test_ctrl_last_load : see (cur .top) (exec (.ctrl .top [0x12, 0x13]) (at_ .top 0 245)) = some (0, 53) := by decide
/-- V-CTL-7. -/
theorem test_ctrlrow_mixed :
    see (cur .top) (exec (.ctrlrow .top [0xAF, 0xB7, 0x81, 0x0F, 0x17, 0xB8, 0x20]) State.reset) = some (7, 127) := by decide
/-- V-CTL-10: the byte after a CNOP is classified on its own. -/
theorem test_ctrlrow_after_cnop : see (cur .top) (exec (.ctrlrow .top [0x81, 0x05]) State.reset) = some (0, 5) := by decide
/-- V-CTL-4: the high nibble is kept. -/
theorem test_setcollo : see (cur .top) (exec (.setcollo .top 5) (at_ .top 0 255)) = some (0, 245) := by decide
/-- R158's example: 0x05 and 0x18 give 133. -/
theorem test_setcolhi : see (cur .top) (exec (.setcolhi .top 8) (at_ .top 0 5)) = some (0, 133) := by decide
/-- R156's example. -/
theorem test_setpage : see (cur .top) (exec (.setpage .top 5) (at_ .top 0 6)) = some (5, 6) := by decide
/-- V-CTL-6. -/
theorem test_cnopB8 : after (exec (.cnopB8 .top 7) (at_ .top 5 6)) = some (at_ .top 5 6) := by decide
/-- V-CTL-8: `0x40` is CNOP in a control body. -/
theorem test_cnop40 : after (exec (.cnop40 .top 0) (at_ .top 2 9)) = some (at_ .top 2 9) := by decide
theorem test_cnop20 : after (exec (.cnop20 .top 0) (at_ .top 2 9)) = some (at_ .top 2 9) := by decide
/-- V-CTL-9. -/
theorem test_cnop80 : after (exec (.cnop80 .top 1) (at_ .top 2 9)) = some (at_ .top 2 9) := by decide
theorem test_cnopA0 : after (exec (.cnopA0 .top 15) (at_ .top 2 9)) = some (at_ .top 2 9) := by decide
theorem test_cnopC0 : after (exec (.cnopC0 .top 63) (at_ .top 2 9)) = some (at_ .top 2 9) := by decide
/-- V-DATA-2: two bytes dropped over the right edge. -/
theorem test_data_over_the_edge :
    see (fun s => (s.dec.fb, cur .top s)) (exec (.data .top [0x11, 0x22, 0x33, 0x44]) (at_ .top 3 130)) =
      some ([(fbAddr .top 3 130, 0x11), (fbAddr .top 3 131, 0x22)], (3, 134)) := by decide
/-- V-DATA-7: header values inside a body are data. -/
theorem test_data_header_values :
    see (fun s => (s.dec.fb, cur .top s)) (exec (.data .top [0x00, 0x40]) State.reset) =
      some ([(fbAddr .top 0 1, 0x40)], (0, 2)) := by decide
/-- V-DATA-5: the wrap at 256. -/
theorem test_datarow_wrap :
    see (fun s => (s.dec.fb, cur .top s)) (exec (.datarow .top [0x01, 0x02, 0x03, 0x04]) (at_ .top 1 254)) =
      some ([(fbAddr .top 1 0, 0x03), (fbAddr .top 1 1, 0x04)], (1, 2)) := by decide
/-- V-DATA-5 under `COL_OVERFLOW` = refuse (P4: "the second row has no meaning"). -/
theorem test_datarow_refuse :
    why (exec (.datarow .top [0x01, 0x02, 0x03, 0x04]) { at_ .top 1 254 with cfg := strict Settings.default }) =
      some .colOverflow := by decide
/-- V-DATA-4. -/
theorem test_wdata :
    see (fun s => (s.dec.fb, cur .bottom s, s.dec.drows)) (exec (.wdata .bottom 0xA5) (at_ .bottom 7 131)) =
      some ([(fbAddr .bottom 7 131, 0xA5)], (7, 132), 0) := by decide
/-- V-DATA-6: a whole-byte overwrite with zero, from a byte that a port write left. -/
theorem test_wdata_clears :
    see (fun s => (s.dec.fb, cur .top s)) (exec (.wdata .top 0x00) (State.reset.setFb [(fbAddr .top 0 0, 0xFF)] .dec)) =
      some ([], (0, 1)) := by decide
/-- V-ENC-8, replayed. -/
theorem test_setcursor : see (cur .bottom) (exec (.setcursor .bottom 7 3 8) (at_ .bottom 2 77)) = some (7, 131) := by decide
/-- V-DATA-1. -/
theorem test_write :
    see (fun s => (s.dec.fb, cur .top s, s.dec.drows)) (exec (.write .top [0x01]) (at_ .top 0 5)) =
      some ([(fbAddr .top 0 5, 0x01)], (0, 6), 1) := by decide
/-- P1 as a RUN. -/
theorem test_run :
    see (fun s => (s.dec.fb, cur .top s, s.dec.drows)) (exec (.run .top 0 5 [0x01]) State.reset) =
      some ([(fbAddr .top 0 5, 0x01)], (0, 6), 1) := by decide
/-- Over the edge RUN is the same two rows: V-CTL-1 and V-DATA-2. -/
theorem test_run_over_the_edge :
    see (fun s => (s.dec.fb, cur .top s, s.dec.drows)) (exec (.run .top 3 130 [0x11, 0x22, 0x33, 0x44]) State.reset) =
      some ([(fbAddr .top 3 130, 0x11), (fbAddr .top 3 131, 0x22)], (3, 134), 1) := by decide

/-! ### Framebuffer ports (2.1) -/

theorem test_fbread : see (fun s => s.ports.result) (exec (.fbread .enc .top 2 50) (mirror .top 2 50 0xF7)) =
    some (.byte 0xF7) := by decide
theorem test_fbread_absent : why (exec (.fbread .dec .top 0 132) State.reset) = some .noSuchByte := by decide
/-- R91's example. -/
theorem test_fbwrite : see (fun s => (s.dec.fb, s.enc.fb)) (exec (.fbwrite .dec .bottom 7 131 0xA5) State.reset) =
    some ([(fbAddr .bottom 7 131, 0xA5)], []) := by decide
/-- R91's example presented at the ports: HostPortsReachEitherInstance, the write and then the read. -/
theorem test_fbwrite_example_at_the_ports :
    ((after (step ((State.reset.present (.op (.fbread .dec .bottom 7 131))).present
      (.op (.fbwrite .dec .bottom 7 131 0xA5))))).bind fun t => see (fun s => s.ports.result) (step t)) =
    some (.byte 0xA5) := by decide
/-- HostPortsReachEitherInstance, the masked write and then the read. -/
theorem witness_host_ports : (State.reset.fb .dec).wf = true ∧
    ((after (step ((State.reset.present (.op (.fbread .dec .top 0 0))).present
      (.op (.fbmaskwr .dec .top 0 0 0x0F 0xFF))))).bind fun t => see (fun s => s.ports.result) (step t)) =
    some (.byte 0x0F) := by decide
/-- OnlyDataBytesWriteDecFb: under `decWrites` = decoder the host's write is refused and a data row writes. -/
theorem witness_decoder_writes :
    let s := conf fun c => { c with decWrites := .decoder }
    why (step (s.present (.op (.fbwrite .dec .bottom 7 131 0xA5)))) = some .decIsTheDecoders ∧
    why (step (s.present (.op (.fbmaskwr .dec .top 0 0 0x0F 0xFF)))) = some .decIsTheDecoders ∧
    see (fun s => s.enc.fb) (step (s.present (.op (.fbwrite .enc .top 0 0 0x01)))) = some [(fbAddr .top 0 0, 0x01)] ∧
    see (fun s => s.dec.fb) (step (s.present (.bytes .rowAddress [0x3C, 0x40, 0x01]))) =
      some [(fbAddr .top 0 0, 0x01)] := by decide
/-- V-FB-3. -/
theorem test_fbmaskwr :
    see (fun s => (s.enc.fb, s.ports.result)) (exec (.fbmaskwr .enc .bottom 0 3 0x13 0x12) (mirror .bottom 0 3 0x0F)) =
      some ([(fbAddr .bottom 0 3, 0x1E)], .masked 0x0F 0x1E) := by decide
/-- V-FB-7. -/
theorem test_masked_byte : maskedByte 0x55 0x0F 0xFA = 0x5A := by decide

/-! ### Pixels (2.3, 2.4) -/

/-- V-PIX-5. -/
theorem test_pix2addr_top : see (fun s => s.ports.result) (exec (.pix2addr 50 19) State.reset) =
    some (.address .top 2 3 50) := by decide
/-- V-PIX-10. -/
theorem test_pix2addr_bottom : see (fun s => s.ports.result) (exec (.pix2addr 66 100) State.reset) =
    some (.address .bottom 4 4 66) := by decide
/-- V-PIX-8, back. -/
theorem test_addr2pix : see (fun s => s.ports.result) (exec (.addr2pix .bottom 0 7 0) State.reset) =
    some (.pixel 0 71) := by decide
/-- R104's example, at the instance that holds the byte. -/
theorem test_bitmap :
    see (fun s => match s.ports.result with
        | .picture b => (b[5]?).bind fun col => col[0]?
        | _ => none) (exec (.bitmap .enc) (mirror .top 0 5 0x01)) = some (some true) := by decide
/-- V-ACC-2. -/
theorem test_accum :
    see (fun s => s.enc.acc) (exec (.accum [⟨3, 64, false⟩, ⟨3, 65, true⟩, ⟨3, 68, true⟩, ⟨4, 64, true⟩]) State.reset) =
      some [⟨⟨.bottom, 0, 3⟩, 0x13, 0x12⟩, ⟨⟨.bottom, 0, 4⟩, 0x01, 0x01⟩] := by decide
/-- V-ACC-6. -/
theorem test_accum_repeated : why (exec (.accum [⟨5, 0, true⟩, ⟨5, 0, false⟩]) State.reset) = some .repeatedPixel := by decide

/-! ### Sequencer (2.5, 2.6) -/

/-- The state between ACCUM and APPLY of V-SEG-8. -/
def accumulated : State :=
  { mirror .bottom 0 3 0x0F with
    enc := { (mirror .bottom 0 3 0x0F).enc with
      acc := [⟨⟨.bottom, 0, 3⟩, 0x13, 0x12⟩, ⟨⟨.bottom, 0, 4⟩, 0x01, 0x01⟩] } }

/-- V-SEG-8, its APPLY step. -/
theorem test_apply :
    see (fun s => (s.enc.fb, s.enc.chg)) (exec .apply accumulated) =
      some ([(fbAddr .bottom 0 3, 0x1E), (fbAddr .bottom 0 4, 0x01)], [⟨.bottom, 0, [3, 4]⟩]) := by decide
/-- V-SEG-6's change test, the other way: a byte already as desired does not enter `CHG` (V-FB-6). -/
theorem test_apply_unchanged :
    see (fun s => s.enc.chg) (exec .apply { mirror .top 7 7 0x80 with
      enc := { (mirror .top 7 7 0x80).enc with acc := [⟨⟨.top, 7, 7⟩, 0x80, 0x80⟩] } }) = some [] := by decide
/-- V-PACK-2, given out of order. -/
theorem test_pack : see (fun s => s.ports.result) (exec (.pack [43, 40, 42]) State.reset) =
    some (.runs [⟨40, 1⟩, ⟨42, 2⟩]) := by decide
/-- V-PACK-4. -/
theorem test_pack_cap :
    see (fun s => s.ports.result) (exec (.pack [20, 21, 22, 23, 24, 25, 26, 27]) (conf fun c => { c with maxRunLen := 3 })) =
      some (.runs [⟨20, 3⟩, ⟨23, 3⟩, ⟨26, 2⟩]) := by decide
/-- V-SEG-6's pair. -/
theorem test_emit : see (fun s => s.enc.out) (exec (.emit .top 2 50 1) (mirror .top 2 50 0xF7)) =
    some [⟨0x3C, [0x00, 0xB2, 0x02, 0x13]⟩, ⟨0x3C, [0x40, 0xF7]⟩] := by decide
/-- V-SEG-1: the boundary split (S6), TOP first. -/
theorem test_segupdate_boundary :
    see (fun s => (s.enc.out, s.enc.fb, s.enc.acc, s.enc.chg))
        (exec (.segupdate [⟨7, 63, true⟩, ⟨7, 64, true⟩]) State.reset) =
      some ([⟨0x3C, [0x00, 0xB7, 0x07, 0x10]⟩, ⟨0x3C, [0x40, 0x80]⟩, ⟨0x3D, [0x00, 0xB0, 0x07, 0x10]⟩, ⟨0x3D, [0x40, 0x01]⟩],
        [(fbAddr .top 7 7, 0x80), (fbAddr .bottom 0 7, 0x01)], [], []) := by decide
/-- V-SEG-5: the unchanged column 41 is not sent. -/
theorem test_segupdate_gap :
    see (fun s => s.enc.out)
        (exec (.segupdate [⟨40, 9, true⟩, ⟨41, 9, true⟩, ⟨42, 9, true⟩, ⟨43, 9, true⟩]) (mirror .top 1 41 0x02)) =
      some [⟨0x3C, [0x00, 0xB1, 0x08, 0x12]⟩, ⟨0x3C, [0x40, 0x02]⟩, ⟨0x3C, [0x00, 0xB1, 0x0A, 0x12]⟩,
        ⟨0x3C, [0x40, 0x02, 0x02]⟩] := by decide

/-! ### Sample port and reset (2.10) -/

/-- A decoder that has processed data rows, `FRAME_STRIDE` = 2. -/
def sampled (n : Nat) (done : Bool) : State :=
  { State.reset with
    dec := { Decoder.reset with drows := n }
    cfg := { Settings.default with frameStride := 2 }
    ports := { Ports.idle with dataRowDone := done } }

/-- V-SMP-1: up after the second and the fourth counted data row, not after the first, not after an ignored row. -/
theorem test_sample :
    (see (fun s => s.ports.result) (exec .sample (sampled 2 true)),
      see (fun s => s.ports.result) (exec .sample (sampled 3 true)),
      see (fun s => s.ports.result) (exec .sample (sampled 2 false))) =
      (some (.strobe true), some (.strobe false), some (.strobe false)) := by decide
/-- V-SMP-1, row 3 and row 4: the row itself raises the strobe, an ignored row drops it. -/
theorem test_row_strobe :
    (see State.sampleStrobe (exec (.row 0x3D [0x40, 0x02]) (sampled 1 true)),
      see State.sampleStrobe (exec (.row 0x3E [0x40, 0x03]) (sampled 2 true))) = (some true, some false) := by decide
/-- R215. -/
theorem test_reset : after (exec .reset { accumulated with dec := (at_ .top 3 9).dec }) = some State.reset := by decide

/-! ### Hypotheses of the statements, met -/

/-- StepRunsPresentedInstruction, each clause. -/
theorem witness_step_bytes : (State.reset.present (.bytes (.ctrlBody .top) [0xB7])).ports.input =
    .bytes (.ctrlBody .top) [0xB7] :: [] ∧ decode (.ctrlBody .top) [0xB7] = .ok (.setpage .top 7) := by decide
theorem witness_step_undecodable : (State.reset.present (.bytes .rowAddress [])).ports.input = .bytes .rowAddress [] :: [] ∧
    decode .rowAddress [] = .error .noAddress := by decide
theorem witness_step_op : (State.reset.present (.op .sample)).ports.input = .op .sample :: [] ∧
    Instr.isInternalStep .sample = false ∧ State.reset.ports.input = [] ∧
    Instr.isDecWrite (.fbwrite .dec .top 0 0 1) = true ∧ State.reset.cfg.decWrites = .host := by decide
/-- DecodeOfEncodeIsTheInstruction and EncodeOfDecodeIsTheBytes. -/
theorem witness_encode : (Instr.setcursor .bottom 7 3 8).wf = true ∧
    encode (.setcursor .bottom 7 3 8) = some (.emittedCtrlRow .bottom, [0x00, 0xB7, 0x03, 0x18]) ∧
    decode (.emittedCtrlRow .bottom) [0x00, 0xB7, 0x03, 0x18] = .ok (.setcursor .bottom 7 3 8) := by decide
/-- ControlByteActsByItsRange and CnopChangesNothing: the ends of every range, from the cursor (2, 9). -/
theorem witness_control_ranges :
    ([0xB0, 0xB7, 0x00, 0x0F, 0x10, 0x1F, 0x20, 0xAF, 0xB8, 0xFF] : List Byte).map
      (fun b => see (cur .top) (exec (.ctrl .top [b]) (at_ .top 2 9))) =
      [some (0, 9), some (7, 9), some (2, 0), some (2, 15), some (2, 9), some (2, 249), some (2, 9), some (2, 9),
        some (2, 9), some (2, 9)] := by decide
/-- ControlRowKeepsTheLastLoads: a part that is loaded twice, and parts that are not loaded. -/
theorem witness_last_loads : lastIn 0x10 0x1F [0x12, 0x13] = some 0x13 ∧ lastIn 0xB0 0xB7 [0x12, 0x13] = none ∧
    lastIn 0x00 0x0F [0x12, 0x13] = none := by decide
/-- SetcursorSetsTheWholeCursor at the last page and column. -/
theorem witness_setcursor : (7 : Nat) < 8 ∧ (131 : Nat) < 132 ∧
    see (cur .bottom) (exec (.row (busAddr .bottom) [0x00, BitVec.ofNat 8 (0xB0 + 7), BitVec.ofNat 8 (131 % 16),
      BitVec.ofNat 8 (0x10 + 131 / 16)]) (at_ .bottom 3 200)) = some (7, 131) := by decide
/-- WdataWritesThenAdvances: column 131 is written, column 132 dropped, column 255 wraps; and 254 under refuse. -/
theorem witness_wdata_columns :
    ([131, 132, 255] : List (BitVec 8)).map (fun c => see (fun s => (s.dec.fb, cur .top s)) (exec (.wdata .top 0x55) (at_ .top 0 c))) =
      [some ([(fbAddr .top 0 131, 0x55)], (0, 132)), some ([], (0, 133)), some ([], (0, 0))] := by decide
theorem witness_wdata_refuse_below : ({ at_ .top 0 254 with cfg := strict Settings.default } : State).dec.fb.wf = true ∧
    ((at_ .top 0 254).dec.cursor .top).col.toNat ≠ 255 := by decide
/-- DataAtColumn255UnderRefuse: the byte at column 255, and rows whose last byte arrives there; one byte fewer runs. -/
theorem witness_column_255 : (strict Settings.default).colOverflow = .refuse ∧
    ((at_ .top 0 255).dec.cursor .top).col.toNat = 255 ∧
    256 ≤ ((at_ .top 0 254).dec.cursor .top).col.toNat + [(0x01 : Byte), 0x02].length ∧
    ([[0x01], [0x01, 0x02]] : List (List Byte)).map
      (fun ds => why (exec (.write .top ds) { at_ .top 0 254 with cfg := strict Settings.default })) =
      [none, some .colOverflow] := by decide
/-- DataRowWritesItsBytes, under either parameter: at the right edge, and ending at column 255. -/
theorem witness_datarow : (at_ .top 3 131).dec.fb.wf = true ∧ (at_ .top 3 131).cfg.colOverflow = .wrap256 ∧
    ((at_ .top 3 254).dec.cursor .top).col.toNat + [(0x01 : Byte)].length ≤ 255 := by decide
/-- RunWritesItsBytes: the run that ends in column 131, under refuse too; a run that ends in column 254 under refuse; and
one that carries a byte to column 255. -/
theorem witness_run :
    see (fun s => (s.dec.fb, cur .top s)) (exec (.run .top 7 130 [0x01, 0x02]) (conf strict)) =
      some ([(fbAddr .top 7 130, 0x01), (fbAddr .top 7 131, 0x02)], (7, 132)) ∧
    see (cur .top) (exec (.run .top 7 254 [0x01]) (conf strict)) = some (7, 255) ∧
    why (exec (.run .top 7 255 [0x01]) (conf strict)) = some .colOverflow ∧
    see (cur .top) (exec (.run .top 7 255 [0x01]) State.reset) = some (7, 0) := by decide
/-- RunWritesItsBytes: no byte, and more bytes than the cap. -/
theorem witness_run_lengths :
    ([[], [0x01, 0x02]] : List (List Byte)).map
      (fun ds => see (fun s => (s.dec.fb.length, cur .top s)) (exec (.run .top 0 5 ds) (conf fun c => { c with maxRunLen := 1 }))) =
      [some (0, (0, 5)), some (2, (0, 7))] := by decide
/-- DataRowsChain, EveryRowCompletes, NothingFaultsAndWellFormedCompletes: the default configuration. -/
theorem witness_default_configuration : State.reset.cfg.colOverflow = .wrap256 ∧ State.reset.cfg.badHeader = .ignore ∧
    State.reset.cfg.legal = true ∧ (Instr.emit .bottom 7 131 1).wf = true ∧
    (Instr.run .top 7 100 (List.replicate 32 1)).wf = true := by decide
/-- UnrecognisedAddressChangesNothing: the neighbours of the two addresses, under both refusing parameters. -/
theorem witness_addresses : (0x3B : Byte) ≠ 0x3C ∧ (0x3B : Byte) ≠ 0x3D ∧ (0x3E : Byte) ≠ 0x3C ∧ (0x3E : Byte) ≠ 0x3D ∧
    after (exec (.row 0x3B [0x80]) (conf fun c => { strict c with badHeader := .refuse })) =
      some (conf fun c => { strict c with badHeader := .refuse }) := by decide
/-- OtherHeaderIsIgnored: the neighbours of the two headers, under both values of the parameter. -/
theorem witness_headers :
    ([0x01, 0x3F, 0x41, 0xFF] : List Byte).map
      (fun h => (after (exec (.row (busAddr .top) [h, 0xB1]) State.reset),
        why (exec (.addrBottom [h]) (conf fun c => { c with badHeader := .refuse })))) =
      List.replicate 4 (some State.reset, some .badHeader) := by decide
/-- RowTouchesOneDisplayOnly: two states that agree on TOP and differ on BOTTOM. -/
theorem witness_one_display : (at_ .bottom 3 9).dec.fb.wf = true ∧ State.reset.dec.fb.wf = true ∧
    (State.reset.dec.cursor .bottom ≠ (at_ .bottom 3 9).dec.cursor .bottom) ∧
    (see (cur .top) (exec (.row (busAddr .top) [0x40, 0x01]) State.reset) = some (0, 1)) ∧
    (see (cur .top) (exec (.row (busAddr .top) [0x40, 0x01]) (at_ .bottom 3 9)) = some (0, 1)) := by decide
theorem witness_agree : AgreeOn .top State.reset.dec (at_ .bottom 3 9).dec := ⟨rfl, fun _ _ _ _ => rfl⟩
/-- RowsToDifferentDisplaysCommute: both orders run, and the decoders are equal. -/
theorem witness_commute :
    (after (exec (.row (busAddr .top) [0x40, 0x01]) State.reset)).bind
        (fun t => see State.dec (exec (.row (busAddr .bottom) [0x40, 0x02]) t)) =
      (after (exec (.row (busAddr .bottom) [0x40, 0x02]) State.reset)).bind
        (fun t => see State.dec (exec (.row (busAddr .top) [0x40, 0x01]) t)) ∧
    ((after (exec (.row (busAddr .top) [0x40, 0x01]) State.reset)).bind
        (fun t => see curs (exec (.row (busAddr .bottom) [0x40, 0x02]) t))) = some ((0, 1), (0, 1)) := by decide
/-- RowIsItsBytesInTurn: a data byte and the row after it. -/
theorem witness_row_in_turn :
    (after (exec (.wdata .top 0x11) (at_ .top 3 131))).bind
        (fun t => see (fun u => (u.dec.fb, cur .top u)) (exec (.data .top [0x22]) t)) =
      some ([(fbAddr .top 3 131, 0x11)], (3, 133)) := by decide
/-- FbreadAnswersTheByte: the last byte of each display, and the first locations that do not exist. -/
theorem witness_fbread :
    (see (fun s => s.ports.result) (exec (.fbread .dec .bottom 7 131) State.reset),
      why (exec (.fbread .enc .top 8 0) State.reset), why (exec (.fbread .enc .top 0 132) State.reset)) =
      (some (.byte 0), some .noSuchByte, some .noSuchByte) := by decide
/-- FbwriteOverwritesOneByte: the last byte, a value that stands there already, and the first locations outside. -/
theorem witness_fbwrite : (State.reset.fb .enc).wf = true ∧
    see (fun s => s.enc.fb) (exec (.fbwrite .enc .bottom 7 131 0xFF) State.reset) = some [(fbAddr .bottom 7 131, 0xFF)] ∧
    after (exec (.fbwrite .enc .top 0 0 0x00) State.reset) = some State.reset ∧
    why (exec (.fbwrite .dec .top 8 0 1) State.reset) = some .noSuchByte ∧
    why (exec (.fbwrite .dec .top 0 132 1) State.reset) = some .noSuchByte := by decide
/-- FbmaskwrUpdatesUnderTheMask: V-FB-4 at the last byte, and the first locations outside. -/
theorem witness_fbmaskwr : (State.reset.fb .dec).wf = true ∧
    see (fun s => s.ports.result) (exec (.fbmaskwr .enc .bottom 7 131 0x00 0xFF) (mirror .bottom 7 131 0xA5)) =
      some (.masked 0xA5 0xA5) ∧
    why (exec (.fbmaskwr .enc .top 8 0 1 1) State.reset) = some .noSuchByte ∧
    why (exec (.fbmaskwr .enc .top 0 132 1 1) State.reset) = some .noSuchByte := by decide
/-- MaskedByteLaws: disjoint masks; V-FB-6 for the last clause. -/
theorem witness_masks : (0x0F : Byte) &&& 0xF0 = 0 ∧ (0x80 : Byte) &&& 0x80 = 0x80 &&& 0x80 ∧
    maskedByte 0x80 0x80 0x80 = 0x80 := by decide
/-- Pix2addrNamesTheBit, BitmapComposesThePicture, Addr2pixInvertsPix2addr: V-PIX-2, V-PIX-6, V-PIX-7, V-PIX-11. -/
theorem witness_pixels :
    ([(131, 0), (7, 63), (7, 64), (131, 127)] : List (Nat × Nat)).map
      (fun q => see (fun s => s.ports.result) (exec (.pix2addr q.1 q.2) State.reset)) =
      [some (.address .top 0 0 131), some (.address .top 7 7 7), some (.address .bottom 0 0 7),
        some (.address .bottom 7 7 131)] := by decide
theorem witness_addr2pix :
    see (fun s => s.ports.result) (exec (.addr2pix .bottom 7 7 131) State.reset) = some (.pixel 131 127) ∧
    ¬ ((8 : Nat) ≤ 7 ∧ 0 ≤ 7 ∧ 0 ≤ 131) ∧ ¬ ((0 : Nat) ≤ 7 ∧ 8 ≤ 7 ∧ 0 ≤ 131) ∧ ¬ ((0 : Nat) ≤ 7 ∧ 0 ≤ 7 ∧ 132 ≤ 131) ∧
    see (fun s => s.ports.draws) (exec (.addr2pix .top 0 0 132) State.reset) =
      some (State.reset.ports.draws + 1) := by decide
/-- OperandsWithoutMeaningAreRefused: V-PIX-12 and V-ACC-6. -/
theorem witness_refused_operands :
    [why (exec (.pix2addr 132 0) State.reset), why (exec (.pix2addr 0 128) State.reset),
      why (exec (.accum [⟨5, 0, true⟩, ⟨0, 128, true⟩]) State.reset),
      why (exec (.accum [⟨5, 0, true⟩, ⟨5, 0, false⟩]) State.reset)] =
      [some .offCanvas, some .offCanvas, some .offCanvas, some .repeatedPixel] := by decide
/-- AccumGroupsPixelsByByte, EntryOrderOfASegmentIsIrrelevant, SegupdateAppliesTheTargets: an admitted segment at the corners
of the canvas, and a permutation of it. -/
theorem witness_admitted : segmentAdmitted [⟨0, 0, true⟩, ⟨131, 127, false⟩] = true ∧ State.reset.cfg.legal = true ∧
    [(⟨131, 127, false⟩ : Pixel), ⟨0, 0, true⟩].Perm [⟨0, 0, true⟩, ⟨131, 127, false⟩] ∧ State.reset.enc.fb.wf = true := by decide
/-- ApplyUpdatesAndRecordsChanges. -/
theorem witness_apply : accumulated.enc.fb.wf = true ∧ (accumulated.enc.acc.map AccEntry.key).Nodup ∧
    accumulated.enc.chg = [] := by decide
/-- PackGivesMaximalRuns: the last column; the cap 0; a set with the first column that does not exist. -/
theorem witness_pack :
    (see (fun s => s.ports.result) (exec (.pack [130, 131]) State.reset),
      why (exec (.pack [130]) (conf fun c => { c with maxRunLen := 0 })),
      see (fun s => s.ports.draws) (exec (.pack [131, 132]) State.reset)) =
      (some (.runs [⟨130, 2⟩]), some .maxRunLenZero, some (State.reset.ports.draws + 1)) := by decide
/-- CapsFrom132AreOne, at the least cap and the last column. -/
theorem witness_cap_132 : (132 : Nat) ≤ 132 ∧ ∀ c ∈ [130, 131], c ≤ 131 := by decide
/-- EmitAppendsThePair: the run that ends in the last column, at the least cap. -/
theorem witness_emit : 1 ≤ 1 ∧ 1 ≤ (conf fun c => { c with maxRunLen := 1 }).cfg.maxRunLen ∧
    (131 : BitVec 8).toNat + 1 ≤ 132 ∧
    see (fun s => s.enc.out) (exec (.emit .bottom 7 131 1) (mirror .bottom 7 131 0x80)) =
      some [⟨0x3D, [0x00, 0xB7, 0x03, 0x18]⟩, ⟨0x3D, [0x40, 0x80]⟩] := by decide
/-- EmitCompletesOnEveryOperand: one column past the edge, whose byte is free, and the empty run. -/
theorem witness_emit_outside :
    see (fun s => (s.enc.out.map fun r => r.payload.take 2)) (exec (.emit .top 0 131 2) (mirror .top 0 131 0x80)) =
      some [[0x00, 0xB0], [0x40, 0x80]] ∧
    see (fun s => (s.enc.out.map fun r => r.payload.length)) (exec (.emit .top 0 131 2) State.reset) = some [4, 3] ∧
    see (fun s => s.enc.out) (exec (.emit .top 0 5 0) State.reset) =
      some [⟨0x3C, [0x00, 0xB0, 0x05, 0x10]⟩, ⟨0x3C, [0x40]⟩] := by decide
/-- SegupdateAppliesTheTargets: each refusal. -/
theorem witness_segupdate_refusals :
    [why (exec (.segupdate [⟨132, 0, true⟩]) State.reset),
      why (exec (.segupdate [⟨5, 0, true⟩, ⟨5, 0, false⟩]) State.reset),
      why (exec (.segupdate [⟨5, 0, true⟩]) (conf fun c => { c with maxRunLen := 0 })),
      why (exec (.segupdate [⟨5, 0, true⟩]) (conf fun c => { c with pageOrder := [(.top, 0)] }))] =
      [some .offCanvas, some .repeatedPixel, some .maxRunLenZero, some .badPageOrder] := by decide
/-- SegupdateSendsExactlyTheChangedBytes: the default order and the least cap. -/
theorem witness_sends : (mirror .top 7 7 0x80).enc.fb.wf = true ∧ segmentAdmitted [⟨7, 63, true⟩, ⟨7, 64, true⟩] = true ∧
    1 ≤ (conf fun c => { c with maxRunLen := 1 }).cfg.maxRunLen ∧
    (mirror .top 7 7 0x80).cfg.pageOrder = Config.defaultPageOrder := by decide
/-- SegupdateSendsExactlyTheChangedBytes: a run whose next byte changed too, at the cap (V-SEG-4 with two pixels and the least
cap). -/
theorem witness_sends_at_the_cap :
    see (fun s => s.enc.out) (exec (.segupdate [⟨20, 10, true⟩, ⟨21, 10, true⟩]) (conf fun c => { c with maxRunLen := 1 })) =
      some [⟨0x3C, [0x00, 0xB1, 0x04, 0x11]⟩, ⟨0x3C, [0x40, 0x04]⟩, ⟨0x3C, [0x00, 0xB1, 0x05, 0x11]⟩,
        ⟨0x3C, [0x40, 0x04]⟩] := by decide
/-- UnchangedSegmentEmitsNothing: V-SEG-9 from reset, whose target is already black. -/
theorem witness_unchanged : State.reset.Inv ∧ segmentAdmitted [⟨9, 9, false⟩] = true ∧ State.reset.cfg.legal = true ∧
    ∀ e ∈ [(⟨9, 9, false⟩ : Pixel)], State.reset.enc.fb.pixel e.x e.y = e.on := 
  ⟨⟨rfl, ⟨rfl, rfl, rfl, rfl⟩⟩, by decide, by decide, by decide⟩
/-- ReplayOfOutEqualsTheMirror: a legal configuration with another page order and cap 1, and two segments. -/
theorem witness_replay :
    ({ strict Settings.default with maxRunLen := 1, pageOrder := Config.defaultPageOrder.reverse } : Settings).legal = true ∧
    ∀ seg ∈ [[(⟨7, 63, true⟩ : Pixel), ⟨7, 64, true⟩], [⟨7, 63, false⟩]], segmentAdmitted seg = true := by decide

/-- Every canvas pixel once, each with its target. -/
def wholeCanvas (target : Nat → Nat → Bool) : List Pixel :=
  (List.range 132 ×ˢ List.range 128).map fun q => ⟨q.1, q.2, target q.1 q.2⟩

/-- PhaseShowsTheTargetBitmap: for any target, one segment that names the whole canvas. -/
theorem witness_phase (target : Nat → Nat → Bool) :
    ([wholeCanvas target].flatten.map fun e => (e.x, e.y)).Nodup ∧
    (∀ e ∈ [wholeCanvas target].flatten, onCanvas e.x e.y = true ∧ e.on = target e.x e.y) ∧
    (∀ x y, x ≤ 131 → y ≤ 127 → ∃ e ∈ [wholeCanvas target].flatten, (e.x, e.y) = (x, y)) := by
  refine ⟨?_, ?_, ?_⟩
  · simpa [wholeCanvas, Function.comp_def] using List.nodup_range.product List.nodup_range
  · intro e he
    simp only [wholeCanvas, List.flatten_cons, List.flatten_nil, List.append_nil, List.mem_map, Prod.exists] at he
    obtain ⟨x, y, hxy, rfl⟩ := he
    simpa [onCanvas] using hxy
  · intro x y hx hy
    exact ⟨⟨x, y, target x y⟩, by simp [wholeCanvas]; omega, rfl⟩

/-- StrobeAfterEveryNthDataRow, DrowsCountsDataRows: an empty data row counts, at the least stride (V-SMP-2). -/
theorem witness_strobe :
    see (fun s => (s.dec.drows, s.sampleStrobe)) (exec (.row 0x3C [0x40]) (conf fun c => { c with frameStride := 1 })) =
      some (1, true) ∧ 1 ≤ (conf fun c => { c with frameStride := 1 }).cfg.frameStride := by decide
/-- StrobeAfterEveryNthDataRow, DrowsCountsDataRows: the data rows under their other names raise the strobe, a control row,
a single command and a single data byte drop it. -/
theorem witness_strobe_names :
    ([.data .top [0x01], .write .bottom [], .run .top 0 0 [0x01], .addrTop [0x40], .ctrl .top [0xB1], .setpage .top 1,
        .wdata .top 0x01] : List Instr).map
      (fun i => (isRowProtocol i, completesDataRow i, see State.sampleStrobe (exec i (sampled 1 true)))) =
      [(true, true, some true), (true, true, some true), (true, true, some true), (true, true, some true),
        (true, false, some false), (true, false, some false), (true, false, some false)] := by decide
/-- StepKeepsTheInvariant, NoStepChangesTheConfiguration: a state that meets the invariant and steps, with a row in `OUT`
afterwards. -/
theorem witness_step : (State.reset.present (.op (.segupdate [⟨5, 0, true⟩]))).Inv ∧
    see (fun s => s.enc.out) (step (State.reset.present (.op (.segupdate [⟨5, 0, true⟩])))) =
      some [⟨0x3C, [0x00, 0xB0, 0x05, 0x10]⟩, ⟨0x3C, [0x40, 0x01]⟩] := ⟨⟨rfl, ⟨rfl, rfl, rfl, rfl⟩⟩, by decide⟩
/-- AgentsShareNoState, OutIsAppendOnly: a row and a segment that both go on. -/
theorem witness_agents :
    isRowProtocol (.data .top [0x01]) = true ∧ see State.enc (exec (.data .top [0x01]) accumulated) = some accumulated.enc ∧
    isSequencerOp (.segupdate [⟨5, 0, true⟩]) = true ∧
    see State.dec (exec (.segupdate [⟨5, 0, true⟩]) (at_ .top 3 9)) = some (at_ .top 3 9).dec ∧
    Instr.segupdate [⟨5, 0, true⟩] ≠ .reset := by decide
/-- AgentsShareNoState, reads: two states that agree on one agent and differ on the other. -/
theorem witness_agents_reads : accumulated.dec = State.reset.dec ∧ accumulated.cfg = State.reset.cfg ∧
    accumulated.enc ≠ State.reset.enc ∧ (at_ .top 3 9).enc = State.reset.enc ∧ (at_ .top 3 9).cfg = State.reset.cfg ∧
    (at_ .top 3 9).ports.draws = State.reset.ports.draws ∧ (at_ .top 3 9).dec ≠ State.reset.dec := by decide
/-- FramebuffersHaveTheirWriters: steps after which `DEC.FB` and `ENC.FB` differ. -/
theorem witness_writers :
    see (fun s => s.dec.fb) (step (State.reset.present (.bytes .rowAddress [0x3C, 0x40, 0x01]))) =
      some [(fbAddr .top 0 0, 0x01)] ∧
    see (fun s => s.dec.fb) (step (State.reset.present (.op (.fbmaskwr .dec .top 0 1 0x0F 0xFF)))) =
      some [(fbAddr .top 0 1, 0x0F)] ∧
    see (fun s => s.enc.fb) (step (State.reset.present (.op (.segupdate [⟨5, 0, true⟩])))) =
      some [(fbAddr .top 0 5, 0x01)] ∧
    see (fun s => s.enc.fb) (step (State.reset.present (.op (.fbwrite .enc .top 0 0 0x01)))) =
      some [(fbAddr .top 0 0, 0x01)] := by decide
/-- InternalStepsAreRefusedAlone. -/
theorem witness_internal : (State.reset.present (.op .apply)).ports.input = .op .apply :: [] ∧
    why (step (State.reset.present (.op .apply))) = some .internalStepAlone := by decide

end Sys2Proof.Tests
end

section
/-! Proofs for 10_state.md: what the state holds right after reset. -/

namespace Sys2Proof.Machine

@[simp] theorem Decoder.cursor_reset (a : Display) : Decoder.reset.cursor a = ⟨0, 0⟩ := by
  cases a <;> rfl

@[simp] theorem State.dec_reset : State.reset.dec = Decoder.reset := rfl

/-- Both instances, the decoder's and the mirror, list no byte after reset (R36). -/
@[simp] theorem State.fb_reset (b : FbInst) : State.reset.fb b = [] := by
  cases b <;> rfl

end Sys2Proof.Machine

namespace Sys2Proof.Claims

open Sys2Proof Sys2Proof.Machine

/-- An instance that lists no byte is all black (R21). -/
@[simp] theorem byteOf_nil (a : Display) (p c : Nat) : byteOf [] a p c = 0x00 :=
  Memory.read_nil (fbAddr a p c)

/-- Settles O1: each piece of state by its own reset value, the cursors per display and the bytes per instance. -/
theorem resetStateIsAllZero : Obligations.ResetStateIsAllZero := by
  have cursors (a : Display) : (State.reset.dec.cursor a).page = 0 ∧ (State.reset.dec.cursor a).col = 0 := by
    rw [State.dec_reset, Decoder.cursor_reset]
    exact ⟨rfl, rfl⟩
  have bytes (b : FbInst) (a : Display) (p c : Nat) : byteOf (State.reset.fb b) a p c = 0x00 := by
    rw [State.fb_reset, byteOf_nil]
  exact ⟨cursors, fun b a p c _ _ => bytes b a p c, rfl, rfl, rfl, rfl, rfl, rfl⟩

end Sys2Proof.Claims
end

section
/-! Proofs for 40_framebuffer_access.md: FBREAD. -/

namespace Sys2Proof.Claims

open Sys2Proof Sys2Proof.Machine

/-- Where no storage exists (R49), in the bounds the statements write. -/
theorem byteAt?_eq_none_of_outside {a : Display} {p c : Nat} (h : ¬ (p ≤ 7 ∧ c ≤ 131)) : byteAt? a p c = none := by
  rw [byteAt?_eq_none, ← Bool.not_eq_true, inFramebuffer_iff]
  omega

/-- An answer on the host's port is the only thing that differs. -/
theorem onlyAnswer_answer (s : State) (r : Result) : OnlyAnswer s (s.answer r) := ⟨rfl, rfl, rfl, rfl, rfl, rfl⟩

/-- FBREAD where the byte exists (R90). -/
theorem exec_fbread_of_inside {p c : Nat} (hp : p < 8) (hc : c < 132) (b : FbInst) (a : Display) (s : State) :
    exec (.fbread b a p c) s = .next (s.answer (.byte (byteOf (s.fb b) a p c))) := by
  simp only [exec, execFbread, byteAt?_of_lt a hp hc, ByteKey.addr, byteOf]

/-- FBREAD where no storage exists (R90). -/
theorem exec_fbread_of_outside {p c : Nat} (h : ¬ (p ≤ 7 ∧ c ≤ 131)) (b : FbInst) (a : Display) (s : State) :
    exec (.fbread b a p c) s = .refused .noSuchByte := by
  simp only [exec, execFbread, byteAt?_eq_none_of_outside h]

/-- Settles O26: inside the ranges the next state is the old one with the byte as its answer; outside there is no byte. -/
theorem fbreadAnswersTheByte : Obligations.FbreadAnswersTheByte := by
  intro b a p c s
  constructor
  · rintro ⟨hp, hc⟩
    exact ⟨_, exec_fbread_of_inside (by omega) (by omega) b a s, State.answer_result s _, onlyAnswer_answer s _⟩
  · intro h
    exact exec_fbread_of_outside h b a s

end Sys2Proof.Claims
end

section
/-! Proofs for 41_pixel_address_decode.md: PIX2ADDR and BITMAP. -/

namespace Sys2Proof.Machine

/-! ### The two halves of the canvas (R47) -/

theorem pixelHalf_of_lt {y : Nat} (h : y < 64) : pixelHalf y = .top := if_pos h

theorem pixelHalf_of_ge {y : Nat} (h : 64 ≤ y) : pixelHalf y = .bottom := if_neg (Nat.not_lt.2 h)

theorem pixelRow_of_lt {y : Nat} (h : y < 64) : pixelRow y = y := if_pos h

theorem pixelRow_of_ge {y : Nat} (h : 64 ≤ y) : pixelRow y = y - 64 := if_neg (Nat.not_lt.2 h)

/-- PIX2ADDR of a canvas pixel, in whichever half it lies (R100). -/
theorem exec_pix2addr_of_canvas {x y : Nat} (hx : x < 132) (hy : y < 128) (s : State) :
    exec (.pix2addr x y) s = .next (s.answer (.address (pixelHalf y) (pixelRow y / 8) (pixelRow y % 8) x)) := by
  simp only [exec, execPix2addr, pixelAddr?_of_canvas hx hy]

/-! ### The picture (R104) -/

theorem exec_bitmap (b : FbInst) (s : State) :
    exec (.bitmap b) s = .next (s.answer (.picture (s.fb b).bitmap)) := rfl

@[simp] theorem Memory.bitmap_length (m : Memory) : m.bitmap.length = 132 := by
  simp [Memory.bitmap]

theorem Memory.length_of_mem_bitmap {m : Memory} {col : List Bool} (h : col ∈ m.bitmap) : col.length = 128 := by
  obtain ⟨x, -, rfl⟩ := List.mem_map.1 h
  simp

theorem Memory.bitmap_getElem? (m : Memory) {x y : Nat} (hx : x < 132) (hy : y < 128) :
    (m.bitmap[x]?.bind fun col => col[y]?) = some (m.pixel x y) := by
  simp [Memory.bitmap, hx, hy]

end Sys2Proof.Machine

namespace Sys2Proof.Claims

open Sys2Proof Sys2Proof.Machine

/-- Settles O32: the half decides the display, and the row within the half decides the page and the bit. -/
theorem pix2addrNamesTheBit : Obligations.Pix2addrNamesTheBit := by
  intro x y s
  constructor
  · rintro ⟨hx, hy⟩
    refine ⟨_, exec_pix2addr_of_canvas (by omega) (by omega) s, ?_, onlyAnswer_answer s _⟩
    rw [State.answer_result, pixelHalf_of_lt hy, pixelRow_of_lt hy]
  · rintro ⟨hx, hlo, hhi⟩
    refine ⟨_, exec_pix2addr_of_canvas (by omega) (by omega) s, ?_, onlyAnswer_answer s _⟩
    rw [State.answer_result, pixelHalf_of_ge hlo, pixelRow_of_ge hlo]

/-- A pixel of the canvas is the bit that PIX2ADDR names for it (R104). -/
theorem pixel_of_canvas (m : Memory) {x y : Nat} (hx : x < 132) (hy : y < 128) :
    m.pixel x y = (byteOf m (pixelHalf y) (pixelRow y / 8) x).getLsbD (pixelRow y % 8) := by
  simp only [Memory.pixel, pixelAddr?_of_canvas hx hy, ByteKey.addr, byteOf]

theorem pixel_of_top (m : Memory) {x y : Nat} (hx : x < 132) (hy : y < 64) :
    m.pixel x y = (byteOf m .top (y / 8) x).getLsbD (y % 8) := by
  rw [pixel_of_canvas m hx (by omega), pixelHalf_of_lt hy, pixelRow_of_lt hy]

theorem pixel_of_bottom (m : Memory) {x y : Nat} (hx : x < 132) (hy : y < 64) :
    m.pixel x (64 + y) = (byteOf m .bottom (y / 8) x).getLsbD (y % 8) := by
  have hge : 64 ≤ 64 + y := by omega
  rw [pixel_of_canvas m hx (by omega), pixelHalf_of_ge hge, pixelRow_of_ge hge, Nat.add_sub_cancel_left]

/-- Settles O35: the picture lists the framebuffer's pixels, and each half of a column shows one display's bytes. -/
theorem bitmapComposesThePicture : Obligations.BitmapComposesThePicture := by
  intro b s
  refine ⟨_, _, exec_bitmap b s, State.answer_result s _, onlyAnswer_answer s _, Memory.bitmap_length _,
    fun col => Memory.length_of_mem_bitmap, ?_, ?_⟩
  · intro x y hx hy
    have hx' : x < 132 := by omega
    rw [Memory.bitmap_getElem? _ hx' (by omega), pixel_of_top _ hx' hy]
  · intro x y hx hy
    have hx' : x < 132 := by omega
    rw [Memory.bitmap_getElem? _ hx' (by omega), pixel_of_bottom _ hx' hy]

end Sys2Proof.Claims
end

section
/-! Proofs for 41_pixel_address_decode.md: ACCUM. -/

namespace Sys2Proof.Machine

theorem admitSegment_of_admitted {seg : List Pixel} (h : segmentAdmitted seg = true) : admitSegment seg = .ok () := by
  obtain ⟨hcanvas, hdistinct⟩ := Bool.and_eq_true_iff.1 h
  simp only [admitSegment, hcanvas, hdistinct, if_true]

theorem exec_accum_of_admitted {seg : List Pixel} (h : segmentAdmitted seg = true) (s : State) :
    exec (.accum seg) s = .next { s with enc := { s.enc with acc := accumulate seg } } := by
  simp only [exec, execAccum, admitSegment_of_admitted h]

/-- A pixel lies at bit `i` of a byte exactly when ADDR2PIX of that bit is the pixel (R102). -/
theorem pixelAddr?_eq_some_iff_addrPixel {x y i : Nat} {k : ByteKey} (hi : i < 8) :
    pixelAddr? x y = some ⟨k, i⟩ ↔ (x, y) = addrPixel k.disp k.page.val i k.col.val :=
  pixelAddr?_eq_some.trans (and_iff_right hi)

/-- A byte whose bits all lie in the mask has none outside it. -/
theorem and_not_eq_zero_of_getLsbD_imp {mask v : Byte} (h : ∀ i, v.getLsbD i = true → mask.getLsbD i = true) :
    v &&& ~~~mask = 0 := by
  apply BitVec.eq_of_getLsbD_eq
  intro i _
  cases hv : v.getLsbD i with
  | false => simp [hv]
  | true => simp [h i hv]

/-! ### The entries of `ACC`, each found under its own key -/

theorem AccSorted.find?_key_of_mem {acc : List AccEntry} {e : AccEntry} (h : AccSorted acc) (he : e ∈ acc) :
    acc.find? (fun e' => e'.key = e.key) = some e := by
  cases hf : acc.find? fun e' => e'.key = e.key with
  | none => simpa using List.find?_eq_none.1 hf e he
  | some e' =>
    have hkey : e'.key = e.key := by simpa using List.find?_some hf
    rw [List.inj_on_of_nodup_map h.nodup (List.mem_of_find?_eq_some hf) he hkey]

theorem AccSorted.accMask_of_mem {acc : List AccEntry} {e : AccEntry} (h : AccSorted acc) (he : e ∈ acc) :
    accMask acc e.key = e.mask := by
  simp only [accMask, h.find?_key_of_mem he]

theorem AccSorted.accDesired_of_mem {acc : List AccEntry} {e : AccEntry} (h : AccSorted acc) (he : e ∈ acc) :
    accDesired acc e.key = e.desired := by
  simp only [accDesired, h.find?_key_of_mem he]

/-- A bit of an entry's mask is set exactly for a pixel of the segment (R106). -/
theorem accumulate_mask_iff {seg : List Pixel} {e : AccEntry} (he : e ∈ accumulate seg) (i : Nat) :
    e.mask.getLsbD i = true ↔ ∃ px ∈ seg, pixelAddr? px.x px.y = some ⟨e.key, i⟩ := by
  rw [← (accumulate_sorted seg).accMask_of_mem he]
  exact (accumulate_spec seg e.key).2.1 i

/-- A bit of an entry's desired byte is set exactly for a pixel of the segment that is on (R106). -/
theorem accumulate_desired_iff {seg : List Pixel} {e : AccEntry} (he : e ∈ accumulate seg) (i : Nat) :
    e.desired.getLsbD i = true ↔ ∃ px ∈ seg, pixelAddr? px.x px.y = some ⟨e.key, i⟩ ∧ px.on = true := by
  rw [← (accumulate_sorted seg).accDesired_of_mem he]
  exact (accumulate_spec seg e.key).2.2 i

/-- A byte has an entry exactly when a pixel of the segment lies in it (R106). -/
theorem exists_mem_accumulate_iff {seg : List Pixel} {k : ByteKey} :
    (∃ e ∈ accumulate seg, e.key = k) ↔ ∃ px ∈ seg, ∃ i, pixelAddr? px.x px.y = some ⟨k, i⟩ :=
  (accumulate_spec seg k).1.symm

/-- An entry stands for at least one pixel. -/
theorem accumulate_mask_ne_zero {seg : List Pixel} {e : AccEntry} (he : e ∈ accumulate seg) : e.mask ≠ 0 := by
  obtain ⟨px, hpx, i, hi⟩ := exists_mem_accumulate_iff.1 ⟨e, he, rfl⟩
  have hbit : e.mask.getLsbD i = true := (accumulate_mask_iff he i).2 ⟨px, hpx, hi⟩
  intro hzero
  simp [hzero] at hbit

/-- Only touched bits are desired. -/
theorem accumulate_desired_and_not_mask {seg : List Pixel} {e : AccEntry} (he : e ∈ accumulate seg) :
    e.desired &&& ~~~e.mask = 0 := by
  apply and_not_eq_zero_of_getLsbD_imp
  intro i hi
  obtain ⟨px, hpx, haddr, -⟩ := (accumulate_desired_iff he i).1 hi
  exact (accumulate_mask_iff he i).2 ⟨px, hpx, haddr⟩

end Sys2Proof.Machine

namespace Sys2Proof.Claims

open Sys2Proof Sys2Proof.Machine

/-- Settles O36: ACCUM leaves `accumulate seg` in `ACC`; its keys, mask bits and desired bits are read off the pixels,
each named by ADDR2PIX instead of PIX2ADDR. -/
theorem accumGroupsPixelsByByte : Obligations.AccumGroupsPixelsByByte := by
  intro seg s hadm
  refine ⟨_, exec_accum_of_admitted hadm s, ⟨rfl, rfl, rfl⟩, rfl, rfl, rfl, (accumulate_sorted seg).nodup, ?_, ?_⟩
  · intro k
    simp only [exists_mem_accumulate_iff, pixelAddr?_eq_some, and_comm (a := _ < 8)]
  · intro e he
    refine ⟨accumulate_mask_ne_zero he, accumulate_desired_and_not_mask he, fun i hi => ⟨?_, ?_⟩⟩
    · simp only [accumulate_mask_iff he, pixelAddr?_eq_some_iff_addrPixel hi]
    · simp only [accumulate_desired_iff he, pixelAddr?_eq_some_iff_addrPixel hi]

end Sys2Proof.Claims
end

section
/-! Proofs for 42_update_sequencer.md: APPLY. -/

namespace Sys2Proof.Machine

theorem exec_apply (s : State) : exec .apply s = .next { s with enc := s.enc.applyAll } := rfl

/-- No masked write touches `ACC` or `OUT`, whatever the entries are. -/
theorem Sequencer.applyFold_acc_out (es : List AccEntry) (q : Sequencer) :
    (es.foldl Sequencer.applyEntry q).acc = q.acc ∧ (es.foldl Sequencer.applyEntry q).out = q.out := by
  induction es generalizing q with
  | nil => exact ⟨rfl, rfl⟩
  | cons e es ih => exact ih (q.applyEntry e)

@[simp] theorem Sequencer.applyAll_acc (q : Sequencer) : q.applyAll.acc = q.acc :=
  (Sequencer.applyFold_acc_out q.acc q).1

@[simp] theorem Sequencer.applyAll_out (q : Sequencer) : q.applyAll.out = q.out :=
  (Sequencer.applyFold_acc_out q.acc q).2

/-- A byte without an entry in `ACC` reads as before APPLY (R116). -/
theorem Sequencer.read_applyAll_of_no_entry {q : Sequencer} (hwf : q.fb.wf = true)
    (hkeys : (q.acc.map AccEntry.key).Nodup) (hchg : q.chg = []) {k : ByteKey} (hk : ∀ e ∈ q.acc, e.key ≠ k) :
    q.applyAll.fb.read k.addr = q.fb.read k.addr := by
  obtain ⟨-, -, -, -, -, hother, -⟩ := Sequencer.applyFold_spec q.acc q hwf hkeys (hchg ▸ ChgSorted.nil)
  exact hother k.addr fun e he haddr => hk e he (ByteKey.addr_inj.1 haddr)

/-- From an empty changed-set, APPLY records a byte exactly when it changed (R116): only a byte with an entry can. -/
theorem Sequencer.mem_chgCols_applyAll {q : Sequencer} (hwf : q.fb.wf = true)
    (hkeys : (q.acc.map AccEntry.key).Nodup) (hchg : q.chg = []) (k : ByteKey) :
    k.col.val ∈ chgCols q.applyAll.chg k.disp k.page ↔ q.applyAll.fb.read k.addr ≠ q.fb.read k.addr := by
  obtain ⟨-, -, -, -, -, -, hcols⟩ := Sequencer.applyFold_spec q.acc q hwf hkeys (hchg ▸ ChgSorted.nil)
  have hempty : k.col.val ∉ chgCols q.chg k.disp k.page := by simp [hchg, chgCols]
  refine (hcols k.disp k.page k.col.val).trans ((or_iff_right hempty).trans ⟨?_, ?_⟩)
  · rintro ⟨e, -, hdisp, hpage, hcol, hne⟩
    have hkey : e.key = k := ByteKey.addr_inj.1 (by rw [ByteKey.addr, hdisp, hpage, hcol, ByteKey.addr])
    exact hkey ▸ hne
  · intro hne
    by_contra hno
    refine hne (Sequencer.read_applyAll_of_no_entry hwf hkeys hchg ?_)
    rintro e he rfl
    exact hno ⟨e, he, rfl, rfl, rfl, hne⟩

end Sys2Proof.Machine

namespace Sys2Proof.Claims

open Sys2Proof Sys2Proof.Machine

/-- Settles O38: APPLY folds one masked write per entry over the mirror; the three clauses are the bytes with an entry,
the bytes without one, and the changed-set. -/
theorem applyUpdatesAndRecordsChanges : Obligations.ApplyUpdatesAndRecordsChanges := by
  intro s
  refine ⟨_, exec_apply s, ⟨rfl, rfl, rfl⟩, s.enc.applyAll_acc, s.enc.applyAll_out, ?_⟩
  intro hwf hkeys hchg
  obtain ⟨-, -, -, -, hmasked, -, -⟩ :=
    Sequencer.applyFold_spec s.enc.acc s.enc hwf hkeys (hchg ▸ ChgSorted.nil)
  exact ⟨hmasked, fun k => Sequencer.read_applyAll_of_no_entry hwf hkeys hchg,
    Sequencer.mem_chgCols_applyAll hwf hkeys hchg⟩

end Sys2Proof.Claims
end

section
/-! Proofs for 42_update_sequencer.md: EMIT. -/

namespace Sys2Proof.Machine

/-- EMIT of a run inside its page draws no free value: only `OUT` grows (R121, R122). -/
theorem exec_emit_of_inPage (a : Display) (p : BitVec 3) (c0 : BitVec 8) {n : Nat} (h : c0.toNat + n ≤ 132)
    (s : State) : exec (.emit a p c0 n) s = .next { s with enc := { s.enc with
      out := s.enc.out ++ runRows a p.toNat c0.toNat (s.enc.fb.sendRun a p.toNat c0.toNat n s.ports.draws).1 } } := by
  simp only [exec, execEmit, Memory.sendRun_draws _ a p.isLt h]

theorem busAddr_eq_ite (a : Display) : busAddr a = if a = .top then 0x3C else 0x3D := by
  cases a <;> rfl

/-- The pair of rows of a page and column that are given as fields of a byte (R121, R122). -/
theorem runRows_toNat (a : Display) (p : BitVec 3) (c : BitVec 8) (ds : List Byte) :
    runRows a p.toNat c.toNat ds =
      [⟨busAddr a, [0x00, 0xB0 ||| p.setWidth 8, c &&& 0x0F, 0x10 ||| ((c >>> 4) &&& 0x0F)]⟩,
       ⟨busAddr a, 0x40 :: ds⟩] := by
  simp only [runRows, ctrlRowPayload, dataRowPayload, Config.hdrCtrl, Config.hdrData, BitVec.ofNat_toNat,
    BitVec.setWidth_eq]

end Sys2Proof.Machine

namespace Sys2Proof.Claims

open Sys2Proof Sys2Proof.Machine

/-- Settles O41: inside the page EMIT appends the pair of the run, and every byte it sends is the mirror's. -/
theorem emitAppendsThePair : Obligations.EmitAppendsThePair := by
  rintro a p c0 n s ⟨-, -, hin⟩
  have hlen := Memory.length_sendRun s.enc.fb a p.toNat c0.toNat n s.ports.draws
  refine ⟨_, (s.enc.fb.sendRun a p.toNat c0.toNat n s.ports.draws).1, exec_emit_of_inPage a p c0 hin s,
    ⟨rfl, rfl, rfl⟩, rfl, rfl, rfl, ?_, hlen, ?_⟩
  · simp only [runRows_toNat, busAddr_eq_ite]
  · intro i hi
    exact Memory.getElem_sendRun _ a p.isLt _ _ _ i hi (by omega)

end Sys2Proof.Claims
end

section
/-! Proofs for 42_update_sequencer.md: SEGUPDATE of a segment that changes nothing. -/

namespace Sys2Proof.Machine

theorem Settings.ready_of_legal {cfg : Settings} (h : cfg.legal = true) : cfg.ready = .ok () := by
  obtain ⟨hcap, horder⟩ := Settings.legal_iff.1 h
  simp only [Settings.ready, if_neg (Nat.one_le_iff_ne_zero.1 hcap), if_pos horder]

theorem exec_segupdate_of_admitted {seg : List Pixel} (h : segmentAdmitted seg = true) {s : State}
    (hcfg : s.cfg.legal = true) :
    exec (.segupdate seg) s = .next { s with enc := s.enc.segUpdate s.cfg seg } := by
  simp only [exec, execSegupdate, admitSegment_of_admitted h, Settings.ready_of_legal hcfg]

/-! ### Pixels decide an instance -/

theorem Memory.pixel_of_pixelAddr? (m : Memory) {x y i : Nat} {k : ByteKey} (h : pixelAddr? x y = some ⟨k, i⟩) :
    m.pixel x y = (m.read k.addr).getLsbD i := by
  simp only [Memory.pixel, h]

/-- Two canonical instances that show the same picture are the same data: each bit of each byte is a pixel (R102). -/
theorem Memory.ext_pixel {m m' : Memory} (h : m.wf = true) (h' : m'.wf = true)
    (hpixel : ∀ x y, onCanvas x y = true → m.pixel x y = m'.pixel x y) : m = m' := by
  refine Memory.ext h h' fun n hn => ?_
  obtain ⟨a, p, c, hp, hc, rfl⟩ := exists_fbAddr hn
  refine BitVec.eq_of_getLsbD_eq fun i hi => ?_
  obtain ⟨x, y, hxy⟩ : ∃ x y, (x, y) = addrPixel a p i c := ⟨_, _, rfl⟩
  have haddr : pixelAddr? x y = some ⟨⟨a, ⟨p, hp⟩, ⟨c, hc⟩⟩, i⟩ := pixelAddr?_eq_some.2 ⟨hi, hxy⟩
  have hcanvas : onCanvas x y = true := by
    rw [← Bool.not_eq_false, ← pixelAddr?_eq_none, haddr]
    exact Option.some_ne_none _
  have hbit := hpixel x y hcanvas
  rwa [m.pixel_of_pixelAddr? haddr, m'.pixel_of_pixelAddr? haddr] at hbit

/-! ### A segment whose targets already stand -/

/-- ACCUM and APPLY leave the mirror when every named pixel has its target (R126). -/
theorem Sequencer.applied_fb_of_unchanged {q : Sequencer} (hwf : q.fb.wf = true) {seg : List Pixel}
    (hd : segmentDistinct seg = true) (h : ∀ e ∈ seg, q.fb.pixel e.x e.y = e.on) :
    (q.applied seg).fb = q.fb := by
  obtain ⟨-, hwf', -, -, -⟩ := Sequencer.applied_spec q hwf seg
  refine Memory.ext_pixel hwf' hwf fun x y hxy => ?_
  rw [Sequencer.applied_pixel q hwf hd hxy]
  cases hf : seg.find? fun e => e.x = x ∧ e.y = y with
  | none => rfl
  | some e =>
    obtain ⟨rfl, rfl⟩ : e.x = x ∧ e.y = y := by simpa using List.find?_some hf
    exact (h e (List.mem_of_find?_eq_some hf)).symm

/-- A segment that leaves the mirror has no changed column, and so no row to send (R118, R126). -/
theorem Sequencer.allRows_eq_nil_of_fb_eq {q : Sequencer} (hwf : q.fb.wf = true) {seg : List Pixel}
    (h : (q.applied seg).fb = q.fb) (cfg : Settings) : (q.applied seg).allRows cfg = [] := by
  obtain ⟨-, -, -, -, hchg⟩ := Sequencer.applied_spec q hwf seg
  have hcols : ∀ a p, chgCols (q.applied seg).chg a p = [] := fun a p =>
    List.eq_nil_iff_forall_not_mem.2 fun c hc => ((hchg a p c).1 hc).2 (by rw [h])
  simp [Sequencer.allRows, Sequencer.pageRows, hcols]

/-- "No change, no output" (R126), for a sequencer between operations. -/
theorem Sequencer.segUpdate_of_unchanged {q : Sequencer} (hwf : q.fb.wf = true) (hacc : q.acc = [])
    (hchg : q.chg = []) {seg : List Pixel} (hd : segmentDistinct seg = true)
    (h : ∀ e ∈ seg, q.fb.pixel e.x e.y = e.on) (cfg : Settings) : q.segUpdate cfg seg = q := by
  have hfb := Sequencer.applied_fb_of_unchanged hwf hd h
  have hrows := Sequencer.allRows_eq_nil_of_fb_eq hwf hfb cfg
  obtain ⟨hout, -, -, -, -⟩ := Sequencer.applied_spec q hwf seg
  calc q.segUpdate cfg seg
      = ⟨(q.applied seg).fb, [], [], (q.applied seg).out ++ (q.applied seg).allRows cfg⟩ := rfl
    _ = ⟨q.fb, q.acc, q.chg, q.out⟩ := by rw [hfb, hrows, hout, List.append_nil, hacc, hchg]

/-- After ACCUM and APPLY each pixel that a segment names has its target (R115, R116). -/
theorem Sequencer.applied_pixel_of_mem {q : Sequencer} (hwf : q.fb.wf = true) {seg : List Pixel}
    (hadm : segmentAdmitted seg = true) {e : Pixel} (he : e ∈ seg) : (q.applied seg).fb.pixel e.x e.y = e.on := by
  obtain ⟨hcanvas, hd⟩ := Bool.and_eq_true_iff.1 hadm
  rw [Sequencer.applied_pixel q hwf hd (List.all_eq_true.1 hcanvas e he)]
  cases hf : seg.find? fun e' => e'.x = e.x ∧ e'.y = e.y with
  | none => simpa using List.find?_eq_none.1 hf e he
  | some e' =>
    have hxy : (e'.x, e'.y) = (e.x, e.y) := by simpa using List.find?_some hf
    have hnodup : (seg.map fun e => (e.x, e.y)).Nodup := of_decide_eq_true hd
    rw [List.inj_on_of_nodup_map hnodup (List.mem_of_find?_eq_some hf) he hxy]

/-- The second SEGUPDATE of a segment finds every target in place (R126). -/
theorem Sequencer.segUpdate_segUpdate {q : Sequencer} (hwf : q.fb.wf = true) {seg : List Pixel}
    (hadm : segmentAdmitted seg = true) (cfg : Settings) :
    (q.segUpdate cfg seg).segUpdate cfg seg = q.segUpdate cfg seg := by
  obtain ⟨-, hwf', -, -, -⟩ := Sequencer.applied_spec q hwf seg
  obtain ⟨-, hd⟩ := Bool.and_eq_true_iff.1 hadm
  exact Sequencer.segUpdate_of_unchanged (q := q.segUpdate cfg seg) hwf' rfl rfl hd
    (fun _ => Sequencer.applied_pixel_of_mem hwf hadm) cfg

end Sys2Proof.Machine

namespace Sys2Proof.Claims

open Sys2Proof Sys2Proof.Machine

/-- Settles O45: the sequencer of a state between operations is left as it is when the targets stand, and the first
SEGUPDATE makes them stand. -/
theorem unchangedSegmentEmitsNothing : Obligations.UnchangedSegmentEmitsNothing := by
  rintro seg s ⟨-, hwf, hacc, hchg, -⟩ hadm hcfg
  obtain ⟨-, hd⟩ := Bool.and_eq_true_iff.1 hadm
  constructor
  · intro htargets
    rw [exec_segupdate_of_admitted hadm hcfg, Sequencer.segUpdate_of_unchanged hwf hacc hchg hd htargets]
  · refine ⟨_, exec_segupdate_of_admitted hadm hcfg, ?_⟩
    rw [exec_segupdate_of_admitted hadm, Sequencer.segUpdate_segUpdate hwf hadm]
    exact hcfg

end Sys2Proof.Claims
end

section
/-! Proofs for 43_row_dispatch.md: rows that change nothing. -/

namespace Sys2Proof.Machine

theorem selectsDisplay_eq_false {addr : Byte} (htop : addr ≠ 0x3C) (hbottom : addr ≠ 0x3D) :
    selectsDisplay addr = false :=
  Bool.or_eq_false_iff.2 ⟨beq_false_of_ne htop, beq_false_of_ne hbottom⟩

/-! ### Row operations as decoder operations -/

theorem exec_row (addr : Byte) (payload : List Byte) (s : State) :
    exec (.row addr payload) s = s.decoderOutcome (s.dec.row s.cfg ⟨addr, payload⟩) := rfl

theorem exec_addrOther (addr : Byte) (payload : List Byte) (s : State) :
    exec (.addrOther addr payload) s = exec (.row addr payload) s := rfl

/-- At a display's own address ROW runs the payload on that display (R140, R141). -/
theorem exec_row_busAddr (a : Display) (payload : List Byte) (s : State) :
    exec (.row (busAddr a) payload) s = s.decoderOutcome (s.dec.payload s.cfg a payload) := by
  rw [exec_row, Decoder.row_busAddr]

theorem exec_addrTop (payload : List Byte) (s : State) :
    exec (.addrTop payload) s = s.decoderOutcome (s.dec.payload s.cfg .top payload) := rfl

theorem exec_addrBottom (payload : List Byte) (s : State) :
    exec (.addrBottom payload) s = s.decoderOutcome (s.dec.payload s.cfg .bottom payload) := rfl

theorem exec_empty (a : Display) (s : State) :
    exec (.empty a) s = s.decoderOutcome (s.dec.payload s.cfg a []) := rfl

/-! ### Rows that leave the decoder as it was -/

/-- A row that selects no display (R142). -/
theorem exec_row_of_unselected {addr : Byte} (h : selectsDisplay addr = false) (payload : List Byte) (s : State) :
    exec (.row addr payload) s = .next (s.afterRow s.dec) := by
  rw [exec_row, Decoder.row_unselected s.cfg s.dec h, State.decoderOutcome_ok]

/-- The payload without a byte (R143). -/
theorem State.decoderOutcome_payload_nil (s : State) (a : Display) :
    s.decoderOutcome (s.dec.payload s.cfg a []) = .next (s.afterRow s.dec) := by
  rw [Decoder.payload_nil, State.decoderOutcome_ok]

theorem exec_row_busAddr_nil (a : Display) (s : State) :
    exec (.row (busAddr a) []) s = .next (s.afterRow s.dec) := by
  rw [exec_row_busAddr, State.decoderOutcome_payload_nil]

end Sys2Proof.Machine

namespace Sys2Proof.Claims

open Sys2Proof Sys2Proof.Machine

/-- A row-protocol transaction changes the decoder, and beside it only the port's note that a data row completed. -/
theorem onlyDecoder_afterRow (s : State) (d : Decoder) : OnlyDecoder s (s.afterRow d) := ⟨rfl, rfl, rfl, rfl, rfl⟩

/-- A row that hands the decoder back as it was changes no state of either agent. -/
theorem changesNothing_of_exec {i : Instr} {s : State} (h : exec i s = .next (s.afterRow s.dec)) :
    ∃ t, exec i s = .next t ∧ t.dec = s.dec ∧ OnlyDecoder s t :=
  ⟨_, h, State.afterRow_dec s s.dec, onlyDecoder_afterRow s s.dec⟩

/-- Settles O18: an address that selects no display ends ROW at the address test, and ADDR.OTHER is ROW there. -/
theorem unrecognisedAddressChangesNothing : Obligations.UnrecognisedAddressChangesNothing := by
  intro addr payload s htop hbottom
  have hrow := exec_row_of_unselected (selectsDisplay_eq_false htop hbottom) payload s
  rw [List.forall_mem_cons, List.forall_mem_singleton]
  exact ⟨changesNothing_of_exec hrow, changesNothing_of_exec ((exec_addrOther addr payload s).trans hrow)⟩

/-- Settles O19: each of the five forms runs the empty payload on a display, which hands the decoder back. -/
theorem emptyPayloadChangesNothing : Obligations.EmptyPayloadChangesNothing := by
  intro a s
  have hnil := s.decoderOutcome_payload_nil
  simp only [List.forall_mem_cons]
  exact ⟨changesNothing_of_exec (exec_row_busAddr_nil .top s),
    changesNothing_of_exec (exec_row_busAddr_nil .bottom s),
    changesNothing_of_exec ((exec_addrTop [] s).trans (hnil .top)),
    changesNothing_of_exec ((exec_addrBottom [] s).trans (hnil .bottom)),
    changesNothing_of_exec ((exec_empty a s).trans (hnil a)), List.forall_mem_nil _⟩

end Sys2Proof.Claims
end

section
/-! Proofs for 44_control_row.md: SETPAGE and CNOP. -/

namespace Sys2Proof

/-! ### Two commands' bytes as numbers (R65) -/

theorem CtrlCmd.setpage_byte : ∀ p : BitVec 3, (CtrlCmd.setpage p).byte = BitVec.ofNat 8 (0xB0 + p.toNat) := by decide

theorem CtrlCmd.cnopB8_byte : ∀ x : BitVec 3, (CtrlCmd.cnopB8 x).byte = BitVec.ofNat 8 (0xB8 + x.toNat) := by decide

/-! ### The six ranges of CNOP -/

/-- The commands that load no part of the cursor (R159). -/
def CtrlCmd.isCnop : CtrlCmd → Bool
  | .setcollo _ | .setcolhi _ | .setpage _ => false
  | .cnop20 _ | .cnop40 _ | .cnop80 _ | .cnopA0 _ | .cnopB8 _ | .cnopC0 _ => true

/-- The bytes that R159 names are CNOP. -/
theorem isCnop_classifyCtrl : ∀ b : Byte, (0x20 ≤ b.toNat ∧ b.toNat ≤ 0xAF) ∨ 0xB8 ≤ b.toNat →
    (classifyCtrl b).isCnop = true := by decide

/-- A CNOP is an instruction of one of the six forms. -/
theorem CtrlCmd.instr_of_isCnop {k : CtrlCmd} (h : k.isCnop = true) (a : Display) :
    ∃ x y x' z w y', k.instr a = .cnop20 a x ∨ k.instr a = .cnop40 a y ∨ k.instr a = .cnop80 a x' ∨
      k.instr a = .cnopA0 a z ∨ k.instr a = .cnopB8 a w ∨ k.instr a = .cnopC0 a y' := by
  cases k with
  | setcollo n => cases h
  | setcolhi n => cases h
  | setpage p => cases h
  | cnop20 x => exact ⟨x, 0, 0, 0, 0, 0, .inl rfl⟩
  | cnop40 y => exact ⟨0, y, 0, 0, 0, 0, .inr (.inl rfl)⟩
  | cnop80 x => exact ⟨0, 0, x, 0, 0, 0, .inr (.inr (.inl rfl))⟩
  | cnopA0 z => exact ⟨0, 0, 0, z, 0, 0, .inr (.inr (.inr (.inl rfl)))⟩
  | cnopB8 w => exact ⟨0, 0, 0, 0, w, 0, .inr (.inr (.inr (.inr (.inl rfl))))⟩
  | cnopC0 y => exact ⟨0, 0, 0, 0, 0, y, .inr (.inr (.inr (.inr (.inr rfl))))⟩

end Sys2Proof

namespace Sys2Proof.Machine

/-! ### Commands as transactions of their own -/

/-- A control-body byte is the command of its class (R65). -/
theorem decode_ctrlBody (a : Display) (b : Byte) :
    decode (.ctrlBody a) [b] = .ok ((classifyCtrl b).instr a) := rfl

/-- A command's byte is that command (R65). -/
theorem decode_ctrlBody_byte (a : Display) (k : CtrlCmd) :
    decode (.ctrlBody a) [k.byte] = .ok (k.instr a) := by
  rw [decode_ctrlBody, Laws.classifyCtrl_byte]

/-- A command completes from every state, and does alone what it does in a control row (R155). -/
theorem exec_instr (a : Display) (k : CtrlCmd) (s : State) :
    exec (k.instr a) s = .next (s.afterRow (s.dec.ctrlCmd a k)) := by
  cases k <;> rfl

theorem exec_ctrl (a : Display) (body : List Byte) (s : State) :
    exec (.ctrl a body) s = .next (s.afterRow (s.dec.ctrlRow a body)) := rfl

/-! ### What SETPAGE and CNOP do -/

theorem Decoder.cursor_ctrlCmd_setpage (d : Decoder) (a : Display) (p : BitVec 3) :
    (d.ctrlCmd a (.setpage p)).cursor a = (d.cursor a).setPage p :=
  Decoder.cursor_setCursor d _ a

theorem Decoder.ctrlCmd_of_isCnop {k : CtrlCmd} (h : k.isCnop = true) (d : Decoder) (a : Display) :
    d.ctrlCmd a k = d := by
  cases k with
  | setcollo n => cases h
  | setcolhi n => cases h
  | setpage p => cases h
  | _ => rfl

theorem exec_instr_of_isCnop {k : CtrlCmd} (h : k.isCnop = true) (a : Display) (s : State) :
    exec (k.instr a) s = .next (s.afterRow s.dec) := by
  rw [exec_instr, Decoder.ctrlCmd_of_isCnop h]

/-- The scan goes on with the byte after a CNOP as if the CNOP were not there (R159). -/
theorem Decoder.ctrlRow_skip_cnop {b : Byte} (h : (classifyCtrl b).isCnop = true) (d : Decoder) (a : Display)
    (before after : List Byte) : d.ctrlRow a (before ++ b :: after) = d.ctrlRow a (before ++ after) := by
  rw [Decoder.ctrlRow_append, Decoder.ctrlRow_append, Decoder.ctrlRow, Decoder.ctrlCmd_of_isCnop h]

end Sys2Proof.Machine

namespace Sys2Proof.Claims

open Sys2Proof Sys2Proof.Machine

/-- A control-row command reaches the cursor of its display and nothing else (R22, R155). -/
theorem onlyCursor_ctrlCmd (a : Display) (k : CtrlCmd) (s : State) :
    OnlyCursor a s (s.afterRow (s.dec.ctrlCmd a k)) :=
  ⟨onlyDecoder_afterRow s _, s.dec.ctrlCmd_fb a k, s.dec.ctrlCmd_drows a k,
    fun _ hb => s.dec.ctrlCmd_cursor_ne hb k⟩

/-- Settles O8: the byte `0xB0`+p is SETPAGE's own, `0xB8`+p is CNOP's, and the load leaves the column. -/
theorem setpageLoadsThePage : Obligations.SetpageLoadsThePage := by
  intro a p s
  refine ⟨?_, ?_, _, exec_instr a (.setpage p) s, onlyCursor_ctrlCmd a _ s, ?_, ?_⟩
  · rw [← CtrlCmd.setpage_byte, decode_ctrlBody_byte, CtrlCmd.instr]
  · rw [← CtrlCmd.cnopB8_byte, decode_ctrlBody_byte, CtrlCmd.instr]
  · rw [State.afterRow_dec, Decoder.cursor_ctrlCmd_setpage, Cursor.setPage_page]
  · rw [State.afterRow_dec, Decoder.cursor_ctrlCmd_setpage, Cursor.setPage_col]

/-- Settles O10: each form hands the decoder back, and a byte of the two ranges is a form that the scan passes over. -/
theorem cnopChangesNothing : Obligations.CnopChangesNothing := by
  intro a x y z w s
  have hnothing (k : CtrlCmd) (hk : k.isCnop = true) :
      ∃ t, exec (k.instr a) s = .next t ∧ t.dec = s.dec ∧ OnlyDecoder s t :=
    changesNothing_of_exec (exec_instr_of_isCnop hk a s)
  constructor
  · simp only [List.forall_mem_cons]
    exact ⟨hnothing (.cnop20 x) rfl, hnothing (.cnop40 y) rfl, hnothing (.cnop80 x) rfl, hnothing (.cnopA0 z) rfl,
      hnothing (.cnopB8 w) rfl, hnothing (.cnopC0 y) rfl, List.forall_mem_nil _⟩
  · intro b hb
    have hk := isCnop_classifyCtrl b hb
    constructor
    · simp only [decode_ctrlBody, Except.ok.injEq]
      exact CtrlCmd.instr_of_isCnop hk a
    · intro before after
      rw [exec_ctrl, exec_ctrl, Decoder.ctrlRow_skip_cnop hk]

end Sys2Proof.Claims
end

section
/-! Proofs for 30_encoding.md: the decoder and the encoder undo each other. -/

namespace Sys2Proof

/-! ### Reading what the encoder wrote -/

@[simp] theorem decodeAddress_addrTop (payload : List Byte) :
    decodeAddress (Config.addrTop :: payload) = .ok (.addrTop payload) := rfl

@[simp] theorem decodeAddress_addrBottom (payload : List Byte) :
    decodeAddress (Config.addrBottom :: payload) = .ok (.addrBottom payload) := rfl

theorem decodeAddress_of_unselected {addr : Byte} (h : selectsDisplay addr = false) (payload : List Byte) :
    decodeAddress (addr :: payload) = .ok (.addrOther addr payload) := by
  simp only [selectsDisplay, Bool.or_eq_false_iff, beq_eq_false_iff_ne] at h
  rw [decodeAddress, if_neg h.1, if_neg h.2]

@[simp] theorem decodeHeader_ctrl (a : Display) (body : List Byte) :
    decodeHeader a (Config.hdrCtrl :: body) = .ctrl a body := rfl

@[simp] theorem decodeHeader_data (a : Display) (body : List Byte) :
    decodeHeader a (Config.hdrData :: body) = .data a body := rfl

theorem decodeHeader_of_other {h : Byte} (hh : isRowHeader h = false) (a : Display) (body : List Byte) :
    decodeHeader a (h :: body) = .hdrOther a h body := by
  simp only [isRowHeader, Bool.or_eq_false_iff, beq_eq_false_iff_ne] at hh
  rw [decodeHeader, if_neg hh.1, if_neg hh.2]

@[simp] theorem decodeSetcursor_setcursorPayload (a : Display) (p : BitVec 3) (l h : BitVec 4) :
    decodeSetcursor a (setcursorPayload p l h) = .ok (.setcursor a p l h) := by
  simp only [setcursorPayload, decodeSetcursor, Laws.classifyCtrl_byte, beq_self_eq_true]

@[simp] theorem decodeWrite_hdrData (a : Display) (ds : List Byte) :
    decodeWrite a (Config.hdrData :: ds) = .ok (.write a ds) := rfl

/-! ### Writing what the decoder read -/

/-- A command is a transaction of its own, of the command's byte (R65). -/
theorem encode_instr (a : Display) (k : CtrlCmd) : encode (k.instr a) = some (.ctrlBody a, [k.byte]) := by
  cases k <;> rfl

theorem CtrlCmd.wf_instr (a : Display) (k : CtrlCmd) : (k.instr a).wf = true := by
  cases k <;> rfl

theorem byte_of_classifyCtrl {b : Byte} {k : CtrlCmd} (h : classifyCtrl b = k) : k.byte = b := by
  rw [← h, Laws.byte_classifyCtrl]

/-- The instruction is well-formed and is these bytes at this position. -/
def ReadsBack (f : Format) (bs : List Byte) (i : Instr) : Prop := i.wf = true ∧ encode i = some (f, bs)

theorem readsBack_decodeAddress {bs : List Byte} {i : Instr} (h : decodeAddress bs = .ok i) :
    ReadsBack .rowAddress bs i := by
  cases bs with
  | nil => cases h
  | cons addr payload =>
    rw [decodeAddress] at h
    split at h
    · next haddr => cases h; exact ⟨rfl, by rw [haddr]; rfl⟩
    · next htop =>
      split at h
      · next haddr => cases h; exact ⟨rfl, by rw [haddr]; rfl⟩
      · next hbottom => cases h; exact ⟨by simp [Instr.wf, selectsDisplay, htop, hbottom], rfl⟩

theorem readsBack_decodeHeader (a : Display) (bs : List Byte) :
    ReadsBack (.rowHeader a) bs (decodeHeader a bs) := by
  cases bs with
  | nil => exact ⟨rfl, rfl⟩
  | cons h body =>
    rw [decodeHeader]
    split
    · next hh => exact ⟨rfl, by rw [hh]; rfl⟩
    · next hctrl =>
      split
      · next hh => exact ⟨rfl, by rw [hh]; rfl⟩
      · next hdata => exact ⟨by simp [Instr.wf, isRowHeader, hctrl, hdata], rfl⟩

theorem readsBack_decodeSetcursor {a : Display} {bs : List Byte} {i : Instr} (h : decodeSetcursor a bs = .ok i) :
    ReadsBack (.emittedCtrlRow a) bs i := by
  unfold decodeSetcursor at h
  split at h
  · next hdr b1 b2 b3 =>
    split at h
    · next p l hi hh h1 h2 h3 =>
      cases h
      refine ⟨rfl, ?_⟩
      rw [encode, setcursorPayload, byte_of_classifyCtrl h1, byte_of_classifyCtrl h2, byte_of_classifyCtrl h3,
        eq_of_beq hh]
    · cases h
  · cases h

theorem readsBack_decodeWrite {a : Display} {bs : List Byte} {i : Instr} (h : decodeWrite a bs = .ok i) :
    ReadsBack (.emittedDataRow a) bs i := by
  cases bs with
  | nil => cases h
  | cons hdr ds =>
    rw [decodeWrite] at h
    split at h
    · next hh => cases h; exact ⟨rfl, by rw [hh]; rfl⟩
    · cases h

theorem readsBack_ctrlCmd (a : Display) (b : Byte) :
    ReadsBack (.ctrlBody a) [b] ((classifyCtrl b).instr a) :=
  ⟨CtrlCmd.wf_instr a _, by rw [encode_instr, Laws.byte_classifyCtrl]⟩

end Sys2Proof

namespace Sys2Proof.Claims

open Sys2Proof Sys2Proof.Machine

/-- Settles O4: the operations without a bit pattern encode to nothing, and at each position the decoder takes the
encoder's own branch, the control commands by their class. -/
theorem decodeOfEncodeIsTheInstruction : Obligations.DecodeOfEncodeIsTheInstruction := by
  intro i f bs hwf henc
  cases i with
  | addrTop payload => cases henc; exact decodeAddress_addrTop payload
  | addrBottom payload => cases henc; exact decodeAddress_addrBottom payload
  | addrOther addr payload => cases henc; exact decodeAddress_of_unselected (by simpa [Instr.wf] using hwf) payload
  | ctrl a body => cases henc; exact congrArg Except.ok (decodeHeader_ctrl a body)
  | data a body => cases henc; exact congrArg Except.ok (decodeHeader_data a body)
  | hdrOther a h body =>
    cases henc; exact congrArg Except.ok (decodeHeader_of_other (by simpa [Instr.wf] using hwf) a body)
  | empty a => cases henc; rfl
  | setcollo a n => cases henc; exact decode_ctrlBody_byte a (.setcollo n)
  | setcolhi a n => cases henc; exact decode_ctrlBody_byte a (.setcolhi n)
  | cnop20 a x => cases henc; exact decode_ctrlBody_byte a (.cnop20 x)
  | cnop40 a x => cases henc; exact decode_ctrlBody_byte a (.cnop40 x)
  | cnop80 a x => cases henc; exact decode_ctrlBody_byte a (.cnop80 x)
  | cnopA0 a x => cases henc; exact decode_ctrlBody_byte a (.cnopA0 x)
  | setpage a p => cases henc; exact decode_ctrlBody_byte a (.setpage p)
  | cnopB8 a x => cases henc; exact decode_ctrlBody_byte a (.cnopB8 x)
  | cnopC0 a x => cases henc; exact decode_ctrlBody_byte a (.cnopC0 x)
  | wdata a d => cases henc; rfl
  | setcursor a p l h => cases henc; exact decodeSetcursor_setcursorPayload a p l h
  | write a ds => cases henc; exact decodeWrite_hdrData a ds
  | _ => cases henc

/-- Settles O5: position by position; a command body of any length but one is no instruction. -/
theorem encodeOfDecodeIsTheBytes : Obligations.EncodeOfDecodeIsTheBytes := by
  intro f bs i h
  cases f with
  | rowAddress => exact readsBack_decodeAddress h
  | rowHeader a => cases h; exact readsBack_decodeHeader a bs
  | ctrlBody a =>
    match bs with
    | [b] => cases h; exact readsBack_ctrlCmd a b
    | [] => cases h
    | _ :: _ :: _ => cases h
  | dataBody a =>
    match bs with
    | [b] => cases h; exact ⟨rfl, rfl⟩
    | [] => cases h
    | _ :: _ :: _ => cases h
  | emittedCtrlRow a => exact readsBack_decodeSetcursor h
  | emittedDataRow a => exact readsBack_decodeWrite h

/-- Settles O6: each byte string is read at its position by evaluation of the decoder. -/
theorem writtenOutBytesDecode : Obligations.WrittenOutBytesDecode := by
  refine ⟨?_, ?_, ?_, ?_, ?_, ?_, ?_, ?_, ?_, ?_, ?_, ?_, ?_⟩ <;> rfl

end Sys2Proof.Claims
end

section
/-! Proofs for 43_row_dispatch.md: the decoder operation that each row-protocol instruction is, and what it can do. -/

namespace Sys2Proof

open Sys2Proof.Machine Sys2Proof.Claims

/-- The decoder operation that a row-protocol instruction is. The other instructions leave the decoder to others. -/
def Instr.decoderOp (cfg : Settings) (d : Decoder) : Instr → Except Refusal Decoder
  | .addrTop payload => d.payload cfg .top payload
  | .addrBottom payload => d.payload cfg .bottom payload
  | .addrOther addr payload => d.row cfg ⟨addr, payload⟩
  | .ctrl a body => .ok (d.ctrlRow a body)
  | .data a body => d.dataRow cfg a body
  | .hdrOther a h body => d.payload cfg a (h :: body)
  | .empty a => d.payload cfg a []
  | .setcollo a n => .ok (d.ctrlCmd a (.setcollo n))
  | .setcolhi a n => .ok (d.ctrlCmd a (.setcolhi n))
  | .cnop20 a x => .ok (d.ctrlCmd a (.cnop20 x))
  | .cnop40 a x => .ok (d.ctrlCmd a (.cnop40 x))
  | .cnop80 a x => .ok (d.ctrlCmd a (.cnop80 x))
  | .cnopA0 a x => .ok (d.ctrlCmd a (.cnopA0 x))
  | .setpage a p => .ok (d.ctrlCmd a (.setpage p))
  | .cnopB8 a x => .ok (d.ctrlCmd a (.cnopB8 x))
  | .cnopC0 a x => .ok (d.ctrlCmd a (.cnopC0 x))
  | .wdata a v => d.wdata cfg a v
  | .setcursor a p l h => d.row cfg ⟨busAddr a, setcursorPayload p l h⟩
  | .write a ds => d.row cfg ⟨busAddr a, dataRowPayload ds⟩
  | .run a p c ds => d.rows cfg (runRows a p.toNat c.toNat ds)
  | .row addr payload => d.row cfg ⟨addr, payload⟩
  | .ctrlrow a body => .ok (d.ctrlRow a body)
  | .datarow a body => d.dataRow cfg a body
  | _ => .ok d

/-- A row-protocol instruction is its decoder operation, and beside it the port's note of a completed data row. -/
theorem exec_of_isRowProtocol {i : Instr} (h : isRowProtocol i = true) (s : State) :
    exec i s = s.decoderOutcome (i.decoderOp s.cfg s.dec) := by
  cases i with
  | fbread b a p c => cases h
  | fbwrite b a p c v => cases h
  | fbmaskwr b a p c mask desired => cases h
  | pix2addr x y => cases h
  | addr2pix a p i c => cases h
  | bitmap b => cases h
  | accum seg => cases h
  | segupdate seg => cases h
  | apply => cases h
  | pack cols => cases h
  | emit a p c0 n => cases h
  | sample => cases h
  | reset => cases h
  | _ => rfl

end Sys2Proof

namespace Sys2Proof.Machine

open Sys2Proof.Claims

/-! ### What a completed row leaves of the decoder -/

/-- What the header dispatch leaves of the decoder when it completes (R140). -/
def Decoder.payloadDone (d : Decoder) (a : Display) : List Byte → Decoder
  | [] => d
  | h :: body =>
    if h = Config.hdrCtrl then d.ctrlRow a body
    else if h = Config.hdrData then { d.dataFold a body with drows := d.drows + 1 }
    else d

/-- The parameters decide whether a payload completes, not what it does. -/
theorem Decoder.eq_payloadDone {cfg : Settings} {d d' : Decoder} {a : Display} {bs : List Byte}
    (h : d.payload cfg a bs = .ok d') : d' = d.payloadDone a bs := by
  cases bs with
  | nil => cases h; rfl
  | cons hdr body =>
    rw [Decoder.payload] at h
    rw [Decoder.payloadDone]
    split at h
    · next hctrl => cases h; rw [if_pos hctrl]
    · next hctrl =>
      rw [if_neg hctrl]
      split at h
      · next hdata =>
        rw [if_pos hdata]
        rcases Decoder.dataRow_eq cfg d a body with heq | ⟨heq, -⟩
        · rw [heq] at h; cases h; rfl
        · rw [heq] at h; cases h
      · next hdata =>
        rw [Decoder.otherHeader] at h
        rw [if_neg hdata]
        split at h
        · cases h; rfl
        · cases h

/-- What any completed row leaves of the decoder: one cursor loaded (or kept), or, when it is a data row, a cursor
loaded (or kept), the row's bytes written at it and `DROWS` one up. The flag says whether it was a data row. -/
inductive RowDone (d : Decoder) : Bool → Decoder → Prop
  | cursor (c : Cursor) (a : Display) : RowDone d false (d.setCursor c a)
  | data (c : Cursor) (a : Display) (body : List Byte) :
      RowDone d true { (d.setCursor c a).dataFold a body with drows := d.drows + 1 }

namespace RowDone

theorem same (d : Decoder) : RowDone d false d := by
  simpa only [Decoder.setCursor_cursor] using RowDone.cursor (d := d) (d.cursor .top) .top

theorem dataFold (d : Decoder) (a : Display) (body : List Byte) :
    RowDone d true { d.dataFold a body with drows := d.drows + 1 } := by
  simpa only [Decoder.setCursor_cursor] using RowDone.data (d := d) (d.cursor a) a body

theorem dataRow {cfg : Settings} {d d' : Decoder} {a : Display} {body : List Byte}
    (h : d.dataRow cfg a body = .ok d') : RowDone d true d' := by
  rcases Decoder.dataRow_eq cfg d a body with heq | ⟨heq, -⟩ <;> rw [heq] at h <;> cases h
  exact dataFold d a body

theorem ctrlCmd (d : Decoder) (a : Display) (k : CtrlCmd) : RowDone d false (d.ctrlCmd a k) := by
  rw [Decoder.ctrlCmd_eq]; exact .cursor _ a

theorem ctrlRow (d : Decoder) (a : Display) (body : List Byte) : RowDone d false (d.ctrlRow a body) := by
  rw [Decoder.ctrlRow_eq]; exact .cursor _ a

/-- A payload counts exactly when its header is `0x40` (R140, R186). -/
theorem payloadDone (d : Decoder) (a : Display) (bs : List Byte) :
    RowDone d (bs.head? == some 0x40) (d.payloadDone a bs) := by
  cases bs with
  | nil => exact same d
  | cons hdr body =>
    rw [Decoder.payloadDone]
    split
    · next hctrl => rw [hctrl]; exact ctrlRow d a body
    · split
      · next hdata => rw [hdata]; exact dataFold d a body
      · next hdata =>
        have hno : ((hdr :: body).head? == some 0x40) = false := by simpa [Config.hdrData] using hdata
        rw [hno]
        exact same d

theorem payload {cfg : Settings} {d d' : Decoder} {a : Display} {bs : List Byte}
    (h : d.payload cfg a bs = .ok d') : RowDone d (bs.head? == some 0x40) d' :=
  Decoder.eq_payloadDone h ▸ payloadDone d a bs

/-- A row counts exactly when it passes the address test and its header is `0x40` (R186). -/
theorem row {cfg : Settings} {d d' : Decoder} {addr : Byte} {bs : List Byte} (h : d.row cfg ⟨addr, bs⟩ = .ok d') :
    RowDone d (selectsDisplay addr && bs.head? == some 0x40) d' := by
  cases hsel : selectsDisplay addr with
  | false =>
    rw [Decoder.row_unselected cfg d hsel] at h
    cases h
    exact same d
  | true =>
    obtain ⟨a, ha⟩ : ∃ a, selectDisplay addr = some a := by
      rw [← Option.ne_none_iff_exists', ne_eq, selectDisplay_eq_none, hsel]
      exact Bool.true_eq_false.mp
    rw [selectDisplay_eq_some.1 ha, Decoder.row_busAddr] at h
    exact payload h

/-- The two rows of RUN load the cursor and write the bytes: one data row in all. -/
theorem run {cfg : Settings} {d d' : Decoder} {a : Display} {p : BitVec 3} {c : BitVec 8} {ds : List Byte}
    (h : d.rows cfg (runRows a p.toNat c.toNat ds) = .ok d') : RowDone d true d' := by
  rw [Decoder.rows_runRows] at h
  rcases Decoder.dataRow_eq cfg (d.setCursor ⟨p, c⟩ a) a ds with heq | ⟨heq, -⟩ <;> rw [heq] at h <;> cases h
  rw [Decoder.setCursor_drows]
  exact .data _ a ds

theorem drows_eq {d d' : Decoder} {counts : Bool} (h : RowDone d counts d') :
    d'.drows = d.drows + if counts = true then 1 else 0 := by
  cases h with
  | cursor c a => exact Decoder.setCursor_drows d c a
  | data c a body => rfl

theorem fb_eq {d d' : Decoder} (h : RowDone d false d') : d'.fb = d.fb := by
  cases h with
  | cursor c a => exact Decoder.setCursor_fb d c a

theorem fb_wf {d d' : Decoder} {counts : Bool} (h : RowDone d counts d') (hwf : d.fb.wf = true) :
    d'.fb.wf = true := by
  cases h with
  | cursor c a => rwa [Decoder.setCursor_fb]
  | data c a body => exact Decoder.dataFold_wf (by rwa [Decoder.setCursor_fb]) a body

end RowDone

/-- What a row-protocol instruction does when it completes: a row, which counts as the statements say, or the one
command that writes a byte without a row around it. -/
theorem decoderOp_cases {i : Instr} {cfg : Settings} {d d' : Decoder} (h : i.decoderOp cfg d = .ok d') :
    RowDone d (completesDataRow i) d' ∨ ∃ a v, i = .wdata a v ∧ d' = d.dataByte a v := by
  cases i with
  | addrTop payload => exact .inl (.payload h)
  | addrBottom payload => exact .inl (.payload h)
  | addrOther addr payload => exact .inl (.row h)
  | ctrl a body => cases h; exact .inl (.ctrlRow d a body)
  | data a body => exact .inl (.dataRow h)
  | hdrOther a hdr body => exact .inl (.payload (cfg := cfg) (a := a) (bs := hdr :: body) h)
  | empty a => exact .inl (.payload (cfg := cfg) (a := a) (bs := []) h)
  | setcollo a n => cases h; exact .inl (.ctrlCmd d a _)
  | setcolhi a n => cases h; exact .inl (.ctrlCmd d a _)
  | setpage a p => cases h; exact .inl (.ctrlCmd d a _)
  | wdata a v =>
    rcases Decoder.wdata_eq cfg d a v with heq | ⟨heq, -, -⟩
    · exact .inr ⟨a, v, rfl, by rw [Instr.decoderOp, heq] at h; cases h; rfl⟩
    · rw [Instr.decoderOp, heq] at h; cases h
  | setcursor a p l hi =>
    rw [Instr.decoderOp, Decoder.row_busAddr] at h
    exact .inl (.payload h)
  | write a ds =>
    rw [Instr.decoderOp, Decoder.row_busAddr] at h
    exact .inl (.payload h)
  | run a p c ds => exact .inl (.run h)
  | row addr payload => exact .inl (.row h)
  | ctrlrow a body => cases h; exact .inl (.ctrlRow d a body)
  | datarow a body => exact .inl (.dataRow h)
  | _ => cases h; exact .inl (.same d)

/-- A single data byte counts nothing (log entry 4), a row counts as it is (R186). -/
theorem decoderOp_drows {i : Instr} {cfg : Settings} {d d' : Decoder} (h : i.decoderOp cfg d = .ok d') :
    d'.drows = d.drows + if completesDataRow i = true then 1 else 0 := by
  rcases decoderOp_cases h with hrow | ⟨a, v, rfl, rfl⟩
  · exact hrow.drows_eq
  · exact Decoder.dataByte_drows d a v

theorem decoderOp_fb_wf {i : Instr} {cfg : Settings} {d d' : Decoder} (h : i.decoderOp cfg d = .ok d')
    (hwf : d.fb.wf = true) : d'.fb.wf = true := by
  rcases decoderOp_cases h with hrow | ⟨a, v, -, rfl⟩
  · exact hrow.fb_wf hwf
  · rw [Decoder.dataByte_fb]
    exact Decoder.storeAtCursor_wf hwf a v

/-- A row-protocol instruction that goes on is its decoder operation completed. -/
theorem exec_next_of_isRowProtocol {i : Instr} (hi : isRowProtocol i = true) {s t : State}
    (h : exec i s = .next t) : ∃ d, i.decoderOp s.cfg s.dec = .ok d ∧ t = s.afterRow d := by
  rwa [exec_of_isRowProtocol hi, State.decoderOutcome_next_iff] at h

end Sys2Proof.Machine
end

section
/-! Proofs for 70_reset_and_hazards.md: what an instruction and a step can do. -/

namespace Sys2Proof.Machine

open Sys2Proof.Claims

/-- Everything an instruction that goes on can have done. A row-protocol instruction is its decoder operation; the
reads only answer; each writer outside the decoder's rows has a case of its own. -/
inductive Effect (s : State) : Instr → State → Prop
  | row {i : Instr} {d : Decoder} (hi : isRowProtocol i = true) (hd : i.decoderOp s.cfg s.dec = .ok d) :
      Effect s i (s.afterRow d)
  | answer {i : Instr} {t : State} (hseq : isSequencerOp i = false) (h : OnlyFreeAnswer s t) : Effect s i t
  | fbwrite (b : FbInst) (a : Display) (p c : Nat) (v : Byte) (k : ByteKey) :
      Effect s (.fbwrite b a p c v) (s.setFb ((s.fb b).write k.addr v) b)
  | fbmaskwr (b : FbInst) (a : Display) (p c : Nat) (mask desired v : Byte) (k : ByteKey) (r : Result) :
      Effect s (.fbmaskwr b a p c mask desired) ((s.setFb ((s.fb b).write k.addr v) b).answer r)
  | accum (seg : List Pixel) : Effect s (.accum seg) { s with enc := { s.enc with acc := accumulate seg } }
  | segupdate {seg : List Pixel} (hcfg : s.cfg.legal = true) :
      Effect s (.segupdate seg) { s with enc := s.enc.segUpdate s.cfg seg }
  | apply : Effect s .apply { s with enc := s.enc.applyAll }
  | emit (a : Display) (p : BitVec 3) (c0 : BitVec 8) (n : Nat) (rows : List Row) (draws : Nat) :
      Effect s (.emit a p c0 n)
        { s with enc := { s.enc with out := s.enc.out ++ rows }, ports := { s.ports with draws := draws } }
  | reset (ports : Ports) : Effect s .reset { s with dec := .reset, enc := .reset, ports := ports }

theorem onlyFreeAnswer_answer (s : State) (r : Result) : OnlyFreeAnswer s (s.answer r) := ⟨rfl, rfl, rfl, rfl, rfl⟩

theorem onlyFreeAnswer_answerFree (s : State) (f : Nat → Result) : OnlyFreeAnswer s (s.answerFree f) :=
  ⟨rfl, rfl, rfl, rfl, rfl⟩

theorem Settings.legal_of_ready {cfg : Settings} (h : cfg.ready = .ok ()) : cfg.legal = true := by
  rw [Settings.ready] at h
  split at h
  · cases h
  · next hcap =>
    split at h
    · next horder => exact Settings.legal_iff.2 ⟨Nat.one_le_iff_ne_zero.2 hcap, horder⟩
    · cases h

theorem exec_accum_next_iff {seg : List Pixel} {s t : State} : exec (.accum seg) s = .next t ↔
    admitSegment seg = .ok () ∧ { s with enc := { s.enc with acc := accumulate seg } } = t := by
  simp only [exec, execAccum]
  split <;> simp_all

theorem exec_segupdate_next_iff {seg : List Pixel} {s t : State} : exec (.segupdate seg) s = .next t ↔
    admitSegment seg = .ok () ∧ s.cfg.ready = .ok () ∧ { s with enc := s.enc.segUpdate s.cfg seg } = t := by
  simp only [exec, execSegupdate]
  split
  · split <;> simp_all
  · simp_all

/-- An instruction that goes on has one of these effects. -/
theorem effect_of_exec {i : Instr} {s t : State} (h : exec i s = .next t) : Effect s i t := by
  by_cases hi : isRowProtocol i = true
  · obtain ⟨d, hd, rfl⟩ := exec_next_of_isRowProtocol hi h
    exact .row hi hd
  · cases i with
    | fbread b a p c =>
      simp only [exec, execFbread] at h
      split at h <;> cases h
      exact .answer rfl (onlyFreeAnswer_answer s _)
    | fbwrite b a p c v =>
      simp only [exec, execFbwrite] at h
      split at h <;> cases h
      exact .fbwrite b a p c v _
    | fbmaskwr b a p c mask desired =>
      simp only [exec, execFbmaskwr] at h
      split at h <;> cases h
      exact .fbmaskwr b a p c mask desired _ _ _
    | pix2addr x y =>
      simp only [exec, execPix2addr] at h
      split at h <;> cases h
      exact .answer rfl (onlyFreeAnswer_answer s _)
    | addr2pix a p j c =>
      simp only [exec, execAddr2pix] at h
      split at h <;> cases h
      · exact .answer rfl (onlyFreeAnswer_answer s _)
      · exact .answer rfl (onlyFreeAnswer_answerFree s _)
    | bitmap b => cases h; exact .answer rfl (onlyFreeAnswer_answer s _)
    | accum seg =>
      obtain ⟨-, rfl⟩ := exec_accum_next_iff.1 h
      exact .accum seg
    | segupdate seg =>
      obtain ⟨-, hready, rfl⟩ := exec_segupdate_next_iff.1 h
      exact .segupdate (Settings.legal_of_ready hready)
    | apply => cases h; exact .apply
    | pack cols =>
      simp only [exec, execPack] at h
      split at h
      · cases h
      · split at h <;> cases h
        · exact .answer rfl (onlyFreeAnswer_answer s _)
        · exact .answer rfl (onlyFreeAnswer_answerFree s _)
    | emit a p c0 n => cases h; exact .emit a p c0 n _ _
    | sample => cases h; exact .answer rfl (onlyFreeAnswer_answer s _)
    | reset => cases h; exact .reset _
    | _ => exact absurd rfl hi

/-! ### The step -/

theorem step_of_idle {s : State} (h : s.ports.input = []) : step s = .next s := by
  simp only [step, h]

theorem step_of_fetch {s : State} {x : Input} {rest : List Input} {i : Instr} (h : s.ports.input = x :: rest)
    (hf : fetch s.cfg x = .ok i) : step s = exec i (s.accept rest) := by
  simp only [step, h, hf]

theorem step_of_fetch_error {s : State} {x : Input} {rest : List Input} {r : Refusal}
    (h : s.ports.input = x :: rest) (hf : fetch s.cfg x = .error r) : step s = .refused r := by
  simp only [step, h, hf]

/-- A step that goes on waited, or ran the instruction of the oldest transaction (R217, R231). -/
theorem step_next_cases {s t : State} (h : step s = .next t) :
    t = s ∨ ∃ x rest i, s.ports.input = x :: rest ∧ fetch s.cfg x = .ok i ∧ Effect (s.accept rest) i t := by
  cases hin : s.ports.input with
  | nil => rw [step_of_idle hin] at h; cases h; exact .inl rfl
  | cons x rest =>
    cases hf : fetch s.cfg x with
    | error r => rw [step_of_fetch_error hin hf] at h; cases h
    | ok i =>
      rw [step_of_fetch hin hf] at h
      exact .inr ⟨x, rest, i, rfl, hf, effect_of_exec h⟩

theorem isInternalStep_of_encode {i : Instr} {f : Format} {bs : List Byte} (h : encode i = some (f, bs)) :
    i.isInternalStep = false := by
  cases i with
  | accum seg => cases h
  | apply => cases h
  | pack cols => cases h
  | emit a p c0 n => cases h
  | _ => rfl

/-- No transaction is a step of SEGUPDATE: bytes are not, since they encode what they decode to, and the ports refuse it
by its name (R82, log entry 11). -/
theorem isInternalStep_of_fetch {cfg : Settings} {x : Input} {i : Instr} (h : fetch cfg x = .ok i) :
    i.isInternalStep = false := by
  cases x with
  | bytes f bs => exact isInternalStep_of_encode (encodeOfDecodeIsTheBytes f bs i (fetch_bytes_ok.1 h)).2
  | op j =>
    obtain ⟨rfl, hj, -⟩ := fetch_op_ok.1 h
    exact hj

end Sys2Proof.Machine
end

section
/-! Proofs for 10_state.md: the invariant of section 9, at reset and kept by every step. -/

namespace Sys2Proof.Machine

open Sys2Proof.Claims

/-! ### Pairs of rows -/

theorem outInPairs_append {cap : Nat} {x y : List Row} (hx : outInPairs cap x = true)
    (hy : outInPairs cap y = true) : outInPairs cap (x ++ y) = true := by
  fun_induction outInPairs cap x with
  | case1 => exact hy
  | case2 r => cases hx
  | case3 r1 r2 rs ih =>
    obtain ⟨hpair, hrest⟩ := Bool.and_eq_true_iff.1 hx
    exact Bool.and_eq_true_iff.2 ⟨hpair, ih hrest⟩

theorem outInPairs_flatMap {α : Type} {cap : Nat} {f : α → List Row} {l : List α}
    (h : ∀ x ∈ l, outInPairs cap (f x) = true) : outInPairs cap (l.flatMap f) = true := by
  induction l with
  | nil => rfl
  | cons x l ih =>
    rw [List.forall_mem_cons] at h
    rw [List.flatMap_cons]
    exact outInPairs_append h.1 (ih h.2)

@[simp] theorem selectsDisplay_busAddr (a : Display) : selectsDisplay (busAddr a) = true := by
  cases a <;> rfl

/-- The two rows of a run that is not empty and within the cap are an emitted pair (R35 e). -/
theorem outInPairs_emitRows {cap : Nat} (m : Memory) (a : Display) (p : Nat) {r : Run} (hlen : 1 ≤ r.len)
    (hcap : r.len ≤ cap) : outInPairs cap (emitRows m a p r) = true := by
  simp [emitRows, runRows, outInPairs, emittedPair, ctrlRowPayload, dataRowPayload, hlen, hcap]

/-- What a segment sends is pairs (R123, R35 e). -/
theorem Sequencer.outInPairs_allRows {q : Sequencer} (hwf : q.fb.wf = true) {cfg : Settings}
    (hcfg : cfg.legal = true) (seg : List Pixel) :
    outInPairs cfg.maxRunLen ((q.applied seg).allRows cfg) = true := by
  obtain ⟨hruns, -⟩ := Sequencer.allRuns_spec hwf hcfg seg
  rw [Sequencer.allRows_eq]
  refine outInPairs_flatMap fun x hx => ?_
  obtain ⟨⟨hlen, -⟩, hcap⟩ := hruns x hx
  exact outInPairs_emitRows _ _ _ hlen hcap

theorem Sequencer.inv_reset (cap : Nat) : Sequencer.reset.Inv cap := ⟨rfl, rfl, rfl, rfl⟩

theorem Decoder.inv_reset : Decoder.reset.Inv := rfl

/-- SEGUPDATE keeps the sequencer's part of the invariant. -/
theorem Sequencer.inv_segUpdate {q : Sequencer} {cfg : Settings} (hq : q.Inv cfg.maxRunLen)
    (hcfg : cfg.legal = true) (seg : List Pixel) : (q.segUpdate cfg seg).Inv cfg.maxRunLen := by
  obtain ⟨hout, hwf, -, -, -⟩ := Sequencer.applied_spec q hq.fb_wf seg
  refine ⟨hwf, rfl, rfl, outInPairs_append ?_ (Sequencer.outInPairs_allRows hq.fb_wf hcfg seg)⟩
  rw [hout]
  exact hq.out_pairs

/-- The invariant speaks of the two agents and the configuration only. -/
theorem State.Inv.of_eq {s t : State} (hs : s.Inv) (hdec : t.dec = s.dec) (henc : t.enc = s.enc)
    (hcfg : t.cfg = s.cfg) : t.Inv := by
  refine ⟨?_, ?_⟩
  · rw [hdec]; exact hs.dec_inv
  · rw [henc, hcfg]; exact hs.enc_inv

theorem State.Inv.fb_wf {s : State} (hs : s.Inv) (b : FbInst) : (s.fb b).wf = true := by
  cases b with
  | enc => exact hs.enc_inv.fb_wf
  | dec => exact hs.dec_inv

/-- A port write to an existing byte of either instance keeps the invariant. -/
theorem State.Inv.setFb_write {s : State} (hs : s.Inv) (b : FbInst) (k : ByteKey) (v : Byte) :
    (s.setFb ((s.fb b).write k.addr v) b).Inv := by
  have hwf := Memory.wf_write (hs.fb_wf b) k.addr_lt v
  cases b with
  | enc => exact ⟨hs.dec_inv, hwf, hs.enc_inv.acc_empty, hs.enc_inv.chg_empty, hs.enc_inv.out_pairs⟩
  | dec => exact ⟨hwf, hs.enc_inv⟩

/-- Every instruction but the steps of SEGUPDATE, which leave `ACC` or `CHG` behind, keeps the invariant. -/
theorem Effect.inv {i : Instr} {s t : State} (h : Effect s i t) (hi : i.isInternalStep = false) (hs : s.Inv) :
    t.Inv := by
  cases h with
  | row _ hd => exact ⟨decoderOp_fb_wf hd hs.dec_inv, hs.enc_inv⟩
  | answer _ h =>
    obtain ⟨hdec, henc, hcfg, -⟩ := h
    exact hs.of_eq hdec henc hcfg
  | fbwrite b a p c v k => exact hs.setFb_write b k v
  | fbmaskwr b a p c mask desired v k r => exact (hs.setFb_write b k v).of_eq rfl rfl rfl
  | segupdate hcfg => exact ⟨hs.dec_inv, Sequencer.inv_segUpdate hs.enc_inv hcfg _⟩
  | reset ports => exact ⟨Decoder.inv_reset, Sequencer.inv_reset _⟩
  | accum seg => cases hi
  | apply => cases hi
  | emit a p c0 n rows draws => cases hi

/-- No instruction, RESET included, touches the configuration (R219). -/
theorem Effect.cfg_eq {i : Instr} {s t : State} (h : Effect s i t) : t.cfg = s.cfg := by
  cases h with
  | answer _ h =>
    obtain ⟨-, -, hcfg, -⟩ := h
    exact hcfg
  | fbwrite b a p c v k => exact State.setFb_cfg ..
  | fbmaskwr b a p c mask desired v k r => exact State.setFb_cfg ..
  | _ => rfl

/-- ACCUM and APPLY leave `OUT`, whatever the mirror holds. -/
@[simp] theorem Sequencer.applied_out (q : Sequencer) (seg : List Pixel) : (q.applied seg).out = q.out :=
  Sequencer.applyAll_out _

theorem Sequencer.out_prefix_segUpdate (q : Sequencer) (cfg : Settings) (seg : List Pixel) :
    q.out <+: (q.segUpdate cfg seg).out :=
  ⟨(q.applied seg).allRows cfg, congrArg (· ++ _) (q.applied_out seg).symm⟩

end Sys2Proof.Machine

namespace Sys2Proof.Claims

open Sys2Proof Sys2Proof.Machine

/-- Settles O50: each agent by its own reset value. -/
theorem resetMeetsTheInvariant : Obligations.ResetMeetsTheInvariant :=
  ⟨Decoder.inv_reset, Sequencer.inv_reset _⟩

/-- Settles O51: no transaction is a step of SEGUPDATE, and every other instruction keeps the invariant. -/
theorem stepKeepsTheInvariant : Obligations.StepKeepsTheInvariant := by
  intro s t hs hstep
  rcases step_next_cases hstep with rfl | ⟨x, rest, i, -, hfetch, heffect⟩
  · exact hs
  · exact heffect.inv (isInternalStep_of_fetch hfetch) (hs.of_eq rfl rfl rfl)

/-- Settles O53: no effect of an instruction touches the configuration. -/
theorem noStepChangesTheConfiguration : Obligations.NoStepChangesTheConfiguration := by
  intro s t hstep
  rcases step_next_cases hstep with rfl | ⟨x, rest, i, -, -, heffect⟩
  · rfl
  · rw [heffect.cfg_eq, State.accept_cfg]

/-- Settles O56: only SEGUPDATE and EMIT write `OUT`, and both append. -/
theorem outIsAppendOnly : Obligations.OutIsAppendOnly := by
  intro i s t hexec hreset
  cases effect_of_exec hexec with
  | row _ _ => exact List.prefix_rfl
  | answer _ h =>
    obtain ⟨-, henc, -⟩ := h
    rw [henc]
  | fbwrite b a p c v k => rw [State.setFb_out]
  | fbmaskwr b a p c mask desired v k r => rw [State.answer_enc, State.setFb_out]
  | accum seg => exact List.prefix_rfl
  | segupdate _ => exact s.enc.out_prefix_segUpdate s.cfg _
  | apply => rw [Sequencer.applyAll_out]
  | emit a p c0 n rows draws => exact List.prefix_append ..
  | reset ports => exact absurd rfl hreset

end Sys2Proof.Claims
end

section
/-! Proofs for 70_reset_and_hazards.md: RESET and the step. -/

namespace Sys2Proof.Machine

open Sys2Proof.Claims

theorem exec_reset (s : State) : exec .reset s = .next { s with
    dec := .reset, enc := .reset, ports := { Ports.idle with input := s.ports.input, draws := s.ports.draws } } := rfl

theorem fetch_of_decode_error {f : Format} {bs : List Byte} {e : DecodeError} (h : decode f bs = .error e)
    (cfg : Settings) : fetch cfg (.bytes f bs) = .error (.undecodable e) := by
  simp only [fetch, h]

theorem fetch_of_isInternalStep {i : Instr} (h : i.isInternalStep = true) (cfg : Settings) :
    fetch cfg (.op i) = .error .internalStepAlone := by
  simp only [fetch, if_pos h]

end Sys2Proof.Machine

namespace Sys2Proof.Claims

open Sys2Proof Sys2Proof.Machine

/-- Settles O2: the two agents are their reset values, which hold for every display and instance. -/
theorem resetRestoresBothAgents : Obligations.ResetRestoresBothAgents := by
  intro s
  refine ⟨_, exec_reset s, ?_, ?_, rfl, rfl, rfl, rfl, rfl, rfl, rfl, rfl⟩
  · intro a
    rw [Decoder.cursor_reset]
    exact ⟨rfl, rfl⟩
  · rintro (_ | _) a p c - - <;> exact byteOf_nil a p c

/-- Settles O3: what the fetch answers decides the step. -/
theorem stepRunsPresentedInstruction : Obligations.StepRunsPresentedInstruction := by
  refine ⟨?_, ?_, ?_, fun s => step_of_idle⟩
  · intro s f bs rest i hin hdec
    exact step_of_fetch hin (fetch_bytes_ok.2 hdec)
  · intro s f bs rest e hin hdec
    exact step_of_fetch_error hin (fetch_of_decode_error hdec s.cfg)
  · intro s i rest hin hinternal hdecWrite
    exact step_of_fetch hin (fetch_op_ok.2 ⟨rfl, hinternal, hdecWrite⟩)

/-- Settles O57: the fetch refuses each of the four by `Instr.isInternalStep`. -/
theorem internalStepsAreRefusedAlone : Obligations.InternalStepsAreRefusedAlone := by
  intro s rest seg cols a p c0 n i hi hin
  have hinternal : [Instr.accum seg, .apply, .pack cols, .emit a p c0 n].all Instr.isInternalStep = true := rfl
  exact step_of_fetch_error hin (fetch_of_isInternalStep (List.all_eq_true.1 hinternal i hi) s.cfg)

end Sys2Proof.Claims
end

section
/-! Proofs for 46_sample_port.md: `DROWS` and the strobe. -/

namespace Sys2Proof.Machine

open Sys2Proof.Claims

/-- The strobe after a row-protocol transaction, under a legal stride (R188). -/
theorem State.sampleStrobe_afterRow {s : State} (h : 1 ≤ s.cfg.frameStride) (d : Decoder) :
    (s.afterRow d).sampleStrobe = true ↔ d.drows ≠ s.dec.drows ∧ d.drows % s.cfg.frameStride = 0 := by
  simp [State.sampleStrobe, strideHit, Nat.one_le_iff_ne_zero.1 h]

end Sys2Proof.Machine

namespace Sys2Proof.Claims

open Sys2Proof Sys2Proof.Machine

/-- Settles O49: ROW counts by its address and header, which is what `completesDataRow` says of it. -/
theorem drowsCountsDataRows : Obligations.DrowsCountsDataRows := by
  have hall (i : Instr) (s t : State) (hi : isRowProtocol i = true) (h : exec i s = .next t) :
      t.dec.drows = s.dec.drows + if completesDataRow i = true then 1 else 0 := by
    obtain ⟨d, hd, rfl⟩ := exec_next_of_isRowProtocol hi h
    exact decoderOp_drows hd
  refine ⟨?_, hall⟩
  intro addr payload s t h
  simpa [completesDataRow] using hall (.row addr payload) s t rfl h

/-- Settles O48: `DROWS` moved exactly when a data row completed, and the strobe tests that and the stride. -/
theorem strobeAfterEveryNthDataRow : Obligations.StrobeAfterEveryNthDataRow := by
  constructor
  · intro s
    exact ⟨_, rfl, State.answer_result s _, onlyAnswer_answer s _⟩
  · intro i s t hi h hstride
    obtain ⟨d, hd, rfl⟩ := exec_next_of_isRowProtocol hi h
    have hmoved : d.drows ≠ s.dec.drows ↔ completesDataRow i = true := by
      rw [decoderOp_drows hd]
      cases completesDataRow i <;> simp
    rw [State.sampleStrobe_afterRow hstride, hmoved, State.afterRow_dec]

end Sys2Proof.Claims
end

section
/-! Proofs for 20_memory.md: who writes which framebuffer, and that the agents share no state. -/

namespace Sys2Proof.Machine

open Sys2Proof.Claims

/-- The framebuffer writes on `DEC` by their names. -/
theorem eq_of_isDecWrite {i : Instr} (h : i.isDecWrite = true) :
    (∃ a p c v, i = .fbwrite .dec a p c v) ∨ ∃ a p c mask v, i = .fbmaskwr .dec a p c mask v := by
  cases i with
  | fbwrite b a p c v => exact .inl ⟨a, p, c, v, by rw [eq_of_beq h]⟩
  | fbmaskwr b a p c mask v => exact .inr ⟨a, p, c, mask, v, by rw [eq_of_beq h]⟩
  | _ => cases h

theorem isDecWrite_of_encode {i : Instr} {f : Format} {bs : List Byte} (h : encode i = some (f, bs)) :
    i.isDecWrite = false := by
  cases i with
  | fbwrite b a p c v => cases h
  | fbmaskwr b a p c mask v => cases h
  | _ => rfl

/-- The ports take a write on `DEC` only where the configuration lets the host make it (log entry 12). -/
theorem decWrites_of_fetch {cfg : Settings} {x : Input} {i : Instr} (h : fetch cfg x = .ok i)
    (hi : i.isDecWrite = true) : cfg.decWrites = .host := by
  cases x with
  | bytes f bs =>
    have henc := (encodeOfDecodeIsTheBytes f bs i (fetch_bytes_ok.1 h)).2
    rw [isDecWrite_of_encode henc] at hi
    cases hi
  | op j =>
    obtain ⟨rfl, -, hhost⟩ := fetch_op_ok.1 h
    exact hhost hi

theorem fetch_of_isDecWrite {cfg : Settings} (hcfg : cfg.decWrites = .decoder) {i : Instr}
    (hinternal : i.isInternalStep = false) (h : i.isDecWrite = true) :
    fetch cfg (.op i) = .error .decIsTheDecoders := by
  simp [fetch, hinternal, h, hcfg]

/-- What can leave `DEC.FB` different: data bytes, RESET, and the framebuffer writes on `DEC` (R20, R43). -/
theorem Effect.dec_fb_cases {i : Instr} {s t : State} (h : Effect s i t) (hne : t.dec.fb ≠ s.dec.fb) :
    completesDataRow i = true ∨ i = .reset ∨ (∃ a v, i = .wdata a v) ∨ i.isDecWrite = true := by
  cases h with
  | row _ hd =>
    rcases decoderOp_cases hd with hrow | ⟨a, v, hi, -⟩
    · cases hcounts : completesDataRow i with
      | true => exact .inl rfl
      | false => rw [hcounts] at hrow; exact absurd hrow.fb_eq hne
    · exact .inr (.inr (.inl ⟨a, v, hi⟩))
  | answer _ h =>
    obtain ⟨hdec, -⟩ := h
    exact absurd (congrArg Decoder.fb hdec) hne
  | fbwrite b a p c v k =>
    cases b with
    | enc => exact absurd rfl hne
    | dec => exact .inr (.inr (.inr rfl))
  | fbmaskwr b a p c mask desired v k r =>
    cases b with
    | enc => exact absurd rfl hne
    | dec => exact .inr (.inr (.inr rfl))
  | reset ports => exact .inr (.inl rfl)
  | accum seg => exact absurd rfl hne
  | segupdate _ => exact absurd rfl hne
  | apply => exact absurd rfl hne
  | emit a p c0 n rows draws => exact absurd rfl hne

/-- What can leave `ENC.FB` different: SEGUPDATE and its step APPLY, RESET, the framebuffer writes on `ENC` (R20). -/
theorem Effect.enc_fb_cases {i : Instr} {s t : State} (h : Effect s i t) (hne : t.enc.fb ≠ s.enc.fb) :
    i = .apply ∨ (∃ seg, i = .segupdate seg) ∨ i = .reset ∨
      (∃ a p c v, i = .fbwrite .enc a p c v) ∨ ∃ a p c mask v, i = .fbmaskwr .enc a p c mask v := by
  cases h with
  | row _ _ => exact absurd rfl hne
  | answer _ h =>
    obtain ⟨-, henc, -⟩ := h
    exact absurd (congrArg Sequencer.fb henc) hne
  | fbwrite b a p c v k =>
    cases b with
    | enc => exact .inr (.inr (.inr (.inl ⟨a, p, c, v, rfl⟩)))
    | dec => exact absurd rfl hne
  | fbmaskwr b a p c mask desired v k r =>
    cases b with
    | enc => exact .inr (.inr (.inr (.inr ⟨a, p, c, mask, desired, rfl⟩)))
    | dec => exact absurd rfl hne
  | accum seg => exact absurd rfl hne
  | segupdate _ => exact .inr (.inl ⟨_, rfl⟩)
  | apply => exact .inl rfl
  | emit a p c0 n rows draws => exact absurd rfl hne
  | reset ports => exact .inr (.inr (.inl rfl))

/-! ### Agents -/

theorem isRowProtocol_of_isSequencerOp {i : Instr} (h : isSequencerOp i = true) : isRowProtocol i = false := by
  cases i with
  | accum seg => rfl
  | segupdate seg => rfl
  | apply => rfl
  | emit a p c0 n => rfl
  | _ => cases h

theorem Effect.enc_eq_of_isRowProtocol {i : Instr} {s t : State} (h : Effect s i t) (hi : isRowProtocol i = true) :
    t.enc = s.enc := by
  cases h with
  | row _ _ => rfl
  | answer _ h =>
    obtain ⟨-, henc, -⟩ := h
    exact henc
  | _ => cases hi

theorem Effect.dec_eq_of_isSequencerOp {i : Instr} {s t : State} (h : Effect s i t) (hi : isSequencerOp i = true) :
    t.dec = s.dec := by
  cases h with
  | row hrow _ => rw [isRowProtocol_of_isSequencerOp hi] at hrow; cases hrow
  | answer hseq _ => rw [hseq] at hi; cases hi
  | accum seg => rfl
  | segupdate _ => rfl
  | apply => rfl
  | emit a p c0 n rows draws => rfl
  | _ => cases hi

/-- A sequencer operation reads the sequencer, the configuration and the count of free values, and nothing else. -/
theorem exec_enc_congr {i : Instr} (hi : isSequencerOp i = true) {s s' t : State} (henc : s'.enc = s.enc)
    (hcfg : s'.cfg = s.cfg) (hdraws : s'.ports.draws = s.ports.draws) (h : exec i s = .next t) :
    ∃ t', exec i s' = .next t' ∧ t'.enc = t.enc := by
  cases i with
  | accum seg =>
    obtain ⟨hadm, rfl⟩ := exec_accum_next_iff.1 h
    exact ⟨_, exec_accum_next_iff.2 ⟨hadm, rfl⟩, by simp only [henc]⟩
  | segupdate seg =>
    obtain ⟨hadm, hready, rfl⟩ := exec_segupdate_next_iff.1 h
    exact ⟨_, exec_segupdate_next_iff.2 ⟨hadm, by rw [hcfg, hready], rfl⟩, by simp only [henc, hcfg]⟩
  | apply =>
    cases h
    exact ⟨_, rfl, by simp only [henc]⟩
  | emit a p c0 n =>
    cases h
    exact ⟨_, rfl, by simp only [henc, hdraws]⟩
  | _ => cases hi

end Sys2Proof.Machine

namespace Sys2Proof.Claims

open Sys2Proof Sys2Proof.Machine

/-- Settles O55: the effect names the writers, and the fetch rules out APPLY alone and, by the parameter, the host's
writes on `DEC`. -/
theorem framebuffersHaveTheirWriters : Obligations.FramebuffersHaveTheirWriters := by
  constructor
  · intro s t hstep hne
    rcases step_next_cases hstep with rfl | ⟨x, rest, i, hin, hfetch, heffect⟩
    · exact absurd rfl hne
    · refine ⟨x, rest, i, hin, hfetch, ?_⟩
      rcases heffect.dec_fb_cases hne with h | h | h | h
      · exact .inl h
      · exact .inr (.inl h)
      · exact .inr (.inr (.inl h))
      · exact .inr (.inr (.inr ⟨decWrites_of_fetch hfetch h, eq_of_isDecWrite h⟩))
  · intro s t hstep hne
    rcases step_next_cases hstep with rfl | ⟨x, rest, i, hin, hfetch, heffect⟩
    · exact absurd rfl hne
    · refine ⟨x, rest, i, hin, hfetch, ?_⟩
      rcases heffect.enc_fb_cases hne with rfl | h
      · cases isInternalStep_of_fetch hfetch
      · exact h

/-- Settles O30: under the parameter the fetch refuses the host's writes on `DEC`, so of the writers of `DEC.FB` data
bytes and RESET are left. -/
theorem onlyDataBytesWriteDecFb : Obligations.OnlyDataBytesWriteDecFb := by
  intro s t rest hcfg
  constructor
  · intro a p c mask v
    simp only [List.forall_mem_cons]
    exact ⟨fun hin => step_of_fetch_error hin (fetch_of_isDecWrite hcfg rfl rfl),
      fun hin => step_of_fetch_error hin (fetch_of_isDecWrite hcfg rfl rfl), List.forall_mem_nil _⟩
  · intro hstep hne
    obtain ⟨x, rest, i, hin, hfetch, hwriter⟩ := framebuffersHaveTheirWriters.1 s t hstep hne
    refine ⟨x, rest, i, hin, hfetch, ?_⟩
    rcases hwriter with h | h | h | ⟨hhost, -⟩
    · exact .inr (.inl h)
    · exact .inl h
    · exact .inr (.inr h)
    · rw [hcfg] at hhost; cases hhost

/-- Settles O54: the effects' frames, and that each agent's outcome is a function of its own state and the
configuration. -/
theorem agentsShareNoState : Obligations.AgentsShareNoState := by
  refine ⟨?_, ?_, fun i s s' t hi henc hcfg hdraws => exec_enc_congr hi henc hcfg hdraws⟩
  · intro i s t h
    have heffect := effect_of_exec h
    exact ⟨heffect.enc_eq_of_isRowProtocol, heffect.dec_eq_of_isSequencerOp⟩
  · intro i s s' t hi hdec hcfg h
    obtain ⟨d, hd, rfl⟩ := exec_next_of_isRowProtocol hi h
    exact ⟨s'.afterRow d, by rw [exec_of_isRowProtocol hi, hdec, hcfg, hd, State.decoderOutcome_ok], rfl⟩

end Sys2Proof.Claims
end

section
/-! Proofs for 44_control_row.md: the control commands by the value of their byte, control rows and SETCURSOR. -/

namespace Sys2Proof

/-! ### The loads by the value of their byte (R65) -/

theorem classifyCtrl_of_low : ∀ b : Byte, b.toNat ≤ 0x0F → classifyCtrl b = .setcollo (b.setWidth 4) := by decide

theorem classifyCtrl_of_high : ∀ b : Byte, 0x10 ≤ b.toNat → b.toNat ≤ 0x1F →
    classifyCtrl b = .setcolhi (b.setWidth 4) := by decide

theorem classifyCtrl_of_page : ∀ b : Byte, 0xB0 ≤ b.toNat → b.toNat ≤ 0xB7 →
    classifyCtrl b = .setpage (b.setWidth 3) := by decide

theorem CtrlCmd.setcollo_byte : ∀ n : BitVec 4, (CtrlCmd.setcollo n).byte = BitVec.ofNat 8 n.toNat := by decide

theorem CtrlCmd.setcolhi_byte : ∀ n : BitVec 4, (CtrlCmd.setcolhi n).byte = BitVec.ofNat 8 (0x10 + n.toNat) := by
  decide

/-- The value of a column from its nibbles (R69). -/
theorem toNat_append_nibbles (h l : BitVec 4) : (h ++ l : BitVec (4 + 4)).toNat = h.toNat * 16 + l.toNat := by
  rw [BitVec.toNat_append, ← Nat.shiftLeft_add_eq_or_of_lt l.isLt, Nat.shiftLeft_eq]

/-- The four-byte control row of R72 for a page and a column, as numbers (R69). -/
theorem setcursorPayload_ofNat {p c : Nat} (hp : p < 8) (hc : c < 256) :
    setcursorPayload (BitVec.ofNat 3 p) (BitVec.ofNat 4 c) (BitVec.ofNat 4 (c / 16)) =
      [0x00, BitVec.ofNat 8 (0xB0 + p), BitVec.ofNat 8 (c % 16), BitVec.ofNat 8 (0x10 + c / 16)] := by
  have hpage : (BitVec.ofNat 3 p).toNat = p := Nat.mod_eq_of_lt hp
  have hlow : (BitVec.ofNat 4 c).toNat = c % 16 := rfl
  have hhigh : (BitVec.ofNat 4 (c / 16)).toNat = c / 16 := Nat.mod_eq_of_lt (by omega)
  rw [setcursorPayload, CtrlCmd.setpage_byte, CtrlCmd.setcollo_byte, CtrlCmd.setcolhi_byte, hpage, hlow, hhigh]
  rfl

end Sys2Proof

namespace Sys2Proof.Machine

open Sys2Proof.Claims

/-! ### What a body byte does to the cursor, as numbers (R156 to R159) -/

theorem Cursor.setColLo_col (c : Cursor) (n : BitVec 4) : (c.setColLo n).col = c.col.extractLsb' 4 4 ++ n := by
  apply BitVec.eq_of_getLsbD_eq
  intro i hi
  rw [Cursor.setColLo, BitVec.getLsbD_append]
  interval_cases i <;> simp

theorem Cursor.setColHi_col (c : Cursor) (n : BitVec 4) : (c.setColHi n).col = n ++ c.col.extractLsb' 0 4 := by
  apply BitVec.eq_of_getLsbD_eq
  intro i hi
  rw [Cursor.setColHi, BitVec.getLsbD_append]
  interval_cases i <;> simp

theorem Cursor.setColLo_toNat (c : Cursor) (n : BitVec 4) :
    (c.setColLo n).col.toNat = c.col.toNat / 16 * 16 + n.toNat := by
  have := c.col.isLt
  rw [Cursor.setColLo_col, toNat_append_nibbles, BitVec.extractLsb'_toNat, Nat.shiftRight_eq_div_pow]
  omega

theorem Cursor.setColHi_toNat (c : Cursor) (n : BitVec 4) :
    (c.setColHi n).col.toNat = n.toNat * 16 + c.col.toNat % 16 := by
  rw [Cursor.setColHi_col, toNat_append_nibbles, BitVec.extractLsb'_toNat, Nat.shiftRight_zero]

theorem Cursor.ctrlCmd_of_isCnop {k : CtrlCmd} (h : k.isCnop = true) (c : Cursor) : c.ctrlCmd k = c := by
  cases k with
  | setcollo n => cases h
  | setcolhi n => cases h
  | setpage p => cases h
  | _ => rfl

/-- The cursor after one body byte: each of the four ranges of R65 by its load. -/
theorem Cursor.ctrlByte_cases (c : Cursor) (b : Byte) :
    (b.toNat ≤ 0x0F ∧ c.ctrlCmd (classifyCtrl b) = c.setColLo (b.setWidth 4)) ∨
    (0x10 ≤ b.toNat ∧ b.toNat ≤ 0x1F ∧ c.ctrlCmd (classifyCtrl b) = c.setColHi (b.setWidth 4)) ∨
    (0xB0 ≤ b.toNat ∧ b.toNat ≤ 0xB7 ∧ c.ctrlCmd (classifyCtrl b) = c.setPage (b.setWidth 3)) ∨
    (((0x20 ≤ b.toNat ∧ b.toNat ≤ 0xAF) ∨ 0xB8 ≤ b.toNat) ∧ c.ctrlCmd (classifyCtrl b) = c) := by
  by_cases hlow : b.toNat ≤ 0x0F
  · exact .inl ⟨hlow, by rw [classifyCtrl_of_low b hlow]; rfl⟩
  by_cases hhigh : b.toNat ≤ 0x1F
  · exact .inr (.inl ⟨by omega, hhigh, by rw [classifyCtrl_of_high b (by omega) hhigh]; rfl⟩)
  by_cases hpage : 0xB0 ≤ b.toNat ∧ b.toNat ≤ 0xB7
  · exact .inr (.inr (.inl ⟨hpage.1, hpage.2, by rw [classifyCtrl_of_page b hpage.1 hpage.2]; rfl⟩))
  · have hrange : (0x20 ≤ b.toNat ∧ b.toNat ≤ 0xAF) ∨ 0xB8 ≤ b.toNat := by omega
    exact .inr (.inr (.inr ⟨hrange, Cursor.ctrlCmd_of_isCnop (isCnop_classifyCtrl b hrange) c⟩))

/-- A body byte loads the page in `0xB0`..`0xB7` only (R156). -/
theorem Cursor.page_ctrlByte (c : Cursor) (b : Byte) : (c.ctrlCmd (classifyCtrl b)).page.toNat =
    if 0xB0 ≤ b.toNat ∧ b.toNat ≤ 0xB7 then b.toNat % 16 else c.page.toNat := by
  rcases c.ctrlByte_cases b with ⟨hb, h⟩ | ⟨hb, hb', h⟩ | ⟨hb, hb', h⟩ | ⟨hb, h⟩ <;> rw [h]
  · rw [if_neg (by omega), Cursor.setColLo_page]
  · rw [if_neg (by omega), Cursor.setColHi_page]
  · rw [if_pos ⟨hb, hb'⟩, Cursor.setPage_page, BitVec.toNat_setWidth]
    omega
  · rw [if_neg (by omega)]

/-- A body byte loads the column's low nibble in `0x00`..`0x0F` only (R157, D5). -/
theorem Cursor.colLow_ctrlByte (c : Cursor) (b : Byte) : (c.ctrlCmd (classifyCtrl b)).col.toNat % 16 =
    if 0x00 ≤ b.toNat ∧ b.toNat ≤ 0x0F then b.toNat % 16 else c.col.toNat % 16 := by
  rcases c.ctrlByte_cases b with ⟨hb, h⟩ | ⟨hb, hb', h⟩ | ⟨hb, hb', h⟩ | ⟨hb, h⟩ <;> rw [h]
  · rw [if_pos ⟨Nat.zero_le _, hb⟩, Cursor.setColLo_toNat, BitVec.toNat_setWidth]
    omega
  · rw [if_neg (by omega), Cursor.setColHi_toNat]
    omega
  · rw [if_neg (by omega), Cursor.setPage_col]
  · rw [if_neg (by omega)]

/-- A body byte loads the column's high nibble in `0x10`..`0x1F` only (R158, D5). -/
theorem Cursor.colHigh_ctrlByte (c : Cursor) (b : Byte) : (c.ctrlCmd (classifyCtrl b)).col.toNat / 16 =
    if 0x10 ≤ b.toNat ∧ b.toNat ≤ 0x1F then b.toNat % 16 else c.col.toNat / 16 := by
  rcases c.ctrlByte_cases b with ⟨hb, h⟩ | ⟨hb, hb', h⟩ | ⟨hb, hb', h⟩ | ⟨hb, h⟩ <;> rw [h]
  · rw [if_neg (by omega), Cursor.setColLo_toNat, BitVec.toNat_setWidth]
    omega
  · rw [if_pos ⟨hb, hb'⟩, Cursor.setColHi_toNat, BitVec.toNat_setWidth]
    omega
  · rw [if_neg (by omega), Cursor.setPage_col]
  · rw [if_neg (by omega)]

/-! ### A control row leaves the last loads -/

theorem lastIn_append_singleton (lo hi : Nat) (body : List Byte) (b : Byte) : lastIn lo hi (body ++ [b]) =
    if lo ≤ b.toNat ∧ b.toNat ≤ hi then some b else lastIn lo hi body := by
  rw [lastIn, List.filter_append]
  split
  · next h => rw [List.filter_cons_of_pos (by simpa using h)]; simp
  · next h => rw [List.filter_cons_of_neg (by simpa using h)]; simp [lastIn]

/-- A part of the cursor that each body byte of one range loads, and no other byte touches, is after a body what the
last byte of that range loads. -/
theorem Cursor.foldl_ctrlByte {part : Cursor → Nat} {lo hi : Nat}
    (hpart : ∀ (c : Cursor) (b : Byte), part (c.ctrlCmd (classifyCtrl b)) =
      if lo ≤ b.toNat ∧ b.toNat ≤ hi then b.toNat % 16 else part c) (c : Cursor) (body : List Byte) :
    part (body.foldl (fun c b => c.ctrlCmd (classifyCtrl b)) c) =
      (lastIn lo hi body).elim (part c) (fun b => b.toNat % 16) := by
  induction body using List.reverseRecOn with
  | nil => rfl
  | append_singleton body b ih =>
    rw [List.foldl_append, List.foldl_cons, List.foldl_nil, hpart, lastIn_append_singleton, ih]
    split <;> rfl

/-! ### The rows -/

@[simp] theorem Decoder.cursor_ctrlCmd (d : Decoder) (a : Display) (k : CtrlCmd) :
    (d.ctrlCmd a k).cursor a = (d.cursor a).ctrlCmd k := by
  rw [Decoder.ctrlCmd_eq, Decoder.cursor_setCursor]

theorem Decoder.cursor_ctrlRow (d : Decoder) (a : Display) (body : List Byte) :
    (d.ctrlRow a body).cursor a = body.foldl (fun c b => c.ctrlCmd (classifyCtrl b)) (d.cursor a) := by
  rw [Decoder.ctrlRow_eq, Decoder.cursor_setCursor]

theorem exec_ctrlrow (a : Display) (body : List Byte) (s : State) :
    exec (.ctrlrow a body) s = .next (s.afterRow (s.dec.ctrlRow a body)) := rfl

/-- The four-byte control row sets the whole cursor (R74). -/
theorem exec_row_setcursorPayload (a : Display) (p : BitVec 3) (l h : BitVec 4) (s : State) :
    exec (.row (busAddr a) (setcursorPayload p l h)) s = .next (s.afterRow (s.dec.setCursor ⟨p, h ++ l⟩ a)) := by
  have hpayload : setcursorPayload p l h = Config.hdrCtrl :: (setcursorPayload p l h).tail := rfl
  rw [exec_row_busAddr, hpayload, Decoder.payload_ctrl, Decoder.ctrlRow_setcursor, State.decoderOutcome_ok]

theorem exec_setcursor (a : Display) (p : BitVec 3) (l h : BitVec 4) (s : State) :
    exec (.setcursor a p l h) s = exec (.row (busAddr a) (setcursorPayload p l h)) s := rfl

/-- Of two rows in turn the second one's note stands, when the first counted nothing. -/
theorem State.afterRow_afterRow {s : State} {d : Decoder} (h : d.drows = s.dec.drows) (d' : Decoder) :
    (s.afterRow d).afterRow d' = s.afterRow d' := by
  simp only [State.afterRow, h]

/-- A data row is its first byte and then the row without it (R170). -/
theorem Decoder.dataRow_cons {cfg : Settings} {d d' : Decoder} {a : Display} {v : Byte}
    (h : d.wdata cfg a v = .ok d') (vs : List Byte) : d.dataRow cfg a (v :: vs) = d'.dataRow cfg a vs := by
  rw [Decoder.dataRow, Decoder.dataBytes, h]
  rfl

end Sys2Proof.Machine

namespace Sys2Proof.Claims

open Sys2Proof Sys2Proof.Machine

theorem onlyCursor_setCursor (a : Display) (c : Cursor) (s : State) :
    OnlyCursor a s (s.afterRow (s.dec.setCursor c a)) :=
  ⟨onlyDecoder_afterRow s _, s.dec.setCursor_fb c a, s.dec.setCursor_drows c a,
    fun _ hb => s.dec.cursor_setCursor_ne c hb⟩

theorem onlyCursor_ctrlRow (a : Display) (body : List Byte) (s : State) :
    OnlyCursor a s (s.afterRow (s.dec.ctrlRow a body)) := by
  rw [Decoder.ctrlRow_eq]
  exact onlyCursor_setCursor a _ s

/-- Settles O7: the byte is the command of its range, and does that command's load. -/
theorem controlByteActsByItsRange : Obligations.ControlByteActsByItsRange := by
  intro a b s
  refine ⟨_, _, decode_ctrlBody a b, exec_instr a _ s, onlyCursor_ctrlCmd a _ s, ?_, ?_, ?_, ?_⟩
  · rintro ⟨hlo, hhi⟩
    rw [classifyCtrl_of_page b hlo hhi, State.afterRow_dec, Decoder.cursor_ctrlCmd_setpage, Cursor.setPage_page,
      BitVec.toNat_setWidth]
    exact ⟨by omega, Cursor.setPage_col ..⟩
  · intro hhi
    rw [classifyCtrl_of_low b hhi, State.afterRow_dec, Decoder.cursor_ctrlCmd, Cursor.ctrlCmd, Cursor.setColLo_toNat,
      BitVec.toNat_setWidth]
    exact ⟨Cursor.setColLo_page .., by omega⟩
  · rintro ⟨hlo, hhi⟩
    rw [classifyCtrl_of_high b hlo hhi, State.afterRow_dec, Decoder.cursor_ctrlCmd, Cursor.ctrlCmd,
      Cursor.setColHi_toNat, BitVec.toNat_setWidth]
    exact ⟨Cursor.setColHi_page .., by omega⟩
  · intro hb
    exact Decoder.ctrlCmd_of_isCnop (isCnop_classifyCtrl b hb) s.dec a

/-- Settles O9: each load is the cursor operation of its rule. -/
theorem columnNibbleLoads : Obligations.ColumnNibbleLoads := by
  intro a n s
  constructor
  · refine ⟨_, exec_instr a (.setcollo n) s, onlyCursor_ctrlCmd a _ s, ?_, ?_⟩ <;>
      rw [State.afterRow_dec, Decoder.cursor_ctrlCmd] <;> rfl
  · refine ⟨_, exec_instr a (.setcolhi n) s, onlyCursor_ctrlCmd a _ s, ?_, ?_⟩ <;>
      rw [State.afterRow_dec, Decoder.cursor_ctrlCmd] <;> rfl

/-- Settles O11: page, low nibble and high nibble are the three parts that bytes of one range each load. -/
theorem controlRowKeepsTheLastLoads : Obligations.ControlRowKeepsTheLastLoads := by
  intro a body s i hi
  have hexec : exec i s = .next (s.afterRow (s.dec.ctrlRow a body)) := by
    revert i
    simp only [List.forall_mem_cons]
    exact ⟨exec_ctrl a body s, exec_ctrlrow a body s, List.forall_mem_nil _⟩
  refine ⟨_, hexec, onlyCursor_ctrlRow a body s, ?_, ?_, ?_⟩ <;> rw [State.afterRow_dec, Decoder.cursor_ctrlRow]
  · rw [Cursor.foldl_ctrlByte (part := fun c => c.page.toNat) Cursor.page_ctrlByte]
    cases lastIn 0xB0 0xB7 body <;> rfl
  · rw [Cursor.foldl_ctrlByte (part := fun c => c.col.toNat % 16) Cursor.colLow_ctrlByte]
    cases lastIn 0x00 0x0F body <;> rfl
  · rw [Cursor.foldl_ctrlByte (part := fun c => c.col.toNat / 16) Cursor.colHigh_ctrlByte]
    cases lastIn 0x10 0x1F body <;> rfl

/-- Settles O12: both rows are the template of R72, which sets the cursor to its fields. -/
theorem setcursorSetsTheWholeCursor : Obligations.SetcursorSetsTheWholeCursor := by
  constructor
  · intro a p l h s
    refine ⟨_, (exec_setcursor a p l h s).trans (exec_row_setcursorPayload a p l h s), onlyCursor_setCursor a _ s, ?_⟩
    rw [State.afterRow_dec, Decoder.cursor_setCursor]
    exact ⟨rfl, toNat_append_nibbles h l⟩
  · intro a p c s hp hc
    have hrow := exec_row_setcursorPayload a (BitVec.ofNat 3 p) (BitVec.ofNat 4 c) (BitVec.ofNat 4 (c / 16)) s
    rw [setcursorPayload_ofNat hp (by omega)] at hrow
    refine ⟨_, hrow, onlyCursor_setCursor a _ s, ?_⟩
    rw [State.afterRow_dec, Decoder.cursor_setCursor]
    exact ⟨Nat.mod_eq_of_lt hp, column_of_nibbles (by omega)⟩

/-- Settles O25: the scan of a control row and the bytes of a data row both begin with the first byte's command. -/
theorem rowIsItsBytesInTurn : Obligations.RowIsItsBytesInTurn := by
  intro a b body s
  constructor
  · refine ⟨_, _, decode_ctrlBody a b, exec_instr a _ s, ?_⟩
    rw [exec_ctrl, exec_ctrl, State.afterRow_afterRow (s.dec.ctrlCmd_drows a _)]
    rfl
  · intro t ht u hu
    obtain ⟨d, hd, rfl⟩ := (State.decoderOutcome_next_iff ..).1 ht
    obtain ⟨d', hd', rfl⟩ := (State.decoderOutcome_next_iff ..).1 hu
    exact ⟨s.afterRow d', (State.decoderOutcome_next_iff ..).2 ⟨d', (Decoder.dataRow_cons hd body).trans hd', rfl⟩, rfl⟩

end Sys2Proof.Claims
end

section
/-! Proofs for 45_data_row.md: WDATA, data rows under their names, RUN. -/

namespace Sys2Proof.Machine

open Sys2Proof.Claims

/-! ### Data bytes and data rows as decoder operations -/

theorem exec_wdata (a : Display) (v : Byte) (s : State) :
    exec (.wdata a v) s = s.decoderOutcome (s.dec.wdata s.cfg a v) := rfl

theorem exec_datarow (a : Display) (body : List Byte) (s : State) :
    exec (.datarow a body) s = s.decoderOutcome (s.dec.dataRow s.cfg a body) := rfl

theorem exec_row_hdrData (a : Display) (body : List Byte) (s : State) :
    exec (.row (busAddr a) (Config.hdrData :: body)) s = s.decoderOutcome (s.dec.dataRow s.cfg a body) := by
  rw [exec_row_busAddr, Decoder.payload_data]

/-- A data row is the same under its four names (R170, R81). -/
theorem exec_dataRow_forms (a : Display) (body : List Byte) (s : State) :
    ∀ i ∈ [Instr.data a body, .datarow a body, .write a body, .row (busAddr a) (0x40 :: body)],
      exec i s = s.decoderOutcome (s.dec.dataRow s.cfg a body) := by
  simp only [List.forall_mem_cons]
  exact ⟨exec_datarow a body s, exec_datarow a body s, exec_row_hdrData a body s, exec_row_hdrData a body s,
    List.forall_mem_nil _⟩

theorem exec_run (a : Display) (p : BitVec 3) (c : BitVec 8) (ds : List Byte) (s : State) :
    exec (.run a p c ds) s = s.decoderOutcome ((s.dec.setCursor ⟨p, c⟩ a).dataRow s.cfg a ds) := by
  rw [← Decoder.rows_runRows]
  rfl

theorem col_eq_255_iff {c : Cursor} : c.col = 255 ↔ c.col.toNat = 255 :=
  BitVec.toNat_inj.symm

/-- A data row completes when no byte of it arrives at column 255, or when the column wraps there (R173, D3). -/
theorem Decoder.dataRow_ok {cfg : Settings} {d : Decoder} {a : Display} {body : List Byte}
    (h : cfg.colOverflow = .wrap256 ∨ (d.cursor a).col.toNat + body.length ≤ 255) :
    d.dataRow cfg a body = .ok { d.dataFold a body with drows := d.drows + 1 } := by
  rcases h with h | h
  · exact Decoder.dataRow_of_ok (Decoder.dataBytes_ok h d a body)
  · exact Decoder.dataRow_of_ok (Decoder.dataBytes_ok_of_le cfg h)

/-! ### The count of rows is apart from the bytes -/

theorem Decoder.dataByte_withDrows (d : Decoder) (n : Nat) (a : Display) (v : Byte) :
    ({ d with drows := n } : Decoder).dataByte a v = { d.dataByte a v with drows := n } := by
  simp only [Decoder.dataByte, Decoder.storeAtCursor, Decoder.cursor_withDrows]
  split <;> cases a <;> rfl

theorem Decoder.dataFold_withDrows (d : Decoder) (n : Nat) (a : Display) (body : List Byte) :
    ({ d with drows := n } : Decoder).dataFold a body = { d.dataFold a body with drows := n } := by
  induction body generalizing d with
  | nil => rfl
  | cons v vs ih => rw [Decoder.dataFold_cons, Decoder.dataByte_withDrows, ih, Decoder.dataFold_cons]

end Sys2Proof.Machine

namespace Sys2Proof.Claims

open Sys2Proof Sys2Proof.Machine

/-- Different locations that exist have different numbers. -/
theorem fbAddr_ne {a b : Display} {p c p' c' : Nat} (hp : p < 8) (hc : c < 132) (hp' : p' < 8) (hc' : c' < 132)
    (hne : (b, p', c') ≠ (a, p, c)) : fbAddr b p' c' ≠ fbAddr a p c := by
  rw [ne_eq, fbAddr_inj hp' hc' hp hc]
  rintro ⟨rfl, rfl, rfl⟩
  exact hne rfl

/-- The bytes after one data byte: the one at the cursor, if it exists, and no other (R171). -/
theorem byteOf_dataByte {d : Decoder} (hwf : d.fb.wf = true) (a : Display) (v : Byte) (b : Display) {p c : Nat}
    (hp : p < 8) (hc : c < 132) : byteOf (d.dataByte a v).fb b p c =
      if b = a ∧ p = (d.cursor a).page.toNat ∧ c = (d.cursor a).col.toNat then v else byteOf d.fb b p c := by
  rw [byteOf, Decoder.dataByte_fb, Decoder.storeAtCursor_read hwf]
  refine if_congr ⟨?_, ?_⟩ rfl rfl
  · rintro ⟨hcol, haddr⟩
    exact (fbAddr_inj hp hc (d.cursor a).page.isLt hcol).1 haddr
  · rintro ⟨rfl, rfl, rfl⟩
    exact ⟨hc, rfl⟩

/-- A data-row body has the effect that the statements spell out, byte by byte (R170 to R173). -/
theorem dataBodyEffect_dataFold {d : Decoder} (hwf : d.fb.wf = true) (a : Display) (body : List Byte) (n : Nat) :
    DataBodyEffect a body d { d.dataFold a body with drows := n } := by
  refine ⟨?_, ?_, ?_, ?_, ?_⟩
  · rw [Decoder.cursor_withDrows, Decoder.dataFold_page]
  · rw [Decoder.cursor_withDrows, Decoder.dataFold_col]
  · intro b hb
    rw [Decoder.cursor_withDrows, Decoder.dataFold_cursor_ne d hb]
  · intro i hi hlast hcol
    exact Decoder.dataFold_read_hit hwf a body i hi hlast (by omega)
  · intro b p c hp hc hno
    exact Decoder.dataFold_read_other hwf a body _ fun i hi hcol =>
      fbAddr_ne (d.cursor a).page.isLt hcol hp hc (hno i hi)

/-- Settles O13: one data byte, by the byte it stores and the increment. -/
theorem wdataWritesThenAdvances : Obligations.WdataWritesThenAdvances := by
  intro a v s hwf hcol
  have hok : s.dec.wdata s.cfg a v = .ok (s.dec.dataByte a v) :=
    Decoder.wdata_ok (hcol.imp_right (mt col_eq_255_iff.1)) v
  have hpage := (s.dec.cursor a).page.isLt
  refine ⟨s.afterRow (s.dec.dataByte a v), by rw [exec_wdata, hok, State.decoderOutcome_ok],
    onlyDecoder_afterRow s _, Decoder.dataByte_drows _ a v, ?_, ?_, fun b hb => Decoder.dataByte_cursor_ne _ hb v,
    ?_, ?_⟩
  · rw [State.afterRow_dec, Decoder.dataByte_cursor, Cursor.advance_page]
  · rw [State.afterRow_dec, Decoder.dataByte_cursor, Cursor.advance_toNat]
  · intro hin
    constructor
    · rw [State.afterRow_dec, byteOf_dataByte hwf a v a hpage (by omega), if_pos ⟨rfl, rfl, rfl⟩]
    · intro b p c hp hc hne
      rw [State.afterRow_dec, byteOf_dataByte hwf a v b hp hc, if_neg]
      rintro ⟨rfl, rfl, rfl⟩
      exact hne rfl
  · intro hout b p c hp hc
    rw [State.afterRow_dec, byteOf_dataByte hwf a v b hp hc, if_neg (by omega)]

/-- Settles O14: the byte that arrives at column 255 refuses the transaction, whatever the row's name. -/
theorem dataAtColumn255UnderRefuse : Obligations.DataAtColumn255UnderRefuse := by
  intro a s hrefuse
  constructor
  · intro v hcol
    rw [exec_wdata, Decoder.wdata, if_pos ⟨hrefuse, col_eq_255_iff.2 hcol⟩, State.decoderOutcome_error]
  · intro body hlen i hi
    rw [exec_dataRow_forms a body s i hi, Decoder.dataRow_refused hrefuse hlen, State.decoderOutcome_error]

/-- Settles O15: the four names are one row, whose body is written byte by byte. -/
theorem dataRowWritesItsBytes : Obligations.DataRowWritesItsBytes := by
  intro a body s hwf hcol i hi
  exact ⟨_, by rw [exec_dataRow_forms a body s i hi, Decoder.dataRow_ok hcol, State.decoderOutcome_ok],
    onlyDecoder_afterRow s _, rfl, dataBodyEffect_dataFold hwf a body _⟩

/-- Settles O16: RUN is the data row from the cursor it sets; inside a page no byte of it wraps or is dropped. -/
theorem runWritesItsBytes : Obligations.RunWritesItsBytes := by
  intro a p c ds s hwf
  have hcur : (s.dec.setCursor ⟨p, c⟩ a).cursor a = ⟨p, c⟩ := Decoder.cursor_setCursor ..
  refine ⟨?_, ?_, ?_⟩
  · rintro ⟨hn, -, hin⟩
    obtain ⟨d, hd, -, hdrows, hpage, hcol, hcursor, hhit, hother⟩ :=
      Decoder.rows_run s.cfg hwf a p.isLt ds hn hin
    rw [Decoder.rows_runRows] at hd
    refine ⟨_, by rw [exec_run, hd, State.decoderOutcome_ok], onlyDecoder_afterRow s d, hdrows,
      BitVec.eq_of_toNat_eq hpage, hcol, hcursor, hhit, ?_⟩
    intro b p' c' hp' hc' hno
    exact hother _ fun i hi => fbAddr_ne p.isLt (by omega) hp' hc' (hno i hi)
  · intro hcol
    refine ⟨_, by rw [exec_run, Decoder.dataRow_ok (by rwa [hcur]), State.decoderOutcome_ok],
      onlyDecoder_afterRow s _, ?_, dataBodyEffect_dataFold (by rwa [Decoder.setCursor_fb]) a ds _⟩
    rw [State.afterRow_dec, Decoder.setCursor_drows]
  · intro hrefuse hlen
    rw [exec_run, Decoder.dataRow_refused hrefuse (by rwa [hcur]), State.decoderOutcome_error]

/-- Settles O17: the second body goes on where the first one left the cursor, and the count is apart from both. -/
theorem dataRowsChain : Obligations.DataRowsChain := by
  intro a x y s hcol
  have hexec (body : List Byte) (t : State) (hcfg : t.cfg = s.cfg) : exec (.datarow a body) t =
      .next (t.afterRow { t.dec.dataFold a body with drows := t.dec.drows + 1 }) := by
    rw [exec_datarow, Decoder.dataRow_ok (.inl (hcfg ▸ hcol)), State.decoderOutcome_ok]
  refine ⟨_, _, _, hexec x s rfl, hexec y _ rfl, hexec (x ++ y) s rfl, ?_, ?_, rfl⟩
  · simp only [State.afterRow_dec, Decoder.dataFold_withDrows, Decoder.dataFold_append]
  · intro b
    simp only [State.afterRow_dec, Decoder.dataFold_withDrows, Decoder.dataFold_append, Decoder.cursor_withDrows]

end Sys2Proof.Claims
end

section
/-! Proofs for 43_row_dispatch.md: dispatch on address and header, and rows to different displays. -/

namespace Sys2Proof.Machine

open Sys2Proof.Claims

theorem exec_hdrOther (a : Display) (h : Byte) (body : List Byte) (s : State) :
    exec (.hdrOther a h body) s = s.decoderOutcome (s.dec.payload s.cfg a (h :: body)) := rfl

/-- A row to a display that goes on leaves the dispatch's decoder. -/
theorem dec_of_exec_row_busAddr {a : Display} {bs : List Byte} {s t : State}
    (h : exec (.row (busAddr a) bs) s = .next t) : t.dec = s.dec.payloadDone a bs := by
  rw [exec_row_busAddr, State.decoderOutcome_next_iff] at h
  obtain ⟨d, hd, rfl⟩ := h
  exact Decoder.eq_payloadDone hd

theorem Decoder.payloadDone_fb_wf {d : Decoder} (hwf : d.fb.wf = true) (a : Display) (bs : List Byte) :
    (d.payloadDone a bs).fb.wf = true :=
  (RowDone.payloadDone d a bs).fb_wf hwf

end Sys2Proof.Machine

namespace Sys2Proof.Claims

open Sys2Proof Sys2Proof.Machine

/-! ### Agreement on one display -/

theorem AgreeOn.refl (a : Display) (d : Decoder) : AgreeOn a d d := ⟨rfl, fun _ _ _ _ => rfl⟩

theorem AgreeOn.symm {a : Display} {d d' : Decoder} (h : AgreeOn a d d') : AgreeOn a d' d :=
  ⟨h.1.symm, fun p c hp hc => (h.2 p c hp hc).symm⟩

theorem AgreeOn.trans {a : Display} {d d' d'' : Decoder} (h : AgreeOn a d d') (h' : AgreeOn a d' d'') :
    AgreeOn a d d'' :=
  ⟨h'.1.trans h.1, fun p c hp hc => (h'.2 p c hp hc).trans (h.2 p c hp hc)⟩

theorem agreeOn_withDrows (a : Display) (d : Decoder) (n : Nat) : AgreeOn a d { d with drows := n } :=
  ⟨Decoder.cursor_withDrows d n a, fun _ _ _ _ => rfl⟩

/-- Bytes sent to one display reach no other (R22, R141). -/
theorem agreeOn_dataFold_of_ne {d : Decoder} (hwf : d.fb.wf = true) {a b : Display} (hb : b ≠ a)
    (body : List Byte) : AgreeOn b d (d.dataFold a body) := by
  refine ⟨Decoder.dataFold_cursor_ne d hb body, fun p c hp hc => ?_⟩
  exact Decoder.dataFold_read_other hwf a body _ fun i _ hcol =>
    fbAddr_ne (d.cursor a).page.isLt hcol hp hc fun heq => hb (congrArg Prod.fst heq)

/-- What a data byte leaves of its display depends on that display only (R171). -/
theorem agreeOn_dataByte {d d' : Decoder} (hwf : d.fb.wf = true) (hwf' : d'.fb.wf = true) {a : Display}
    (h : AgreeOn a d d') (v : Byte) : AgreeOn a (d.dataByte a v) (d'.dataByte a v) := by
  obtain ⟨hcur, hbytes⟩ := h
  refine ⟨by rw [Decoder.dataByte_cursor, Decoder.dataByte_cursor, hcur], fun p c hp hc => ?_⟩
  rw [byteOf_dataByte hwf' a v a hp hc, byteOf_dataByte hwf a v a hp hc, hcur, hbytes p c hp hc]

theorem agreeOn_dataFold {d d' : Decoder} (hwf : d.fb.wf = true) (hwf' : d'.fb.wf = true) {a : Display}
    (h : AgreeOn a d d') (body : List Byte) : AgreeOn a (d.dataFold a body) (d'.dataFold a body) := by
  induction body generalizing d d' with
  | nil => exact h
  | cons v vs ih =>
    exact ih (Decoder.dataFold_wf hwf a [v]) (Decoder.dataFold_wf hwf' a [v]) (agreeOn_dataByte hwf hwf' h v)

theorem agreeOn_payloadDone_of_ne {d : Decoder} (hwf : d.fb.wf = true) {a b : Display} (hb : b ≠ a)
    (bs : List Byte) : AgreeOn b d (d.payloadDone a bs) := by
  cases bs with
  | nil => exact .refl b d
  | cons hdr body =>
    rw [Decoder.payloadDone]
    split
    · exact ⟨Decoder.ctrlRow_cursor_ne d hb body, fun p c _ _ => by rw [Decoder.ctrlRow_fb]⟩
    · split
      · exact (agreeOn_dataFold_of_ne hwf hb body).trans (agreeOn_withDrows b _ _)
      · exact .refl b d

theorem agreeOn_payloadDone {d d' : Decoder} (hwf : d.fb.wf = true) (hwf' : d'.fb.wf = true) {a : Display}
    (h : AgreeOn a d d') (bs : List Byte) : AgreeOn a (d.payloadDone a bs) (d'.payloadDone a bs) := by
  cases bs with
  | nil => exact h
  | cons hdr body =>
    simp only [Decoder.payloadDone]
    split
    · obtain ⟨hcur, hbytes⟩ := h
      refine ⟨by rw [Decoder.cursor_ctrlRow, Decoder.cursor_ctrlRow, hcur], fun p c hp hc => ?_⟩
      rw [Decoder.ctrlRow_fb, Decoder.ctrlRow_fb, hbytes p c hp hc]
    · split
      · exact (agreeOn_withDrows a _ _).symm.trans ((agreeOn_dataFold hwf hwf' h body).trans (agreeOn_withDrows a _ _))
      · exact h

/-- Canonical decoders that agree on both displays and count the same are the same. -/
theorem eq_of_agreeOn {d d' : Decoder} (hwf : d.fb.wf = true) (hwf' : d'.fb.wf = true)
    (h : ∀ a, AgreeOn a d d') (hdrows : d.drows = d'.drows) : d = d' := by
  refine Decoder.eq_of_fields (Memory.ext hwf hwf' fun n hn => ?_) (fun a => (h a).1.symm) hdrows
  obtain ⟨a, p, c, hp, hc, rfl⟩ := exists_fbAddr hn
  exact ((h a).2 p c hp hc).symm

/-- Settles O20: each of the rows runs the payload with that header on a display, which the parameter decides. -/
theorem otherHeaderIsIgnored : Obligations.OtherHeaderIsIgnored := by
  intro a h body s hctrl hdata i hi
  have hother : isRowHeader h = false := Bool.or_eq_false_iff.2 ⟨beq_false_of_ne hctrl, beq_false_of_ne hdata⟩
  have hpayload (b : Display) :
      s.decoderOutcome (s.dec.payload s.cfg b (h :: body)) = s.decoderOutcome (s.dec.otherHeader s.cfg) := by
    rw [Decoder.payload_other s.cfg s.dec b hother]
  have hexec : exec i s = s.decoderOutcome (s.dec.otherHeader s.cfg) := by
    revert i
    simp only [List.forall_mem_cons]
    exact ⟨(exec_hdrOther a h body s).trans (hpayload a), (exec_row_busAddr a (h :: body) s).trans (hpayload a),
      (exec_addrTop (h :: body) s).trans (hpayload .top), (exec_addrBottom (h :: body) s).trans (hpayload .bottom),
      List.forall_mem_nil _⟩
  constructor
  · intro hignore
    exact changesNothing_of_exec (by rw [hexec, Decoder.otherHeader, hignore, State.decoderOutcome_ok])
  · intro hrefuse
    rw [hexec, Decoder.otherHeader, hrefuse, State.decoderOutcome_error]

/-- Settles O21: a display's own address selects it, and the payload's first byte names the row. -/
theorem rowDispatchesOnAddressAndHeader : Obligations.RowDispatchesOnAddressAndHeader := by
  intro payload body s
  have hctrl (a : Display) : exec (.row (busAddr a) (0x00 :: body)) s = exec (.ctrlrow a body) s := by
    rw [exec_row_busAddr, exec_ctrlrow]
    exact congrArg s.decoderOutcome (Decoder.payload_ctrl s.cfg s.dec a body)
  exact ⟨(exec_addrTop payload s).trans (exec_row_busAddr .top payload s).symm,
    (exec_addrBottom payload s).trans (exec_row_busAddr .bottom payload s).symm, hctrl .top, hctrl .bottom,
    exec_row_hdrData .top body s, exec_row_hdrData .bottom body s⟩

/-- Settles O23: what the dispatch leaves, on the other display and on its own. -/
theorem rowTouchesOneDisplayOnly : Obligations.RowTouchesOneDisplayOnly := by
  intro a payload s s' t t' hwf hwf' ht ht'
  rw [dec_of_exec_row_busAddr ht, dec_of_exec_row_busAddr ht']
  exact ⟨fun b hb => agreeOn_payloadDone_of_ne hwf hb payload, fun h => agreeOn_payloadDone hwf hwf' h payload⟩

/-- How many rows ROW counts does not depend on the state. -/
theorem drows_of_exec_row {addr : Byte} {bs : List Byte} {s t : State} (h : exec (.row addr bs) s = .next t) :
    t.dec.drows = s.dec.drows + if completesDataRow (.row addr bs) = true then 1 else 0 :=
  drowsCountsDataRows.2 _ s t rfl h

/-- The row to `a` leaves the same of display `a`, with the row to `b` before it or after it. -/
theorem agreeOn_rows_swapped {a b : Display} (hab : a ≠ b) {d : Decoder} (hwf : d.fb.wf = true) (x y : List Byte) :
    AgreeOn a ((d.payloadDone a x).payloadDone b y) ((d.payloadDone b y).payloadDone a x) :=
  (agreeOn_payloadDone_of_ne (Decoder.payloadDone_fb_wf hwf a x) hab y).symm.trans
    (agreeOn_payloadDone hwf (Decoder.payloadDone_fb_wf hwf b y) (agreeOn_payloadDone_of_ne hwf hab y) x)

/-- Settles O24: both orders agree on each display and count the same rows. -/
theorem rowsToDifferentDisplaysCommute : Obligations.RowsToDifferentDisplaysCommute := by
  intro a b x y s t u t' u' hab hwf ht hu ht' hu'
  have hdrows : u.dec.drows = u'.dec.drows := by
    rw [drows_of_exec_row hu, drows_of_exec_row ht, drows_of_exec_row hu', drows_of_exec_row ht']
    omega
  have hu := dec_of_exec_row_busAddr hu
  have hu' := dec_of_exec_row_busAddr hu'
  rw [dec_of_exec_row_busAddr ht] at hu
  rw [dec_of_exec_row_busAddr ht'] at hu'
  have hwf1 := Decoder.payloadDone_fb_wf (Decoder.payloadDone_fb_wf hwf a x) b y
  have hwf2 := Decoder.payloadDone_fb_wf (Decoder.payloadDone_fb_wf hwf b y) a x
  rw [hu, hu'] at hdrows ⊢
  refine eq_of_agreeOn hwf1 hwf2 (fun e => ?_) hdrows
  by_cases he : e = a
  · rw [he]; exact agreeOn_rows_swapped hab hwf x y
  · have heb : e = b := (eq_otherDisplay he).trans (eq_otherDisplay hab.symm).symm
    rw [heb]; exact (agreeOn_rows_swapped hab.symm hwf y x).symm

end Sys2Proof.Claims
end

section
/-! Proofs for 40_framebuffer_access.md: FBWRITE, FBMASKWR, the ports and the laws of the masked byte. -/

namespace Sys2Proof.Machine

open Sys2Proof.Claims

/-! ### The ports as writes of a location -/

theorem exec_fbwrite_of_inside {p c : Nat} (hp : p < 8) (hc : c < 132) (b : FbInst) (a : Display) (v : Byte)
    (s : State) : exec (.fbwrite b a p c v) s = .next (s.setFb ((s.fb b).write (fbAddr a p c) v) b) := by
  simp only [exec, execFbwrite, byteAt?_of_lt a hp hc, ByteKey.addr]

theorem exec_fbwrite_of_outside {p c : Nat} (h : ¬ (p ≤ 7 ∧ c ≤ 131)) (b : FbInst) (a : Display) (v : Byte)
    (s : State) : exec (.fbwrite b a p c v) s = .refused .noSuchByte := by
  simp only [exec, execFbwrite, byteAt?_eq_none_of_outside h]

/-- FBMASKWR is FBWRITE of the masked byte, with the pair as its answer (R92). -/
theorem exec_fbmaskwr_of_inside {p c : Nat} (hp : p < 8) (hc : c < 132) (b : FbInst) (a : Display)
    (mask desired : Byte) (s : State) : exec (.fbmaskwr b a p c mask desired) s =
      .next ((s.setFb ((s.fb b).write (fbAddr a p c) (maskedByte (byteOf (s.fb b) a p c) mask desired)) b).answer
        (.masked (byteOf (s.fb b) a p c) (maskedByte (byteOf (s.fb b) a p c) mask desired))) := by
  simp only [exec, execFbmaskwr, byteAt?_of_lt a hp hc, ByteKey.addr, Memory.maskWrite, byteOf]

theorem exec_fbmaskwr_of_outside {p c : Nat} (h : ¬ (p ≤ 7 ∧ c ≤ 131)) (b : FbInst) (a : Display)
    (mask desired : Byte) (s : State) : exec (.fbmaskwr b a p c mask desired) s = .refused .noSuchByte := by
  simp only [exec, execFbmaskwr, byteAt?_eq_none_of_outside h]

@[simp] theorem State.setFb_fb (s : State) (b : FbInst) : s.setFb (s.fb b) b = s := by
  cases b <;> rfl

@[simp] theorem State.setFb_setFb (s : State) (m m' : Memory) (b : FbInst) :
    (s.setFb m b).setFb m' b = s.setFb m' b := by
  cases b <;> rfl

@[simp] theorem State.fb_answer (s : State) (r : Result) (b : FbInst) : (s.answer r).fb b = s.fb b := by
  cases b <;> rfl

@[simp] theorem State.fb_accept (s : State) (rest : List Input) (b : FbInst) : (s.accept rest).fb b = s.fb b := by
  cases b <;> rfl

/-- The same write again changes nothing more (R91). -/
theorem Memory.write_write {m : Memory} (hwf : m.wf = true) {n : Nat} (hn : n < Config.framebufferBytes)
    (v : Byte) : (m.write n v).write n v = m.write n v := by
  have hread : (m.write n v).read n = v := by rw [Memory.read_write_wf hwf, if_pos rfl]
  have hsame := Memory.write_read (Memory.wf_write hwf hn v) hn
  rwa [hread] at hsame

/-! ### A port operation presented to the block -/

theorem step_op {s : State} {i : Instr} {rest : List Input} (hin : s.ports.input = .op i :: rest)
    (hinternal : i.isInternalStep = false) (hdec : i.isDecWrite = true → s.cfg.decWrites = .host) :
    step s = exec i (s.accept rest) :=
  step_of_fetch hin (fetch_op_ok.2 ⟨rfl, hinternal, hdec⟩)

/-- FBREAD presented after another transaction is taken by the step after that one, which answers the byte (R90). -/
theorem step_then_fbread {s t : State} (ht : step s = .next t) {b : FbInst} {a : Display} {p c : Nat}
    {rest : List Input} (hin : t.ports.input = .op (.fbread b a p c) :: rest) (hp : p < 8) (hc : c < 132) :
    ∃ t' u, step s = .next t' ∧ step t' = .next u ∧ u.ports.input = rest ∧
      u.ports.result = .byte (byteOf (t.fb b) a p c) := by
  have hread := (step_op hin rfl (by rintro ⟨⟩)).trans (exec_fbread_of_inside hp hc b a _)
  exact ⟨t, _, ht, hread, rfl, by rw [State.answer_result, State.fb_accept]⟩

end Sys2Proof.Machine

namespace Sys2Proof.Claims

open Sys2Proof Sys2Proof.Machine

theorem byteOf_write_same {m : Memory} (hwf : m.wf = true) (a : Display) (p c : Nat) (v : Byte) :
    byteOf (m.write (fbAddr a p c) v) a p c = v := by
  rw [byteOf, Memory.read_write_wf hwf, if_pos rfl]

theorem sameBytesBut_write {m : Memory} (hwf : m.wf = true) (a : Display) {p c : Nat} (hp : p < 8) (hc : c < 132)
    (v : Byte) : SameBytesBut m (m.write (fbAddr a p c) v) a p c := by
  intro a' p' c' hp' hc' hne
  rw [byteOf, Memory.read_write_wf hwf, if_neg (fbAddr_ne hp hc hp' hc' hne)]
  rfl

/-- Settles O27: one write of the location of the operands, in the named instance. -/
theorem fbwriteOverwritesOneByte : Obligations.FbwriteOverwritesOneByte := by
  intro b a p c v s hwf
  constructor
  · rintro ⟨hp, hc⟩
    have hp : p < 8 := by omega
    have hc : c < 132 := by omega
    have hlt := fbAddr_lt a hp hc
    refine ⟨_, exec_fbwrite_of_inside hp hc b a v s, ?_, ?_, fun b' hb' => State.fb_setFb_ne s _ hb',
      State.setFb_cursor s _ b, State.setFb_drows .., State.setFb_acc .., State.setFb_chg .., State.setFb_out ..,
      State.setFb_cfg .., State.setFb_ports .., ?_, ?_⟩
    · rw [State.fb_setFb, byteOf_write_same hwf]
    · rw [State.fb_setFb]
      exact sameBytesBut_write hwf a hp hc v
    · rintro rfl
      rw [byteOf, Memory.write_read hwf hlt, State.setFb_fb]
    · rw [exec_fbwrite_of_inside hp hc, exec_fbwrite_of_inside hp hc, State.fb_setFb, State.setFb_setFb,
        Memory.write_write hwf hlt]
  · intro hout
    exact exec_fbwrite_of_outside hout b a v s

/-- Settles O28: one write of the masked byte at the location of the operands, in the named instance. -/
theorem fbmaskwrUpdatesUnderTheMask : Obligations.FbmaskwrUpdatesUnderTheMask := by
  intro b a p c mask desired s hwf
  constructor
  · rintro ⟨hp, hc⟩
    have hp : p < 8 := by omega
    have hc : c < 132 := by omega
    refine ⟨_, exec_fbmaskwr_of_inside hp hc b a mask desired s, ?_, ?_, ?_, ?_, State.setFb_cursor s _ b,
      State.setFb_drows .., State.setFb_acc .., State.setFb_chg .., State.setFb_out .., State.setFb_cfg .., ?_, ?_, ?_⟩
    · rw [State.fb_answer, State.fb_setFb, byteOf_write_same hwf]
      rfl
    · rw [State.fb_answer, State.fb_setFb, byteOf_write_same hwf, State.answer_result]
    · rw [State.fb_answer, State.fb_setFb]
      exact sameBytesBut_write hwf a hp hc _
    · intro b' hb'
      rw [State.fb_answer, State.fb_setFb_ne s _ hb']
    · rw [State.answer_input, State.setFb_ports]
    · rw [State.answer_dataRowDone, State.setFb_ports]
    · rw [State.answer_draws, State.setFb_ports]
  · intro hout
    exact exec_fbmaskwr_of_outside hout b a mask desired s

/-- Settles O29: the write is taken where the parameter lets it, and the read after it finds the byte. -/
theorem hostPortsReachEitherInstance : Obligations.HostPortsReachEitherInstance := by
  intro b a p c mask v s rest hwf hp hc hhost
  have hp : p < 8 := by omega
  have hc : c < 132 := by omega
  have htaken (h : (b == .dec) = true) : s.cfg.decWrites = .host := hhost (eq_of_beq h)
  have hwf' (l : List Input) : ((s.accept l).fb b).wf = true := by rwa [State.fb_accept]
  constructor
  · intro hin
    have hwrite := (step_op hin rfl htaken).trans (exec_fbwrite_of_inside hp hc b a v _)
    obtain ⟨t, u, ht, hu, hrest, hbyte⟩ := step_then_fbread hwrite (by rw [State.setFb_ports]; rfl) hp hc
    refine ⟨t, u, ht, hu, hrest, ?_⟩
    rw [hbyte, State.fb_setFb, byteOf_write_same (hwf' _)]
  · intro hin
    have hwrite := (step_op hin rfl htaken).trans (exec_fbmaskwr_of_inside hp hc b a mask v _)
    obtain ⟨t, u, ht, hu, hrest, hbyte⟩ :=
      step_then_fbread hwrite (by rw [State.answer_input, State.setFb_ports]; rfl) hp hc
    refine ⟨t, u, ht, hu, hrest, ?_⟩
    rw [hbyte, State.fb_answer, State.fb_setFb, byteOf_write_same (hwf' _), State.fb_accept]
    rfl

/-! ### Laws of the masked byte, bit by bit -/

theorem maskedByte_and_not_mask (old m d : Byte) : maskedByte old m d &&& ~~~m = old &&& ~~~m := by
  refine BitVec.eq_of_getLsbD_eq fun i _ => ?_
  rw [BitVec.getLsbD_and, maskedByte_getLsbD, BitVec.getLsbD_and, BitVec.getLsbD_not]
  cases m.getLsbD i <;> simp

theorem maskedByte_and_mask (old m d : Byte) : maskedByte old m d &&& m = d &&& m := by
  refine BitVec.eq_of_getLsbD_eq fun i _ => ?_
  rw [BitVec.getLsbD_and, maskedByte_getLsbD, BitVec.getLsbD_and]
  cases m.getLsbD i <;> simp

theorem maskedByte_maskedByte (old m d : Byte) : maskedByte (maskedByte old m d) m d = maskedByte old m d := by
  refine BitVec.eq_of_getLsbD_eq fun i _ => ?_
  rw [maskedByte_getLsbD, maskedByte_getLsbD]
  cases m.getLsbD i <;> simp

theorem maskedByte_comm {m m' : Byte} (h : m &&& m' = 0) (old d d' : Byte) :
    maskedByte (maskedByte old m d) m' d' = maskedByte (maskedByte old m' d') m d := by
  refine BitVec.eq_of_getLsbD_eq fun i _ => ?_
  have hbit : (m.getLsbD i && m'.getLsbD i) = false := by rw [← BitVec.getLsbD_and, h]; simp
  simp only [maskedByte_getLsbD]
  cases hm : m.getLsbD i with
  | false => simp
  | true => rw [hm, Bool.true_and] at hbit; simp [hbit]

theorem maskedByte_full (old d : Byte) : maskedByte old 0xFF d = d := by
  refine BitVec.eq_of_getLsbD_eq fun i hi => ?_
  rw [maskedByte_getLsbD, show (0xFF : Byte) = BitVec.allOnes 8 from rfl, BitVec.getLsbD_allOnes]
  simp [hi]

/-- The byte stays exactly when every touched bit already has its desired value (R92). -/
theorem maskedByte_eq_old_iff (old m d : Byte) : maskedByte old m d = old ↔ old &&& m = d &&& m := by
  constructor
  · intro h
    rw [← maskedByte_and_mask old m d, h]
  · intro h
    refine BitVec.eq_of_getLsbD_eq fun i _ => ?_
    have hbit : (old &&& m).getLsbD i = (d &&& m).getLsbD i := by rw [h]
    rw [BitVec.getLsbD_and, BitVec.getLsbD_and] at hbit
    rw [maskedByte_getLsbD]
    cases hm : m.getLsbD i with
    | false => rfl
    | true => simpa [hm] using hbit.symm

/-- Settles O31: the six laws, each read off one bit of the byte. -/
theorem maskedByteLaws : Obligations.MaskedByteLaws := by
  intro old m d m' d'
  exact ⟨maskedByte_and_not_mask old m d, maskedByte_and_mask old m d, maskedByte_maskedByte old m d,
    fun h => maskedByte_comm h old d d', maskedByte_full old d, maskedByte_eq_old_iff old m d⟩

end Sys2Proof.Claims
end

section
/-! Proofs for 41_pixel_address_decode.md: ADDR2PIX, the refused operands, and the order of a segment's entries. -/

namespace Sys2Proof.Machine

open Sys2Proof.Claims

/-! ### ADDR2PIX and PIX2ADDR undo each other (R102) -/

theorem exec_addr2pix_of_inside {p i c : Nat} (hp : p < 8) (hi : i < 8) (hc : c < 132) (a : Display) (s : State) :
    exec (.addr2pix a p i c) s = .next (s.answer (.pixel (addrPixel a p i c).1 (addrPixel a p i c).2)) := by
  simp only [exec, execAddr2pix, if_pos (And.intro (inFramebuffer_iff.2 ⟨hp, hc⟩) hi)]

theorem exec_addr2pix_of_outside {p i c : Nat} (h : ¬ (p ≤ 7 ∧ i ≤ 7 ∧ c ≤ 131)) (a : Display) (s : State) :
    exec (.addr2pix a p i c) s =
      .next (s.answerFree fun k => .pixel (Config.freePixel k).1 (Config.freePixel k).2) := by
  have hout : ¬ (inFramebuffer p c = true ∧ i < 8) := by rw [inFramebuffer_iff]; omega
  simp only [exec, execAddr2pix, if_neg hout]

/-- PIX2ADDR of the pixel of a framebuffer bit is that bit. -/
theorem exec_pix2addr_of_addrPixel {x y : Nat} {q : PixelAddr} (h : pixelAddr? x y = some q) (s : State) :
    exec (.pix2addr x y) s = .next (s.answer (.address q.key.disp q.key.page.val q.bit q.key.col.val)) := by
  simp only [exec, execPix2addr, h]

/-! ### Operands without meaning (R101, R105) -/

theorem exec_pix2addr_of_off_canvas {x y : Nat} (h : onCanvas x y = false) (s : State) :
    exec (.pix2addr x y) s = .refused .offCanvas := by
  simp only [exec, execPix2addr, pixelAddr?_eq_none.2 h]

theorem admitSegment_of_off_canvas {seg : List Pixel} (h : segmentOnCanvas seg = false) :
    admitSegment seg = .error .offCanvas := by
  simp only [admitSegment, h, Bool.false_eq_true, if_false]

theorem admitSegment_of_repeated {seg : List Pixel} (h : segmentOnCanvas seg = true)
    (hd : segmentDistinct seg = false) : admitSegment seg = .error .repeatedPixel := by
  simp only [admitSegment, h, hd, if_true, Bool.false_eq_true, if_false]

theorem exec_accum_of_not_admitted {seg : List Pixel} {r : Refusal} (h : admitSegment seg = .error r) (s : State) :
    exec (.accum seg) s = .refused r := by
  simp only [exec, execAccum, h]

theorem exec_segupdate_of_not_admitted {seg : List Pixel} {r : Refusal} (h : admitSegment seg = .error r)
    (s : State) : exec (.segupdate seg) s = .refused r := by
  simp only [exec, execSegupdate, h]

theorem onCanvas_eq_false_iff {x y : Nat} : onCanvas x y = false ↔ ¬ (x ≤ 131 ∧ y ≤ 127) := by
  rw [← Bool.not_eq_true, onCanvas_iff]
  omega

theorem segmentOnCanvas_iff {seg : List Pixel} : segmentOnCanvas seg = true ↔ ∀ e ∈ seg, onCanvas e.x e.y = true := by
  rw [segmentOnCanvas, List.all_eq_true]

/-! ### `ACC` is decided by the set of entries -/

/-- In a map each entry is what its key holds. -/
theorem AccSorted.mem_iff {acc : List AccEntry} (h : AccSorted acc) (e : AccEntry) :
    e ∈ acc ↔ (∃ x ∈ acc, x.key = e.key) ∧ e.mask = accMask acc e.key ∧ e.desired = accDesired acc e.key := by
  constructor
  · intro he
    exact ⟨⟨e, he, rfl⟩, (h.accMask_of_mem he).symm, (h.accDesired_of_mem he).symm⟩
  · rintro ⟨⟨x, hx, hkey⟩, hmask, hdesired⟩
    rw [← hkey, h.accMask_of_mem hx] at hmask
    rw [← hkey, h.accDesired_of_mem hx] at hdesired
    obtain ⟨k, m, d⟩ := e
    obtain ⟨k', m', d'⟩ := x
    simp only at hkey hmask hdesired
    subst hkey hmask hdesired
    exact hx

/-- Two maps in canonical form with the same entries are the same list. -/
theorem AccSorted.ext {acc acc' : List AccEntry} (h : AccSorted acc) (h' : AccSorted acc')
    (hmem : ∀ e, e ∈ acc ↔ e ∈ acc') : acc = acc' := by
  have hperm : acc.Perm acc' := (List.perm_ext_iff_of_nodup h.nodup.of_map h'.nodup.of_map).2 hmem
  exact hperm.eq_of_pairwise (fun e e' _ _ hlt hgt => absurd hgt (by omega)) h h'

/-- ACCUM's map depends on which entries the segment has, not on their order (R106). -/
theorem accumulate_congr {seg seg' : List Pixel} (h : ∀ e, e ∈ seg ↔ e ∈ seg') :
    accumulate seg = accumulate seg' := by
  refine (accumulate_sorted seg).ext (accumulate_sorted seg') fun e => ?_
  have hmask : accMask (accumulate seg) e.key = accMask (accumulate seg') e.key :=
    BitVec.eq_of_getLsbD_eq fun i _ => Bool.eq_iff_iff.2 (by
      rw [(accumulate_spec seg e.key).2.1 i, (accumulate_spec seg' e.key).2.1 i]; simp only [h])
  have hdesired : accDesired (accumulate seg) e.key = accDesired (accumulate seg') e.key :=
    BitVec.eq_of_getLsbD_eq fun i _ => Bool.eq_iff_iff.2 (by
      rw [(accumulate_spec seg e.key).2.2 i, (accumulate_spec seg' e.key).2.2 i]; simp only [h])
  rw [(accumulate_sorted seg).mem_iff, (accumulate_sorted seg').mem_iff, hmask, hdesired,
    exists_mem_accumulate_iff, exists_mem_accumulate_iff]
  simp only [h]

theorem Sequencer.segUpdate_congr {seg seg' : List Pixel} (h : ∀ e, e ∈ seg ↔ e ∈ seg') (cfg : Settings)
    (q : Sequencer) : q.segUpdate cfg seg = q.segUpdate cfg seg' := by
  simp only [Sequencer.segUpdate, Sequencer.applied, accumulate_congr h]

/-- Whether a segment is admitted does not depend on the order of its entries (R105). -/
theorem segmentAdmitted_of_perm {seg seg' : List Pixel} (h : seg'.Perm seg) (hadm : segmentAdmitted seg = true) :
    segmentAdmitted seg' = true := by
  obtain ⟨hcanvas, hdistinct⟩ := Bool.and_eq_true_iff.1 hadm
  refine Bool.and_eq_true_iff.2 ⟨?_, ?_⟩
  · rw [segmentOnCanvas_iff] at hcanvas ⊢
    exact fun e he => hcanvas e (h.mem_iff.1 he)
  · have hnodup : (seg.map fun e => (e.x, e.y)).Nodup := of_decide_eq_true hdistinct
    exact decide_eq_true ((h.map _).nodup_iff.2 hnodup)

end Sys2Proof.Machine

namespace Sys2Proof.Claims

open Sys2Proof Sys2Proof.Machine

/-- Settles O34: `pixelAddr?_eq_some` reads the same pair of a pixel and a bit in either direction. -/
theorem addr2pixInvertsPix2addr : Obligations.Addr2pixInvertsPix2addr := by
  refine ⟨?_, ?_, ?_⟩
  · rintro a p i c s ⟨hp, hi, hc⟩
    have hp : p < 8 := by omega
    have hc : c < 132 := by omega
    have hq : pixelAddr? (addrPixel a p i c).1 (addrPixel a p i c).2 = some ⟨⟨a, ⟨p, hp⟩, ⟨c, hc⟩⟩, i⟩ :=
      pixelAddr?_eq_some.2 ⟨Nat.lt_succ_of_le hi, rfl⟩
    refine ⟨_, _, _, _, exec_addr2pix_of_inside hp (by omega) hc a s, onlyAnswer_answer s _, State.answer_result s _,
      ?_, ?_, ?_, ?_, ?_, exec_pix2addr_of_addrPixel hq s, State.answer_result s _⟩
    · cases a <;> rfl
    · rintro rfl; rfl
    · rintro rfl; rfl
    all_goals cases a <;> simp only [addrPixel, Config.halfRows] <;> omega
  · rintro x y s ⟨hx, hy⟩
    have hq := pixelAddr?_of_canvas (x := x) (y := y) (by omega) (by omega)
    have hpage : pixelRow y / 8 < 8 := Nat.div_lt_of_lt_mul (pixelRow_lt (by omega))
    have hbit : pixelRow y % 8 < 8 := Nat.mod_lt _ (by omega)
    have hxy := (pixelAddr?_eq_some.1 hq).2
    refine ⟨_, _, _, _, _, _, exec_pix2addr_of_canvas (by omega) (by omega) s, State.answer_result s _,
      by omega, by omega, hx, exec_addr2pix_of_inside hpage hbit (by omega) _ s, ?_⟩
    rw [State.answer_result, ← hxy]
  · intro a p i c s h
    exact ⟨_, _, _, exec_addr2pix_of_outside h a s, State.answerFree_result s _, onlyFreeAnswer_answerFree s _⟩

/-- Settles O33: PIX2ADDR names no bit off the canvas, and ACCUM tests the canvas before the coordinates. -/
theorem operandsWithoutMeaningAreRefused : Obligations.OperandsWithoutMeaningAreRefused := by
  refine ⟨?_, ?_, ?_⟩
  · intro x y s h
    exact exec_pix2addr_of_off_canvas (onCanvas_eq_false_iff.2 h) s
  · rintro seg s ⟨e, he, hoff⟩
    refine exec_accum_of_not_admitted (admitSegment_of_off_canvas ?_) s
    rw [← Bool.not_eq_true, segmentOnCanvas_iff]
    intro hall
    rw [← onCanvas_eq_false_iff, hall e he] at hoff
    cases hoff
  · intro seg s hon hrepeat
    refine exec_accum_of_not_admitted (admitSegment_of_repeated ?_ (decide_eq_false hrepeat)) s
    rw [segmentOnCanvas_iff]
    intro e he
    obtain ⟨hx, hy⟩ := hon e he
    exact onCanvas_iff.2 ⟨by omega, by omega⟩

/-- Settles O37: a permutation has the same entries, and `ACC` is decided by them. -/
theorem entryOrderOfASegmentIsIrrelevant : Obligations.EntryOrderOfASegmentIsIrrelevant := by
  intro seg seg' s hperm hadm hcfg
  have hadm' := segmentAdmitted_of_perm hperm hadm
  have hmem (e : Pixel) : e ∈ seg' ↔ e ∈ seg := hperm.mem_iff
  constructor
  · exact ⟨_, exec_accum_of_admitted hadm s, by rw [exec_accum_of_admitted hadm', accumulate_congr hmem]⟩
  · exact ⟨_, exec_segupdate_of_admitted hadm hcfg,
      by rw [exec_segupdate_of_admitted hadm' hcfg, Sequencer.segUpdate_congr hmem]⟩

end Sys2Proof.Claims
end

section
/-! Proofs for 42_update_sequencer.md: PACK, and EMIT of any operands. -/

namespace Sys2Proof.Machine

open Sys2Proof.Claims

/-! ### PACK -/

theorem exec_pack_of_zero {s : State} (h : s.cfg.maxRunLen = 0) (cols : List Nat) :
    exec (.pack cols) s = .refused .maxRunLenZero := by
  simp only [exec, execPack, if_pos h]

theorem exec_pack_of_columns {s : State} (h : 1 ≤ s.cfg.maxRunLen) {cols : List Nat} (hc : ∀ c ∈ cols, c < 132) :
    exec (.pack cols) s = .next (s.answer (.runs (packCols s.cfg.maxRunLen cols))) := by
  have hall : (cols.all fun c => c < Config.columns) = true := List.all_eq_true.2 fun c hm => decide_eq_true (hc c hm)
  simp only [exec, execPack, if_neg (Nat.one_le_iff_ne_zero.1 h), if_pos hall]

theorem exec_pack_of_other_columns {s : State} (h : 1 ≤ s.cfg.maxRunLen) {cols : List Nat}
    (hc : ∃ c ∈ cols, 131 < c) : exec (.pack cols) s =
      .next (s.answerFree fun k => .runs ((Config.freeRuns k).map fun r => ⟨r.1, r.2⟩)) := by
  obtain ⟨c, hm, hlt⟩ := hc
  have hall : ¬ (cols.all fun c => c < Config.columns) = true := fun hall =>
    absurd (of_decide_eq_true (List.all_eq_true.1 hall c hm)) (Nat.not_lt.2 hlt)
  simp only [exec, execPack, if_neg (Nat.one_le_iff_ne_zero.1 h), if_neg hall]

/-- A run that can grow by an existing column holds fewer than 132, so no cap from 132 on stops it (R127). -/
theorem packFrom_of_cap_ge {cap : Nat} (hcap : 132 ≤ cap) (c0 n : Nat) {cols : List Nat} (hc : ∀ c ∈ cols, c ≤ 131) :
    packFrom cap c0 n cols = packFrom 132 c0 n cols := by
  induction cols generalizing c0 n with
  | nil => rfl
  | cons c cs ih =>
    rw [List.forall_mem_cons] at hc
    have hgrow : (c = c0 + n ∧ n < cap) ↔ (c = c0 + n ∧ n < 132) := by omega
    simp only [packFrom, hgrow, ih _ _ hc.2]

theorem packCols_of_cap_ge {cap : Nat} (hcap : 132 ≤ cap) {cols : List Nat} (hc : ∀ c ∈ cols, c ≤ 131) :
    packCols cap cols = packCols 132 cols := by
  have hsorted : ∀ c ∈ sortCols cols, c ≤ 131 := fun c hm => hc c (mem_sortCols.1 hm)
  rw [packCols, packCols]
  cases hcols : sortCols cols with
  | nil => rfl
  | cons c cs =>
    rw [hcols, List.forall_mem_cons] at hsorted
    exact packFrom_of_cap_ge hcap c 1 hsorted.2

/-! ### EMIT -/

theorem exec_emit (a : Display) (p : BitVec 3) (c0 : BitVec 8) (n : Nat) (s : State) : exec (.emit a p c0 n) s =
    .next { s with
      enc := { s.enc with
        out := s.enc.out ++ runRows a p.toNat c0.toNat (s.enc.fb.sendRun a p.toNat c0.toNat n s.ports.draws).1 },
      ports := { s.ports with draws := (s.enc.fb.sendRun a p.toNat c0.toNat n s.ports.draws).2 } } := rfl

end Sys2Proof.Machine

namespace Sys2Proof.Claims

open Sys2Proof Sys2Proof.Machine

/-- Settles O39: the laws of the greedy packing, for the columns of a page. -/
theorem packGivesMaximalRuns : Obligations.PackGivesMaximalRuns := by
  intro cols s
  refine ⟨?_, fun hzero => exec_pack_of_zero hzero cols, ?_⟩
  · intro hcap hc
    have hc : ∀ c ∈ cols, c < 132 := fun c hm => Nat.lt_succ_of_le (hc c hm)
    obtain ⟨hlen, hordered⟩ := packCols_shape hcap cols
    refine ⟨_, _, exec_pack_of_columns hcap hc, State.answer_result s _, onlyAnswer_answer s _,
      packCols_covers _ cols, ?_, hordered, packCols_maximal hcap cols⟩
    intro r hr
    have hin := packCols_inPage hcap hc r hr
    exact ⟨(hlen r hr).1, (hlen r hr).2, by omega⟩
  · intro hcap hc
    exact ⟨_, _, exec_pack_of_other_columns hcap hc, State.answerFree_result s _, onlyFreeAnswer_answerFree s _⟩

/-- Settles O40: no cap from 132 on stops a run of one page. -/
theorem capsFrom132AreOne : Obligations.CapsFrom132AreOne :=
  fun _ _ hcap hc => packCols_of_cap_ge hcap hc

/-- Settles O42: EMIT appends the pair whatever its operands are, and sends the mirror's byte where there is one. -/
theorem emitCompletesOnEveryOperand : Obligations.EmitCompletesOnEveryOperand := by
  intro a p c0 n s
  refine ⟨_, (s.enc.fb.sendRun a p.toNat c0.toNat n s.ports.draws).1, exec_emit a p c0 n s, rfl, rfl, rfl, rfl, rfl, ?_,
    rfl, rfl, rfl, ?_, Memory.length_sendRun .., ?_⟩
  · intro hin
    simp only [Memory.sendRun_draws _ a p.isLt hin]
  · simp only [runRows_toNat]
  · intro i hi hc
    exact Memory.getElem_sendRun _ a p.isLt _ _ _ i hi (Nat.lt_succ_of_le hc)

end Sys2Proof.Claims
end

section
/-! Proofs for 42_update_sequencer.md: SEGUPDATE, what it shows and what it sends, and the replay of `OUT`. -/

namespace Sys2Proof.Machine

open Sys2Proof.Claims

/-! ### Configurations the sequencer cannot run under (R127, D8) -/

theorem Settings.ready_of_zero {cfg : Settings} (h : cfg.maxRunLen = 0) : cfg.ready = .error .maxRunLenZero := by
  simp only [Settings.ready, if_pos h]

theorem Settings.ready_of_bad_order {cfg : Settings} (h : 1 ≤ cfg.maxRunLen)
    (horder : pageOrderLegal cfg.pageOrder = false) : cfg.ready = .error .badPageOrder := by
  simp only [Settings.ready, if_neg (Nat.one_le_iff_ne_zero.1 h), horder, Bool.false_eq_true, if_false]

theorem exec_segupdate_of_not_ready {seg : List Pixel} (h : segmentAdmitted seg = true) {s : State} {r : Refusal}
    (hready : s.cfg.ready = .error r) : exec (.segupdate seg) s = .refused r := by
  simp only [exec, execSegupdate, admitSegment_of_admitted h, hready]

/-! ### The mirror after segments -/

/-- A pixel is `v` after a segment that gives it no other value, if it was `v` before or the segment names it. -/
theorem Sequencer.applied_pixel_eq {q : Sequencer} (hwf : q.fb.wf = true) {seg : List Pixel}
    (hd : segmentDistinct seg = true) {x y : Nat} (hxy : onCanvas x y = true) {v : Bool}
    (hon : ∀ e ∈ seg, e.x = x → e.y = y → e.on = v)
    (hnamed : q.fb.pixel x y = v ∨ ∃ e ∈ seg, e.x = x ∧ e.y = y) : (q.applied seg).fb.pixel x y = v := by
  rw [Sequencer.applied_pixel q hwf hd hxy]
  cases hf : seg.find? fun e => e.x = x ∧ e.y = y with
  | some e =>
    obtain ⟨hx, hy⟩ : e.x = x ∧ e.y = y := by simpa using List.find?_some hf
    exact hon e (List.mem_of_find?_eq_some hf) hx hy
  | none =>
    refine hnamed.resolve_right ?_
    rintro ⟨e, he, hx, hy⟩
    simpa [hx, hy] using List.find?_eq_none.1 hf e he

/-- A pixel that a segment does not name stays (R116). -/
theorem Sequencer.applied_pixel_of_not_named {q : Sequencer} (hwf : q.fb.wf = true) {seg : List Pixel}
    (hd : segmentDistinct seg = true) {x y : Nat} (hxy : onCanvas x y = true)
    (hno : ∀ e ∈ seg, (e.x, e.y) ≠ (x, y)) : (q.applied seg).fb.pixel x y = q.fb.pixel x y :=
  Sequencer.applied_pixel_eq hwf hd hxy (fun e he hx hy => absurd (by rw [hx, hy]) (hno e he)) (.inl rfl)

/-- A byte in which a segment names no pixel stays (R116). -/
theorem Sequencer.applied_read_of_not_named {q : Sequencer} (hwf : q.fb.wf = true) {seg : List Pixel} {k : ByteKey}
    (hno : ∀ e ∈ seg, ∀ i, i < 8 → (e.x, e.y) ≠ addrPixel k.disp k.page.val i k.col.val) :
    (q.applied seg).fb.read k.addr = q.fb.read k.addr := by
  refine Sequencer.read_applyAll_of_no_entry (q := { q with acc := accumulate seg, chg := [] }) hwf
    (accumulate_sorted seg).nodup rfl fun e he hkey => ?_
  obtain ⟨px, hpx, i, hi⟩ := exists_mem_accumulate_iff.1 ⟨e, he, hkey⟩
  obtain ⟨hlt, hxy⟩ := pixelAddr?_eq_some.1 hi
  exact hno px hpx i hlt hxy

theorem Sequencer.segUpdate_fb_wf {q : Sequencer} (hwf : q.fb.wf = true) (cfg : Settings) (seg : List Pixel) :
    (q.segUpdate cfg seg).fb.wf = true :=
  (Sequencer.applied_spec q hwf seg).2.1

/-- As `Sequencer.applied_pixel_eq`, for a list of segments. -/
theorem Sequencer.segUpdates_pixel_eq {q : Sequencer} (hwf : q.fb.wf = true) (cfg : Settings)
    {segs : List (List Pixel)} (hd : ∀ seg ∈ segs, segmentDistinct seg = true) {x y : Nat}
    (hxy : onCanvas x y = true) {v : Bool} (hon : ∀ seg ∈ segs, ∀ e ∈ seg, e.x = x → e.y = y → e.on = v)
    (hnamed : q.fb.pixel x y = v ∨ ∃ seg ∈ segs, ∃ e ∈ seg, e.x = x ∧ e.y = y) :
    (q.segUpdates cfg segs).fb.pixel x y = v := by
  induction segs generalizing q with
  | nil => simpa [Sequencer.segUpdates] using hnamed
  | cons seg segs ih =>
    rw [List.forall_mem_cons] at hd hon
    refine ih (Sequencer.segUpdate_fb_wf hwf cfg seg) hd.2 hon.2 ?_
    simp only [List.mem_cons, exists_eq_or_imp, ← or_assoc] at hnamed
    exact hnamed.imp_left (Sequencer.applied_pixel_eq hwf hd.1 hxy hon.1)

/-! ### The order of the runs that a segment sends (R124) -/

theorem fbAddr_le_of_le (a : Display) (p : Nat) {c c' : Nat} (h : c ≤ c') : fbAddr a p c ≤ fbAddr a p c' :=
  Nat.add_le_add_left h _

/-- The default order goes up in locations, each page before the next. -/
theorem defaultPageOrder_ascending : Config.defaultPageOrder.Pairwise fun ap bp =>
    fbAddr ap.1 ap.2.val 132 ≤ fbAddr bp.1 bp.2.val 0 := by decide

/-- A run ends at or before the location at which another begins. -/
def PageRun.before (x y : PageRun) : Prop :=
  fbAddr x.disp x.page.val (x.run.first + x.run.len) ≤ fbAddr y.disp y.page.val y.run.first

theorem Sequencer.mem_pageRuns {q : Sequencer} {cap : Nat} {ap : Display × Fin Config.pages} {x : PageRun}
    (h : x ∈ q.pageRuns cap ap) : x.disp = ap.1 ∧ x.page = ap.2 := by
  obtain ⟨r, -, rfl⟩ := List.mem_map.1 h
  exact ⟨rfl, rfl⟩

theorem Sequencer.pageRuns_ascending (q : Sequencer) {cap : Nat} (hcap : 1 ≤ cap) (ap : Display × Fin Config.pages) :
    (q.pageRuns cap ap).Pairwise PageRun.before := by
  rw [Sequencer.pageRuns, List.pairwise_map]
  exact (packCols_shape hcap _).2.imp fun h => fbAddr_le_of_le ap.1 ap.2.val h

/-- Under the default order all runs of a segment stand in the order of their locations. -/
theorem Sequencer.allRuns_ascending {q : Sequencer} (hwf : q.fb.wf = true) {cfg : Settings} (hcfg : cfg.legal = true)
    (horder : cfg.pageOrder = Config.defaultPageOrder) (seg : List Pixel) :
    ((q.applied seg).allRuns cfg).Pairwise PageRun.before := by
  obtain ⟨hcap, -⟩ := Settings.legal_iff.1 hcfg
  obtain ⟨hin, -⟩ := Sequencer.allRuns_spec hwf hcfg seg
  rw [Sequencer.allRuns, List.pairwise_flatMap]
  refine ⟨fun ap _ => Sequencer.pageRuns_ascending _ hcap ap, ?_⟩
  rw [horder]
  refine defaultPageOrder_ascending.imp_of_mem ?_
  intro ap bp hap _ hle x hx y hy
  obtain ⟨⟨-, hend⟩, -⟩ := hin x (List.mem_flatMap.2 ⟨ap, horder ▸ hap, hx⟩)
  obtain ⟨hxd, hxp⟩ := Sequencer.mem_pageRuns hx
  obtain ⟨hyd, hyp⟩ := Sequencer.mem_pageRuns hy
  calc fbAddr x.disp x.page.val (x.run.first + x.run.len)
      ≤ fbAddr ap.1 ap.2.val 132 := by rw [hxd, hxp]; exact fbAddr_le_of_le _ _ hend
    _ ≤ fbAddr bp.1 bp.2.val 0 := hle
    _ ≤ fbAddr y.disp y.page.val y.run.first := by rw [hyd, hyp]; exact fbAddr_le_of_le _ _ (Nat.zero_le _)

theorem Settings.legal_of_defaultPageOrder {cfg : Settings} (hcap : 1 ≤ cfg.maxRunLen)
    (horder : cfg.pageOrder = Config.defaultPageOrder) : cfg.legal = true :=
  Settings.legal_iff.2 ⟨hcap, by rw [horder]; decide⟩

/-! ### Replay (R130) -/

theorem Sequencer.segUpdates_append_singleton (cfg : Settings) (q : Sequencer) (segs : List (List Pixel))
    (seg : List Pixel) : q.segUpdates cfg (segs ++ [seg]) = (q.segUpdates cfg segs).segUpdate cfg seg :=
  List.foldl_append

theorem Sequencer.segUpdates_fb_wf {q : Sequencer} (hwf : q.fb.wf = true) (cfg : Settings)
    (segs : List (List Pixel)) : (q.segUpdates cfg segs).fb.wf = true := by
  induction segs using List.reverseRecOn with
  | nil => exact hwf
  | append_singleton segs seg ih =>
    rw [Sequencer.segUpdates_append_singleton]
    exact Sequencer.segUpdate_fb_wf ih cfg seg

theorem Sequencer.segUpdate_out (cfg : Settings) (q : Sequencer) (seg : List Pixel) :
    (q.segUpdate cfg seg).out = q.out ++ (q.applied seg).allRows cfg :=
  congrArg (· ++ _) (q.applied_out seg)

/-- The replay goes on from segment to segment with the decoder showing the mirror. -/
theorem Decoder.rows_segUpdates {cfg : Settings} (hcfg : cfg.legal = true) (segs : List (List Pixel)) :
    ∃ d, Decoder.reset.rows cfg (Sequencer.reset.segUpdates cfg segs).out = .ok d ∧
      d.fb = (Sequencer.reset.segUpdates cfg segs).fb := by
  induction segs using List.reverseRecOn with
  | nil => exact ⟨Decoder.reset, rfl, rfl⟩
  | append_singleton segs seg ih =>
    obtain ⟨d, hrows, hfb⟩ := ih
    have hwf : (Sequencer.reset.segUpdates cfg segs).fb.wf = true := Sequencer.segUpdates_fb_wf rfl cfg segs
    obtain ⟨d', hrows', hfb'⟩ := Decoder.rows_segUpdate hwf hcfg seg hfb
    refine ⟨d', ?_, by rw [hfb', Sequencer.segUpdates_append_singleton]⟩
    rw [Sequencer.segUpdates_append_singleton, Sequencer.segUpdate_out, Decoder.rows_append, hrows]
    exact hrows'

end Sys2Proof.Machine

namespace Sys2Proof.Claims

open Sys2Proof Sys2Proof.Machine

/-- Settles O43: ACCUM and APPLY give the pixels and bytes, the rows are appended, and each test refuses by its name. -/
theorem segupdateAppliesTheTargets : Obligations.SegupdateAppliesTheTargets := by
  intro seg s hwf
  refine ⟨?_, ?_, ?_, ?_, ?_⟩
  · intro hadm hcfg
    obtain ⟨-, hd⟩ := Bool.and_eq_true_iff.1 hadm
    refine ⟨_, _, exec_segupdate_of_admitted hadm hcfg, ⟨rfl, rfl, rfl⟩, rfl, rfl,
      Sequencer.segUpdate_out s.cfg s.enc seg, fun e he => Sequencer.applied_pixel_of_mem hwf hadm he, ?_, ?_⟩
    · intro x y hx hy hno
      exact Sequencer.applied_pixel_of_not_named hwf hd (onCanvas_iff.2 ⟨by omega, by omega⟩) hno
    · intro k hno
      exact Sequencer.applied_read_of_not_named hwf hno
  · intro hoff
    exact exec_segupdate_of_not_admitted (admitSegment_of_off_canvas hoff) s
  · intro hon hrepeat
    exact exec_segupdate_of_not_admitted (admitSegment_of_repeated hon hrepeat) s
  · intro hadm hzero
    exact exec_segupdate_of_not_ready hadm (Settings.ready_of_zero hzero)
  · intro hadm hcap horder
    exact exec_segupdate_of_not_ready hadm (Settings.ready_of_bad_order hcap horder)

/-- Settles O44: the runs are `allRuns`, whose laws are those of PACK for the changed columns of each page. -/
theorem segupdateSendsExactlyTheChangedBytes : Obligations.SegupdateSendsExactlyTheChangedBytes := by
  intro seg s hwf hadm hcap horder
  have hcfg := Settings.legal_of_defaultPageOrder hcap horder
  obtain ⟨hin, hcovers⟩ := Sequencer.allRuns_spec hwf hcfg seg
  refine ⟨_, (s.enc.applied seg).allRuns s.cfg, exec_segupdate_of_admitted hadm hcfg, ?_, hin,
    Sequencer.allRuns_ascending hwf hcfg horder seg, ?_, ?_⟩
  · exact (Sequencer.segUpdate_out s.cfg s.enc seg).trans (congrArg _ (Sequencer.allRows_eq _ s.cfg))
  · intro x hx hnext hne
    exact Sequencer.allRuns_maximal hwf hcap seg x hx (Nat.lt_succ_of_le hnext) hne
  · intro a p c hp hc
    exact (hcovers (fbAddr a p c)).trans (and_iff_right (fbAddr_lt a hp hc))

/-- Settles O46: by induction on the segments, the last one last. -/
theorem replayOfOutEqualsTheMirror : Obligations.ReplayOfOutEqualsTheMirror := by
  intro cfg segs hcfg _
  obtain ⟨d, hrows, hfb⟩ := Decoder.rows_segUpdates hcfg segs
  exact ⟨d, hrows, hfb, fun a p c _ _ => by rw [hfb]⟩

/-- Settles O47: some segment names the pixel, and every entry that names it has the target's value. -/
theorem phaseShowsTheTargetBitmap : Obligations.PhaseShowsTheTargetBitmap := by
  intro cfg q segs target hwf hnodup htarget hall x y hx hy
  have hd : ∀ seg ∈ segs, segmentDistinct seg = true := fun seg hseg =>
    decide_eq_true (hnodup.sublist ((List.sublist_flatten_of_mem hseg).map _))
  obtain ⟨e, he, hxy⟩ := hall x y hx hy
  obtain ⟨hex, hey⟩ := Prod.mk.inj hxy
  obtain ⟨seg, hseg, heseg⟩ := List.mem_flatten.1 he
  refine Sequencer.segUpdates_pixel_eq hwf cfg hd (onCanvas_iff.2 ⟨by omega, by omega⟩) ?_
    (.inr ⟨seg, hseg, e, heseg, hex, hey⟩)
  rintro seg' hseg' e' he' rfl rfl
  exact (htarget e' (List.mem_flatten.2 ⟨seg', hseg', he'⟩)).2

end Sys2Proof.Claims
end

section
/-! Proofs for 60_exceptions.md: nothing faults, and what is well-formed completes. -/

namespace Sys2Proof.Machine

open Sys2Proof.Claims

/-! ### Rows under the default parameters -/

section Defaults

variable {cfg : Settings} (hcol : cfg.colOverflow = .wrap256) (hhdr : cfg.badHeader = .ignore)

include hcol

theorem Decoder.wdata_completes (d : Decoder) (a : Display) (v : Byte) : ∃ d', d.wdata cfg a v = .ok d' :=
  ⟨_, Decoder.wdata_ok (.inl hcol) v⟩

theorem Decoder.dataRow_completes (d : Decoder) (a : Display) (body : List Byte) :
    ∃ d', d.dataRow cfg a body = .ok d' :=
  ⟨_, Decoder.dataRow_of_ok (Decoder.dataBytes_ok hcol d a body)⟩

include hhdr

/-- Under the defaults of D3 and D6 neither parameter refuses a payload (R140). -/
theorem Decoder.payload_completes (d : Decoder) (a : Display) (bs : List Byte) :
    ∃ d', d.payload cfg a bs = .ok d' := by
  rcases Decoder.payload_cases cfg d a bs with h | ⟨_, _, h⟩ | ⟨_, _, h⟩ | ⟨_, h⟩ | ⟨_, h⟩
  · exact ⟨_, h⟩
  · exact ⟨_, h⟩
  · exact ⟨_, h⟩
  · rw [hhdr] at h; cases h
  · rw [hcol] at h; cases h

theorem Decoder.row_completes (d : Decoder) (r : Row) : ∃ d', d.row cfg r = .ok d' := by
  rw [Decoder.row]
  split
  · exact Decoder.payload_completes hcol hhdr d _ _
  · exact ⟨d, rfl⟩

theorem decoderOp_completes (d : Decoder) (i : Instr) : ∃ d', i.decoderOp cfg d = .ok d' := by
  cases i with
  | addrTop payload => exact Decoder.payload_completes hcol hhdr d .top payload
  | addrBottom payload => exact Decoder.payload_completes hcol hhdr d .bottom payload
  | addrOther addr payload => exact Decoder.row_completes hcol hhdr d _
  | data a body => exact Decoder.dataRow_completes hcol d a body
  | hdrOther a h body => exact Decoder.payload_completes hcol hhdr d a (h :: body)
  | empty a => exact Decoder.payload_completes hcol hhdr d a []
  | wdata a v => exact Decoder.wdata_completes hcol d a v
  | setcursor a p l h => exact Decoder.row_completes hcol hhdr d _
  | write a ds => exact Decoder.row_completes hcol hhdr d _
  | run a p c ds =>
    simp only [Instr.decoderOp, Decoder.rows_runRows]
    exact Decoder.dataRow_completes hcol _ a ds
  | row addr payload => exact Decoder.row_completes hcol hhdr d _
  | datarow a body => exact Decoder.dataRow_completes hcol d a body
  | _ => exact ⟨_, rfl⟩

theorem exec_completes_of_isRowProtocol {i : Instr} (hi : isRowProtocol i = true) {s : State} (hs : s.cfg = cfg) :
    ∃ d, exec i s = .next (s.afterRow d) := by
  obtain ⟨d, hd⟩ := decoderOp_completes hcol hhdr s.dec i
  exact ⟨d, by rw [exec_of_isRowProtocol hi, hs, hd, State.decoderOutcome_ok]⟩

end Defaults

/-! ### Operations of the ports and of the sequencer -/

/-- A well-formed operation outside the row protocol completes under a configuration that the sequencer runs under. -/
theorem exec_completes_of_not_isRowProtocol {i : Instr} (hi : isRowProtocol i = false) (hwf : i.wf = true)
    {s : State} (hcfg : s.cfg.legal = true) : ∃ t, exec i s = .next t := by
  cases i with
  | fbread b a p c =>
    obtain ⟨hp, hc⟩ := inFramebuffer_iff.1 hwf
    exact ⟨_, exec_fbread_of_inside hp hc b a s⟩
  | fbwrite b a p c v =>
    obtain ⟨hp, hc⟩ := inFramebuffer_iff.1 hwf
    exact ⟨_, exec_fbwrite_of_inside hp hc b a v s⟩
  | fbmaskwr b a p c mask desired =>
    obtain ⟨hp, hc⟩ := inFramebuffer_iff.1 hwf
    exact ⟨_, exec_fbmaskwr_of_inside hp hc b a mask desired s⟩
  | pix2addr x y =>
    obtain ⟨hx, hy⟩ := onCanvas_iff.1 hwf
    exact ⟨_, exec_pix2addr_of_canvas hx hy s⟩
  | addr2pix a p j c =>
    obtain ⟨hin, hj⟩ := Bool.and_eq_true_iff.1 hwf
    obtain ⟨hp, hc⟩ := inFramebuffer_iff.1 hin
    exact ⟨_, exec_addr2pix_of_inside hp (of_decide_eq_true hj) hc a s⟩
  | bitmap b => exact ⟨_, exec_bitmap b s⟩
  | accum seg => exact ⟨_, exec_accum_of_admitted hwf s⟩
  | segupdate seg => exact ⟨_, exec_segupdate_of_admitted hwf hcfg⟩
  | apply => exact ⟨_, exec_apply s⟩
  | pack cols =>
    have hcols : ∀ c ∈ cols, c < 132 := fun c hc => of_decide_eq_true (List.all_eq_true.1 hwf c hc)
    exact ⟨_, exec_pack_of_columns (Settings.legal_iff.1 hcfg).1 hcols⟩
  | emit a p c0 n => exact ⟨_, exec_emit a p c0 n s⟩
  | sample => exact ⟨_, rfl⟩
  | reset => exact ⟨_, exec_reset s⟩
  | _ => cases hi

end Sys2Proof.Machine

namespace Sys2Proof.Claims

open Sys2Proof Sys2Proof.Machine

/-- Settles O52: there is no fault to answer; rows complete because neither parameter refuses, the other operations
because their operands are in range. -/
theorem nothingFaultsAndWellFormedCompletes : Obligations.NothingFaultsAndWellFormedCompletes := by
  constructor
  · intro s f
    cases f
  · intro i s hwf hcfg hcol hhdr
    cases hi : isRowProtocol i with
    | true =>
      obtain ⟨d, hd⟩ := exec_completes_of_isRowProtocol hcol hhdr hi rfl
      exact ⟨_, hd⟩
    | false => exact exec_completes_of_not_isRowProtocol hi hwf hcfg

/-- Settles O22: the three are row-protocol instructions, which complete under the default parameters. -/
theorem everyRowCompletes : Obligations.EveryRowCompletes := by
  intro addr payload s hcol hhdr i hi
  have hrow : [Instr.row addr payload, .addrTop payload, .addrBottom payload].all isRowProtocol = true := rfl
  obtain ⟨d, hd⟩ := exec_completes_of_isRowProtocol hcol hhdr (List.all_eq_true.1 hrow i hi) rfl
  exact ⟨_, hd, onlyDecoder_afterRow s d⟩

end Sys2Proof.Claims
end
